-- ==== Sys2Proof/Word.lean ====
section
/-!
DEFINITION. The word types of WirelessMessage CORE: everything the spec treats as bits.
A character is 8 bits (00_scope.md R12, decision D1), the checksum 16 bits (R8 `CRC_W`), a hex digit's
value 4 bits (30_encoding.md R76).  No value of the block is signed (R11).
Lengths, positions and capacities are natural numbers, because R11 and 10_state.md R27 make all their
arithmetic exact natural-number arithmetic.
-/

namespace Sys2Proof

/-- A character: an unsigned value of `CHAR_W = 8` bits (R12). -/
abbrev Chr := BitVec 8

/-- A checksum value, `CRC_W = 16` bits (R8, R22). -/
abbrev CrcWord := BitVec 16

/-- The value of one hex digit (R76). -/
abbrev Nibble := BitVec 4

end Sys2Proof
end

