-- ==== Sys2Proof/Config.lean ====
section
/-!
DEFINITION. What an implementation fixes, and the free values.

* The capacities `KEY_MAX`, `IN_MAX`, `VER_MAX`, `DEV_MAX`, `OUT_MAX` and the width `LEN_W`: 00_scope.md R9,
  "each capacity is a named parameter the model takes as an argument".  They are the record `Caps`, which every state
  carries unchanged (notes/assumptions/1.md), so a statement about every state holds for every choice of them.
* The free values: opaque constants without a body.  Nothing can be proved about the value of one, so a statement that
  mentions a value the spec leaves unspecified holds whatever it is (notes/assumptions/6.md).
-/

namespace Sys2Proof

/-- The five buffer spaces (20_memory.md R50).  They do not overlap and do not alias. -/
inductive Space where
  | keymem
  | inbuf
  | verbuf
  | devbuf
  | outbuf
  deriving DecidableEq, Repr

/-- A number for each space; it only tells the spaces apart in the free values below. -/
def Space.tag : Space → Nat
  | .keymem => 0
  | .inbuf => 1
  | .verbuf => 2
  | .devbuf => 3
  | .outbuf => 4

/-- The parameters of 00_scope.md R9.  Their constraints are `Caps.wellFormed` (WellFormed.lean). -/
structure Caps where
  /-- `KEY_MAX`: capacity of `KEYMEM`. -/
  keyMax : Nat
  /-- `IN_MAX`: capacity of `INBUF`. -/
  inMax : Nat
  /-- `VER_MAX`: capacity of `VERBUF`. -/
  verMax : Nat
  /-- `DEV_MAX`: capacity of `DEVBUF`. -/
  devMax : Nat
  /-- `OUT_MAX`: capacity of `OUTBUF`. -/
  outMax : Nat
  /-- `LEN_W`: width of every length register, in bits. -/
  lenW : Nat
  deriving DecidableEq, Repr

/-- `capacity(X)` of a buffer space (20_memory.md R50, 10_state.md R32). -/
def Caps.capacity (c : Caps) : Space → Nat
  | .keymem => c.keyMax
  | .inbuf => c.inMax
  | .verbuf => c.verMax
  | .devbuf => c.devMax
  | .outbuf => c.outMax

/-- DESIGN CHOICE (notes/assumptions/2.md): the capacities `State.reset` is given.  They meet every constraint of R9 and
are large enough for the vectors of 95_test_vectors.md.  No meaning depends on them: each reads the state's own `caps`. -/
def Config.caps : Caps :=
  { keyMax := 64, inMax := 256, verMax := 16, devMax := 64, outMax := 599, lenW := 10 }

/-- Free value (notes/assumptions/6.md): `CRC` where the spec leaves it unspecified (10_state.md R22). -/
opaque Config.freeCrc : Nat → CrcWord

/-- Free value: `RDEV[i]` where the spec leaves it unspecified (10_state.md R26), by draw and `i`. -/
opaque Config.freeRdev : Nat → Nat → Chr

/-- Free value: `OUTBUF[i]` at and beyond `OLEN` (20_memory.md R55), by `outSeed` and `i`. -/
opaque Config.freeOut : Nat → Nat → Chr

/-- Free value: what a never-written operand character holds for a host read (10_state.md R38), by `memSeed`, space
number and index. -/
opaque Config.powerUpChar : Nat → Nat → Nat → Chr

/-- Free value: what an unspecified register read returns (10_state.md R31, 43_command_interface.md R178), by draw and
register number; the reader cuts it to the register's width. -/
opaque Config.freeReg : Nat → Nat → Nat

/-- Free value: what an unspecified buffer read returns (20_memory.md R50, 43_command_interface.md R178), by draw. -/
opaque Config.freeChar : Nat → Chr

/-- Free value: how many pending host actions are served while a command is `BUSY` (70_reset_and_hazards.md R230:
finite, not specified, may differ between runs), by draw. -/
opaque Config.busyTime : Nat → Nat

/-- Free value: `POS` after a command (10_state.md R24: not host-visible). -/
opaque Config.freePos : Nat → Nat

/-- Free value: `KIDX` after a command (10_state.md R23: not host-visible). -/
opaque Config.freeKidx : Nat → Nat

/-- Free value: `BITCNT` after a command (10_state.md R25: not host-visible). -/
opaque Config.freeBitcnt : Nat → BitVec 3

/-- Free value: `HNIB` after a command (10_state.md R25: not host-visible). -/
opaque Config.freeHnib : Nat → Nibble

end Sys2Proof
end

