-- ==== Sys2Proof/Syntax.lean ====
section
/-!
DEFINITION. The commands: one constructor per row of spec/opcode_table.json (30_encoding.md R72, R90), and the fields of
the one command format C (R71).  A command carries no operand and no immediate (R70): every operand is in a buffer or a
length register.
-/

namespace Sys2Proof

/-- The six legal command words. -/
inductive Instr where
  /-- `XENC`, `encryptToHex(text, key)` (40_cipher.md R105). -/
  | xenc
  /-- `XDEC`, `decryptFromHex(hex, key)` (40_cipher.md R106). -/
  | xdec
  /-- `CRC16`, `crc16(data)` (41_checksum.md R125). -/
  | crc16
  /-- `BUILD`, `buildPacket(deviceId, version, plaintext, key)` (42_framer.md R150). -/
  | build
  /-- `BUILD.S`, `BUILD` with the strict-mode modifier `S = 1` (42_framer.md R151). -/
  | buildS
  /-- `PARSE`, `parsePacket(packet, key)` (42_framer.md R152). -/
  | parse
  deriving DecidableEq, Repr

/-- The fields of the command word, format C (30_encoding.md R71). -/
structure CmdFields where
  /-- Bits 7:4, reserved. -/
  reserved : BitVec 4
  /-- Bit 3, `S`, the strict-mode modifier. -/
  s : BitVec 1
  /-- Bits 2:0, `OP`, the operation number. -/
  op : BitVec 3
  deriving DecidableEq, Repr

end Sys2Proof
end

