-- ==== Sys2Proof/WellFormed.lean ====
section
/-!
DEFINITION. Well-formedness: of the fields of a command word (30_encoding.md R71, R73), of a command (R70: it has no
operand, so nothing can be wrong with one), and of the capacities (00_scope.md R9).
-/

namespace Sys2Proof

/-- R71: bits 7:4 "must be 0; any other value makes the word illegal". -/
def CmdFields.reservedOk (f : CmdFields) : Bool := f.reserved == 0

/-- R71: `S` "may be 1 only with `OP = 4` (`BUILD`)". -/
def CmdFields.strictOk (f : CmdFields) : Bool := f.s == 0 || f.op == 4

/-- R73: a word is illegal when "`OP` is 0, 6 or 7". -/
def CmdFields.opOk (f : CmdFields) : Bool := f.op != 0 && f.op != 6 && f.op != 7

/-- The fields of a legal command word. -/
def CmdFields.wellFormed (f : CmdFields) : Bool := f.reservedOk && f.strictOk && f.opOk

/-- The fields a command's word has (the rows of R72). -/
def Instr.fields : Instr → CmdFields
  | .xenc => { reserved := 0, s := 0, op := 1 }
  | .xdec => { reserved := 0, s := 0, op := 2 }
  | .crc16 => { reserved := 0, s := 0, op := 3 }
  | .build => { reserved := 0, s := 0, op := 4 }
  | .buildS => { reserved := 0, s := 1, op := 4 }
  | .parse => { reserved := 0, s := 0, op := 5 }

/-- A command is well formed when the fields of its word are. -/
def Instr.wellFormed (i : Instr) : Bool := i.fields.wellFormed

/-- R9: `KEY_MAX` is "at least 1; at least 19 to hold WM's reference key"; the first is the constraint. -/
def Caps.keyMaxOk (c : Caps) : Bool := decide (1 ≤ c.keyMax)

/-- R9: `IN_MAX` is "at least 26". -/
def Caps.inMaxOk (c : Caps) : Bool := decide (26 ≤ c.inMax)

/-- R9: `VER_MAX` is "at least 1". -/
def Caps.verMaxOk (c : Caps) : Bool := decide (1 ≤ c.verMax)

/-- R9: `DEV_MAX` is "at least 16". -/
def Caps.devMaxOk (c : Caps) : Bool := decide (16 ≤ c.devMax)

/-- R9: `OUT_MAX` is at least `7 + VER_MAX + DEV_MAX + 2*IN_MAX`. -/
def Caps.outMaxOk (c : Caps) : Bool := decide (7 + c.verMax + c.devMax + 2 * c.inMax ≤ c.outMax)

/-- R9: `LEN_W` is at least `ceil(log2(OUT_MAX + 1))`, which says `OUT_MAX < 2 ^ LEN_W`. -/
def Caps.lenWOk (c : Caps) : Bool := decide (c.outMax < 2 ^ c.lenW)

/-- All the constraints of R9. -/
def Caps.wellFormed (c : Caps) : Bool :=
  c.keyMaxOk && c.inMaxOk && c.verMaxOk && c.devMaxOk && c.outMaxOk && c.lenWOk

end Sys2Proof
end

