-- ==== Sys2Proof/Decode.lean ====
section
/-!
DEFINITION. The decoder of the 8-bit command word (30_encoding.md R70 to R73, R90), total, rejecting by name, and the
encoder.
-/

namespace Sys2Proof

/-- Why a word is illegal (30_encoding.md R73).  Where several hold, the first in this order is named; the block itself
does not tell them apart: each ends with `BadCommand`. -/
inductive Illegal where
  /-- "any of bits 7:4 is 1". -/
  | reservedBits
  /-- "`OP` is 0, 6 or 7". -/
  | noOperation
  /-- "`S = 1` with `OP` other than 4". -/
  | strictWithoutBuild
  deriving DecidableEq, Repr

/-- One row of the opcode table: a word `w` is the row's when `w & mask = pattern` (R72). -/
structure OpcodeRow where
  instr : Instr
  pattern : BitVec 8
  mask : BitVec 8
  deriving DecidableEq, Repr

/-- The six rows of spec/opcode_table.json (R72, R90). -/
def opcodeTable : List OpcodeRow :=
  [ { instr := .xenc,   pattern := 0x01, mask := 0xFF },
    { instr := .xdec,   pattern := 0x02, mask := 0xFF },
    { instr := .crc16,  pattern := 0x03, mask := 0xFF },
    { instr := .build,  pattern := 0x04, mask := 0xFF },
    { instr := .buildS, pattern := 0x0C, mask := 0xFF },
    { instr := .parse,  pattern := 0x05, mask := 0xFF } ]

/-- The fields of a command word (R71). -/
def cmdFields (w : BitVec 8) : CmdFields :=
  { reserved := w.extractLsb' 4 4, s := w.extractLsb' 3 1, op := w.extractLsb' 0 3 }

/-- The name of what is wrong with a word that no row matches (R73). -/
def illegalReason (w : BitVec 8) : Illegal :=
  if (cmdFields w).reservedOk = false then .reservedBits
  else if (cmdFields w).opOk = false then .noOperation
  else .strictWithoutBuild

/-- The decoder of R72: "A decoder tests `(word & mask) == match` for each row; at most one row matches". -/
def decode (w : BitVec 8) : Except Illegal Instr :=
  match opcodeTable.find? (fun r => w &&& r.mask == r.pattern) with
  | some r => .ok r.instr
  | none => .error (illegalReason w)

/-- The word of a command, as the pattern strings of R72 write it, bit 7 first. -/
def encode : Instr → BitVec 8
  | .xenc => 0b00000001#8
  | .xdec => 0b00000010#8
  | .crc16 => 0b00000011#8
  | .build => 0b00000100#8
  | .buildS => 0b00001100#8
  | .parse => 0b00000101#8

/-- The instruction the decoder reads from a table word of `nbits` bits whose value is `w`: the first (and only) word is
the low 8 bits of what `nbits` leaves of `w` (every instruction is one 8-bit word, R70). -/
def decodeTableWord (nbits w : Nat) : Option Instr :=
  match decode (BitVec.ofNat 8 (w % 2 ^ nbits)) with
  | .ok i => some i
  | .error _ => none

end Sys2Proof
end

