-- ==== Sys2Proof/Machine/State.lean ====
section
/-!
DEFINITION. The state of one block (10_state.md R21), the reasons a step can stop, and the state after reset (R38).
Plain data: no field holds a function.
-/

namespace Sys2Proof.Machine

/-- A buffer space's contents: index and character pairs, indexes strictly rising (`Memory.wf` in Ops.lean).  An index
that is not listed holds no value that anything has written: the engine's read of one is a fault, a host's read of one
gives a free value (notes/assumptions/4.md and 5.md). -/
abbrev Memory := List Host.Cell

/-- The error kinds, with their codes in `ErrKind.code` (60_exceptions.md R191 to R197). -/
inductive ErrKind where
  | invalidKey
  | malformedInput
  | tooShort
  | badHeader
  | checksumMismatch
  | invalidField
  | badCommand
  deriving DecidableEq, Repr

/-- The sequencer `SEQ` (10_state.md R24, 42_framer.md R153): which command is running and at which of its numbered
steps.  `start` is the step before every command, where the checks of 43_command_interface.md R173 and R174 stand
(notes/assumptions/17.md). -/
inductive Seq where
  | idle
  | start
  | xenc
  | xdec
  | crc16
  | b0
  | b1
  | b2
  | b3
  | b4
  | p1
  | p2
  | p3
  | p4
  | p5
  | p6
  | p7
  deriving DecidableEq, Repr

/-- What the outside world does to the block: the four host actions and a look at the output `done`
(43_command_interface.md R170), the two pseudo-operations of host programs whose expansion depends on what the block answers (30_encoding.md R88, R89), and the
reset event (70_reset_and_hazards.md R220). -/
inductive Input where
  /-- `HWR(n, v)`: write value `v` to register number `n`. -/
  | hwr (n v : Nat)
  /-- `HRD(n)`: read register number `n`. -/
  | hrd (n : Nat)
  /-- `BWR(X, i, v)`: write character `v` to index `i` of space `X`. -/
  | bwr (x : Space) (i : Nat) (v : Chr)
  /-- `BRD(X, i)`: read the character at index `i` of space `X`. -/
  | brd (x : Space) (i : Nat)
  /-- `WAIT`: read `STATUS` until `ST` is not `BUSY`. -/
  | wait
  /-- `MOVOI`: copy `OUTBUF[0..OLEN-1]` to `INBUF` and `ILEN <- OLEN`, with reads and writes. -/
  | movoi
  /-- The host looks at the output `done` (notes/assumptions/23.md). -/
  | watchDone
  /-- `rst` asserted and released. -/
  | rst
  deriving DecidableEq, Repr

/-- The state of one block, with the capacities it is built with and the model's own fields. -/
structure State where
  /-- The capacities of 00_scope.md R9; no step changes them (notes/assumptions/1.md). -/
  caps : Caps
  /-- `CMD`, register 0 (R28). -/
  cmd : BitVec 8
  /-- `STATUS`, register 1 (R29): `ST` in bits 1:0, `CSOK` in bit 2. -/
  status : BitVec 3
  /-- `ERR`, register 2 (R30). -/
  err : BitVec 3
  /-- `KLEN`, register 3 (R27). -/
  klen : Nat
  /-- `ILEN`, register 4 (R27). -/
  ilen : Nat
  /-- `VLEN`, register 5 (R27). -/
  vlen : Nat
  /-- `DLEN`, register 6 (R27). -/
  dlen : Nat
  /-- `OLEN`, register 7 (R27). -/
  olen : Nat
  /-- `CRC`, register 8 (R22). -/
  crc : CrcWord
  /-- `RDEV[0..15]`, registers 16 to 31 (R26). -/
  rdev : Vector Chr 16
  /-- `KEYMEM` (20_memory.md R51). -/
  keymem : Memory
  /-- `INBUF` (R52). -/
  inbuf : Memory
  /-- `VERBUF` (R53). -/
  verbuf : Memory
  /-- `DEVBUF` (R53). -/
  devbuf : Memory
  /-- `OUTBUF` (R54). -/
  outbuf : Memory
  /-- `SEQ` (R24). -/
  seq : Seq
  /-- `POS` (R24). -/
  pos : Nat
  /-- `KIDX` (R23). -/
  kidx : Nat
  /-- `BITCNT` (R25). -/
  bitcnt : BitVec 3
  /-- `HNIB` (R25). -/
  hnib : Nibble
  /-- The model's own: pending host actions and reset events, oldest first (notes/assumptions/9.md). -/
  inputs : List Input
  /-- The model's own: what the last host read returned (notes/assumptions/10.md). -/
  rdata : Nat
  /-- The model's own: the host has observed that the last command ended (43_command_interface.md R177,
notes/assumptions/23.md). -/
  observed : Bool
  /-- The model's own: while `BUSY`, how many pending inputs at most are still served before the engine completes
  (notes/assumptions/8.md). -/
  busyLeft : Nat
  /-- The model's own: the counter the free values are drawn with (notes/assumptions/6.md). -/
  draws : Nat
  /-- The model's own: selects the unspecified contents of `OUTBUF` (notes/assumptions/5.md). -/
  outSeed : Nat
  /-- The model's own: selects the unspecified contents of never-written operand characters (notes/assumptions/5.md). -/
  memSeed : Nat
  deriving DecidableEq, Repr

/-- Where the model stops. -/
inductive Fault where
  /-- The engine read index `i` of operand space `x`, below the declared length, and the host has never written it since
  reset.  Raised by every command's operand reads (`State.readChar`).  70_reset_and_hazards.md R223: "a model should treat
  reading a never-written character as a fault of the host program".  Safe: the model stops where the hardware goes on
  with an unspecified value (notes/assumptions/4.md). -/
  | unwrittenChar (x : Space) (i : Nat)
  deriving DecidableEq, Repr

/-- No meaning for the instruction. -/
inductive Refusal where
  /-- The instruction of that mnemonic has no meaning yet.  Raised by `exec`'s arms only; safe.  No arm raises it. -/
  | notModelled (mnemonic : String)
  deriving DecidableEq, Repr

/-- The block right after reset, built with capacities `c` (10_state.md R38).  `RDEV`, `POS`, `KIDX`, `BITCNT` and `HNIB`
are "unspecified" there: DESIGN CHOICE zeros (notes/assumptions/3.md).  The buffers list nothing (notes/assumptions/4.md). -/
def State.resetWith (c : Caps) : State :=
  { caps := c
    cmd := 0
    status := 0
    err := 0
    klen := 0
    ilen := 0
    vlen := 0
    dlen := 0
    olen := 0
    crc := 0
    rdev := Vector.replicate 16 0
    keymem := []
    inbuf := []
    verbuf := []
    devbuf := []
    outbuf := []
    seq := .idle
    pos := 0
    kidx := 0
    bitcnt := 0
    hnib := 0
    inputs := []
    rdata := 0
    observed := false
    busyLeft := 0
    draws := 0
    outSeed := 0
    memSeed := 0 }

/-- The machine right after reset (10_state.md R38), with the capacities of `Config.caps` (notes/assumptions/2.md). -/
def State.reset : State := State.resetWith Config.caps

end Sys2Proof.Machine
end

