-- ==== Sys2Proof/Machine/Constants.lean ====
section
/-!
DEFINITION. The constants of 00_scope.md R8 ("These are not parameters; a model hard-codes them") and the register numbers
of 10_state.md R31.
-/

namespace Sys2Proof.Machine

/-- `POLY` (R8): the reflected CRC polynomial. -/
def poly : CrcWord := 0xA001

/-- `CRC_INIT` (R8): the CRC register at the start of every checksum. -/
def crcInit : CrcWord := 0x0000

/-- `HDR` (R8): the characters `W`, `I`, `M` (codes of 30_encoding.md R74). -/
def hdr : List Chr := [0x57, 0x49, 0x4D]

/-- `HDR_LEN` (R8). -/
def hdrLen : Nat := 3

/-- `VER_LEN` (R8). -/
def verLen : Nat := 1

/-- `DEV_LEN` (R8). -/
def devLen : Nat := 16

/-- The offset of the device id in a parsed packet (30_encoding.md R82). -/
def devOff : Nat := 4

/-- `CHK_LEN` (R8). -/
def chkLen : Nat := 4

/-- `PAYLOAD_OFF` (R8). -/
def payloadOff : Nat := 20

/-- `MIN_PKT_LEN` (R8, 90_conflicts.md C1). -/
def minPktLen : Nat := 26

/-- The characters of a parsed packet outside its payload: `L - 24` is the payload's length (30_encoding.md R82). -/
def framing : Nat := 24

/-- Register numbers (10_state.md R31). -/
def regCmd : Nat := 0
/-- R31. -/
def regStatus : Nat := 1
/-- R31. -/
def regErr : Nat := 2
/-- R31. -/
def regKlen : Nat := 3
/-- R31. -/
def regIlen : Nat := 4
/-- R31. -/
def regVlen : Nat := 5
/-- R31. -/
def regDlen : Nat := 6
/-- R31. -/
def regOlen : Nat := 7
/-- R31. -/
def regCrc : Nat := 8
/-- R31: `RDEV[i]` is register `16 + i`. -/
def regRdev : Nat := 16

end Sys2Proof.Machine
end

