-- ==== Sys2Proof/Machine/Flags.lean ====
section
/-!
DEFINITION. The status flags: `STATUS.ST`, `STATUS.CSOK`, the codes of `ERR`, and the output `done`
(10_state.md R29, R30, R34; 43_command_interface.md R170).  They are the block's only flags: it has no arithmetic
condition codes (R34).
-/

namespace Sys2Proof.Machine

/-- `ST = 0`: no command has been started since reset (R29). -/
def stIdle : BitVec 2 := 0
/-- `ST = 1`: a command is running (R29). -/
def stBusy : BitVec 2 := 1
/-- `ST = 2`: the last command ended with success (R29). -/
def stDoneOk : BitVec 2 := 2
/-- `ST = 3`: the last command ended with an error (R29). -/
def stDoneErr : BitVec 2 := 3

/-- The `STATUS` word with fields `CSOK` (bit 2) and `ST` (bits 1:0) (R29). -/
def statusWord (csok : Bool) (st : BitVec 2) : BitVec 3 := BitVec.ofBool csok ++ st

/-- `STATUS.ST` (R29). -/
def State.st (s : State) : BitVec 2 := s.status.extractLsb' 0 2

/-- `STATUS.CSOK` (R29). -/
def State.csok (s : State) : Bool := s.status.getLsbD 2

/-- `ST = BUSY`. -/
def State.busy (s : State) : Bool := s.st == stBusy

/-- The output `done` (43_command_interface.md R170): 1 exactly while `ST` is `DONE_OK` or `DONE_ERR`. -/
def State.done (s : State) : Bool := s.st == stDoneOk || s.st == stDoneErr

/-- The last command has ended and the host has not observed it: neither a `STATUS` read nor the output `done` has told it
(43_command_interface.md R177).  A result read now is unspecified (93_implementation_defined.md U6). -/
def State.unobserved (s : State) : Bool := s.done && !s.observed

/-- The code of an error kind in `ERR` (R30, 60_exceptions.md R191 to R197); 0 is `None`. -/
def ErrKind.code : ErrKind → BitVec 3
  | .invalidKey => 1
  | .malformedInput => 2
  | .tooShort => 3
  | .badHeader => 4
  | .checksumMismatch => 5
  | .invalidField => 6
  | .badCommand => 7

end Sys2Proof.Machine
end

