-- ==== Sys2Proof/Machine/Ops.lean ====
section
/-!
DEFINITION. The named operations over memory and registers: character reads and writes, the start of a command
(43_command_interface.md R171), its successful completion (R172, R176), its error entry (60_exceptions.md R200), and the
reset event (70_reset_and_hazards.md R220).  There is no return from an error (R202).
-/

namespace Sys2Proof.Machine

/-! ### Buffer contents -/

/-- The canonical form: indexes strictly rising. -/
abbrev Memory.wf (m : Memory) : Prop := m.Pairwise (fun a b => a.1 < b.1)

/-- The canonical form, and every index below the capacity `cap` (20_memory.md R50). -/
abbrev Memory.fits (m : Memory) (cap : Nat) : Prop := Memory.wf m ∧ ∀ c ∈ m, c.1 < cap

/-- `MemRead(X + i, 1)` of one space: the character at index `i`, or none where nothing has been written. -/
def Memory.read : Memory → Nat → Option Chr
  | [], _ => none
  | (a, c) :: rest, i => if a = i then some c else Memory.read rest i

/-- `MemWrite(X + i, 1, v)` of one space, keeping the canonical form. -/
def Memory.write : Memory → Nat → Chr → Memory
  | [], i, v => [(i, v)]
  | (a, c) :: rest, i, v =>
    if i < a then (i, v) :: (a, c) :: rest
    else if i = a then (i, v) :: rest
    else (a, c) :: Memory.write rest i v

/-- A string written from index `i` on, its first character at the lowest index (20_memory.md R57). -/
def Memory.ofStringAt : Nat → List Chr → Memory
  | _, [] => []
  | i, c :: cs => (i, c) :: Memory.ofStringAt (i + 1) cs

/-- A string stored from index 0. -/
def Memory.ofString (str : List Chr) : Memory := Memory.ofStringAt 0 str

/-- The memory holds the string `str` in its indexes from 0 (R57): "a string is exactly the first `len` characters of its
buffer" (10_state.md R27). -/
abbrev Memory.Holds (m : Memory) (str : List Chr) : Prop := ∀ i, i < str.length → Memory.read m i = str[i]?

/-- The contents of a space. -/
def State.buf (s : State) : Space → Memory
  | .keymem => s.keymem
  | .inbuf => s.inbuf
  | .verbuf => s.verbuf
  | .devbuf => s.devbuf
  | .outbuf => s.outbuf

/-- The length register of a space (10_state.md R27). -/
def State.len (s : State) : Space → Nat
  | .keymem => s.klen
  | .inbuf => s.ilen
  | .verbuf => s.vlen
  | .devbuf => s.dlen
  | .outbuf => s.olen

/-- One character written to one space; the other spaces keep theirs (20_memory.md R50). -/
def State.writeBuf (s : State) (x : Space) (i : Nat) (v : Chr) : State :=
  match x with
  | .keymem => { s with keymem := Memory.write s.keymem i v }
  | .inbuf => { s with inbuf := Memory.write s.inbuf i v }
  | .verbuf => { s with verbuf := Memory.write s.verbuf i v }
  | .devbuf => { s with devbuf := Memory.write s.devbuf i v }
  | .outbuf => { s with outbuf := Memory.write s.outbuf i v }

/-! ### How an operation ends early -/

/-- Why a command's operation stops before its end: it raises an error kind (00_scope.md R14), or the model faults. -/
inductive Stop where
  | raise (k : ErrKind)
  | fault (f : Fault)
  deriving DecidableEq, Repr

/-- The engine's read of one operand character (20_memory.md R55).  A never-written one is a fault of the host program
(70_reset_and_hazards.md R223, notes/assumptions/4.md). -/
def State.readChar (s : State) (x : Space) (i : Nat) : Except Stop Chr :=
  match Memory.read (s.buf x) i with
  | some c => .ok c
  | none => .error (.fault (.unwrittenChar x i))

/-! ### Start, completion, error entry, reset -/

/-- Sixteen free values for `RDEV` (10_state.md R26). -/
def freeRdev (d : Nat) : Vector Chr 16 := Vector.ofFn (fun i => Config.freeRdev d i.val)

/-- The working registers, which "carry nothing from one command to the next" (10_state.md R24, R25, R36), and the result
spaces, made unspecified: `CRC`, `RDEV` and `OUTBUF` (43_command_interface.md R171, 60_exceptions.md R200).  With the start
of a command and with its end what the host has observed before is out of date (R177). -/
def State.unspecify (s : State) : State :=
  { s with
    crc := Config.freeCrc s.draws
    rdev := freeRdev s.draws
    outbuf := []
    outSeed := s.draws
    pos := Config.freePos s.draws
    kidx := Config.freeKidx s.draws
    bitcnt := Config.freeBitcnt s.draws
    hnib := Config.freeHnib s.draws
    draws := s.draws + 1
    observed := false }

/-- Starting a command (43_command_interface.md R171): "`CMD <- w`; `STATUS.ST <- BUSY`; `STATUS.CSOK <- 0`; `ERR <- 0`;
`OLEN <- 0`.  From this moment the results of the previous command (`OUTBUF`, `RDEV`, `CRC`) are unspecified". -/
def State.startCommand (s : State) (w : BitVec 8) : State :=
  { s.unspecify with
    cmd := w
    status := statusWord false stBusy
    err := 0
    olen := 0
    seq := .start
    busyLeft := Config.busyTime s.draws }

/-- What a command that ends with success leaves (43_command_interface.md R172, R176): the string result in
`OUTBUF[0 .. OLEN-1]`, and `CRC`, `RDEV` where the command produces them.  A component it does not produce is unspecified,
"not the old value" (93_implementation_defined.md U4). -/
structure Result where
  /-- The string result, from `OUTBUF[0]`. -/
  out : List Chr
  /-- The value of `OLEN`. -/
  olen : Nat
  /-- The value of `CRC`, for a command that computes one. -/
  crc : Option CrcWord
  /-- The value of `RDEV`, for `PARSE`. -/
  rdev : Option (Vector Chr 16)
  /-- The value of `CSOK` (10_state.md R29). -/
  csok : Bool
  deriving DecidableEq, Repr

/-- Completion with success (43_command_interface.md R172). -/
def State.complete (s : State) (r : Result) : State :=
  { s.unspecify with
    outbuf := Memory.ofString r.out
    olen := r.olen
    crc := r.crc.getD (Config.freeCrc s.draws)
    rdev := r.rdev.getD (freeRdev s.draws)
    err := 0
    status := statusWord r.csok stDoneOk
    seq := .idle
    busyLeft := 0 }

/-- TAKING AN ERROR (60_exceptions.md R200): "`OLEN <- 0`; `STATUS.CSOK <- 0`; `ERR <- n`; and last
`STATUS.ST <- DONE_ERR`.  The contents of `OUTBUF`, `RDEV` and `CRC` are unspecified from then on". -/
def State.raiseError (s : State) (k : ErrKind) : State :=
  { s.unspecify with
    olen := 0
    err := k.code
    status := statusWord false stDoneErr
    seq := .idle
    busyLeft := 0 }

/-- How a command ends: with its result, with the error entry, or with the model's fault. -/
def State.conclude (s : State) : Except Stop Result → Host.Outcome State Fault Refusal
  | .ok r => .next (s.complete r)
  | .error (.raise k) => .next (s.raiseError k)
  | .error (.fault f) => .fault f

/-- The reset event (70_reset_and_hazards.md R220): the values of 10_state.md R38; what is unspecified there is a free
value here.  The capacities, the host's later actions and what the host has read are no state of the block. -/
def State.resetEvent (s : State) : State :=
  { State.resetWith s.caps with
    rdev := freeRdev s.draws
    pos := Config.freePos s.draws
    kidx := Config.freeKidx s.draws
    bitcnt := Config.freeBitcnt s.draws
    hnib := Config.freeHnib s.draws
    inputs := s.inputs
    rdata := s.rdata
    draws := s.draws + 1
    outSeed := s.draws
    memSeed := s.draws }

/-! ### The length-range check -/

/-- 43_command_interface.md R174: the lengths a command uses are within the capacities.  "A length equal to the capacity
is legal". -/
def lengthsInRange (s : State) : Instr → Bool
  | .xenc => decide (s.ilen ≤ s.caps.inMax) && decide (s.klen ≤ s.caps.keyMax)
  | .xdec => decide (s.ilen ≤ s.caps.inMax) && decide (s.klen ≤ s.caps.keyMax)
  | .crc16 => decide (s.ilen ≤ s.caps.inMax)
  | .build =>
    decide (s.ilen ≤ s.caps.inMax) && decide (s.klen ≤ s.caps.keyMax) &&
      decide (s.vlen ≤ s.caps.verMax) && decide (s.dlen ≤ s.caps.devMax)
  | .buildS =>
    decide (s.ilen ≤ s.caps.inMax) && decide (s.klen ≤ s.caps.keyMax) &&
      decide (s.vlen ≤ s.caps.verMax) && decide (s.dlen ≤ s.caps.devMax)
  | .parse => decide (s.ilen ≤ s.caps.inMax) && decide (s.klen ≤ s.caps.keyMax)

/-- A command (43_command_interface.md R175): the length-range check, then the operation proper. -/
def runCommand (i : Instr) (s : State) (operation : Except Stop Result) : Host.Outcome State Fault Refusal :=
  if lengthsInRange s i then s.conclude operation else .next (s.raiseError .badCommand)

end Sys2Proof.Machine
end

