-- ==== Sys2Proof/Machine/Operands.lean ====
section
/-!
DEFINITION. The operand forms: hex text, checksum text, case folding (30_encoding.md R75 to R80), and reading a string of
characters from a buffer space (00_scope.md R13).
-/

namespace Sys2Proof.Machine

/-- `fold(c)` (30_encoding.md R75): a lowercase ASCII letter becomes its capital, every other character stays. -/
def fold (c : Chr) : Chr := if 0x61 ≤ c ∧ c ≤ 0x7A then c - 0x20 else c

/-- `hexdig(n)` (30_encoding.md R76): capitals only. -/
def hexdig (n : Nibble) : Chr :=
  if n ≤ 9 then 0x30 + n.setWidth 8 else 0x41 + (n.setWidth 8 - 10)

/-- `hexval(c)` (30_encoding.md R77): `none` is `invalid`. -/
def hexval (c : Chr) : Option Nibble :=
  if 0x30 ≤ c ∧ c ≤ 0x39 then some ((c - 0x30).setWidth 4)
  else if 0x41 ≤ c ∧ c ≤ 0x46 then some ((c - 0x41 + 10).setWidth 4)
  else if 0x61 ≤ c ∧ c ≤ 0x66 then some ((c - 0x61 + 10).setWidth 4)
  else none

/-- `b[7:4]` (00_scope.md R11). -/
def hiNibble (b : Chr) : Nibble := b.extractLsb' 4 4

/-- `b[3:0]` (00_scope.md R11). -/
def loNibble (b : Chr) : Nibble := b.extractLsb' 0 4

/-- `pair(b)` (30_encoding.md R78): the high digit first (20_memory.md R58). -/
def pair (b : Chr) : List Chr := [hexdig (hiNibble b), hexdig (loNibble b)]

/-- `byte(c0, c1) = {hexval(c0), hexval(c1)}` (30_encoding.md R78), "defined only when both digits are valid". -/
def hexByte (c0 c1 : Chr) : Option Chr :=
  match hexval c0, hexval c1 with
  | some h, some l => some (h ++ l)
  | _, _ => none

/-- The hex text of a byte string (30_encoding.md R79). -/
def hexText (d : List Chr) : List Chr := d.flatMap pair

/-- `TOHEX4(v)` (30_encoding.md R80, 41_checksum.md R128). -/
def toHex4 (v : CrcWord) : List Chr :=
  [hexdig (v.extractLsb' 12 4), hexdig (v.extractLsb' 8 4), hexdig (v.extractLsb' 4 4), hexdig (v.extractLsb' 0 4)]

/-- The string of `n` characters of space `x` from index `i` on, read in ascending order (00_scope.md R13 `INSTR`). -/
def readSpan (s : State) (x : Space) : (n i : Nat) → Except Stop (List Chr)
  | 0, _ => .ok []
  | n + 1, i => do
    let c ← s.readChar x i
    let rest ← readSpan s x n (i + 1)
    return c :: rest

end Sys2Proof.Machine
end

