-- ==== Sys2Proof/Machine/Checksum.lean ====
section
/-!
DEFINITION. Unit `CSUM` (41_checksum.md): the primitives `CRCBIT`, `CRCBYTE`, `CRCSTR`, the bit-serial and table forms the
spec proves equivalent to them, and the command `CRC16`.
-/

namespace Sys2Proof.Machine

/-- `CRCBIT` (41_checksum.md R121): "The test is on the old bit 0, made before the shift". -/
def crcBit (x : CrcWord) : CrcWord := if x.getLsbD 0 then (x >>> 1) ^^^ poly else x >>> 1

/-- `n` applications of `CRCBIT`. -/
def crcBits : Nat → CrcWord → CrcWord
  | 0, x => x
  | n + 1, x => crcBits n (crcBit x)

/-- `CRCBYTE(c)` (41_checksum.md R123): `crcbyte(x, c) = crcbit^8(x ^ zext_16(c))`. -/
def crcByte (x : CrcWord) (c : Chr) : CrcWord := crcBits 8 (x ^^^ c.setWidth 16)

/-- `CRCSTR` on a string (41_checksum.md R126): "a left fold of `crcbyte` from `0x0000`". -/
def crcStr (str : List Chr) : CrcWord := str.foldl crcByte crcInit

/-- `CRCSTR` over `n` characters of `INBUF` from index `i` on, from register value `x`. -/
def crcPass (s : State) : (n i : Nat) → (x : CrcWord) → Except Stop CrcWord
  | 0, _, x => .ok x
  | n + 1, i, x => do
    let c ← s.readChar .inbuf i
    crcPass s n (i + 1) (crcByte x c)

/-- One data bit of the bit-serial form (41_checksum.md R124): `f <- CRC[0] ^ d; CRC <- CRC >> 1; if f = 1 then
CRC <- CRC ^ 0xA001`. -/
def crcSerialBit (x : CrcWord) (d : Bool) : CrcWord :=
  if x.getLsbD 0 != d then (x >>> 1) ^^^ poly else x >>> 1

/-- The bit-serial form of `CRCBYTE` (41_checksum.md R124): the character's bits, least significant first. -/
def crcSerialByte (x : CrcWord) (c : Chr) : CrcWord :=
  [c.getLsbD 0, c.getLsbD 1, c.getLsbD 2, c.getLsbD 3, c.getLsbD 4, c.getLsbD 5, c.getLsbD 6, c.getLsbD 7].foldl crcSerialBit x

/-- The table of the table-driven form (41_checksum.md R131): `T[n] = crcbyte(0x0000, n)`. -/
def crcTable (n : Chr) : CrcWord := crcByte 0x0000 n

/-- The table-driven form of `CRCBYTE` (41_checksum.md R131): `(x >> 8) ^ T[(x ^ c)[7:0]]`. -/
def crcTableByte (x : CrcWord) (c : Chr) : CrcWord :=
  (x >>> 8) ^^^ crcTable ((x ^^^ c.setWidth 16).extractLsb' 0 8)

/-- The operation of `CRC16` (41_checksum.md R125): "The key is not used and `KLEN` is not checked". -/
def crc16Operation (s : State) : Except Stop Result := do
  let v ← crcPass s s.ilen 0 crcInit
  return { out := [], olen := 0, crc := some v, rdev := none, csok := false }

/-- Command `CRC16` (41_checksum.md R125). -/
def execCrc16 (s : State) : Host.Outcome State Fault Refusal := runCommand .crc16 s (crc16Operation s)

end Sys2Proof.Machine
end

