-- ==== Sys2Proof/Machine/Cipher.lean ====
section
/-!
DEFINITION. Unit `CIPH` (40_cipher.md): the primitives `XORB`, `HEXDEC`, the validators `KEYCHK`, `PAIRCHK`, `DIGCHK`, the
two directions of a cipher pass, and the commands `XENC` and `XDEC`.
-/

namespace Sys2Proof.Machine

/-- `XORB(a, b)` (40_cipher.md R101). -/
def xorb (a b : Chr) : Chr := a ^^^ b

/-- `KEYCHK` (40_cipher.md R104). -/
def keychk (s : State) : Except Stop Unit :=
  if s.klen = 0 then .error (.raise .invalidKey) else .ok ()

/-- `PAIRCHK(n)` (40_cipher.md R107). -/
def pairchk (n : Nat) : Except Stop Unit :=
  if n % 2 = 1 then .error (.raise .malformedInput) else .ok ()

/-- `DIGCHK(c)` with the digit's value (40_cipher.md R109). -/
def digchk (c : Chr) : Except Stop Nibble :=
  match hexval c with
  | some v => .ok v
  | none => .error (.raise .malformedInput)

/-- `HEXDEC(c0, c1)` (40_cipher.md R103): `{h, l}` with `h` in bits 7:4. -/
def hexdec (c0 c1 : Chr) : Except Stop Chr := do
  let h ← digchk c0
  let l ← digchk c1
  return h ++ l

/-- `KIDX <- (KIDX + 1 = KLEN) ? 0 : KIDX + 1` (40_cipher.md R105). -/
def nextKidx (klen kidx : Nat) : Nat := if kidx + 1 = klen then 0 else kidx + 1

/-- The encode loop of 40_cipher.md R105 and 42_framer.md R150: `n` characters from `INBUF + i` on, the first combined with
`KEYMEM[kidx]`; the text it writes, two digits a character. -/
def encPass (s : State) : (n i kidx : Nat) → Except Stop (List Chr)
  | 0, _, _ => .ok []
  | n + 1, i, kidx => do
    let t ← s.readChar .inbuf i
    let k ← s.readChar .keymem kidx
    let rest ← encPass s n (i + 1) (nextKidx s.klen kidx)
    return pair (xorb t k) ++ rest

/-- The decode loop of 40_cipher.md R106 and 42_framer.md R152 step 6: `n` pairs from `INBUF + p` on, the first combined
with `KEYMEM[kidx]`; the characters it writes, one a pair. -/
def decPass (s : State) : (n p kidx : Nat) → Except Stop (List Chr)
  | 0, _, _ => .ok []
  | n + 1, p, kidx => do
    let c0 ← s.readChar .inbuf p
    let c1 ← s.readChar .inbuf (p + 1)
    let b ← hexdec c0 c1
    let k ← s.readChar .keymem kidx
    let rest ← decPass s n (p + 2) (nextKidx s.klen kidx)
    return xorb b k :: rest

/-- The operation of `XENC` (40_cipher.md R105). -/
def xencOperation (s : State) : Except Stop Result := do
  keychk s
  let out ← encPass s s.ilen 0 0
  return { out := out, olen := 2 * s.ilen, crc := none, rdev := none, csok := false }

/-- The operation of `XDEC` (40_cipher.md R106). -/
def xdecOperation (s : State) : Except Stop Result := do
  keychk s
  pairchk s.ilen
  let out ← decPass s (s.ilen / 2) 0 0
  return { out := out, olen := s.ilen / 2, crc := none, rdev := none, csok := false }

/-- Command `XENC` (40_cipher.md R105). -/
def execXenc (s : State) : Host.Outcome State Fault Refusal := runCommand .xenc s (xencOperation s)

/-- Command `XDEC` (40_cipher.md R106). -/
def execXdec (s : State) : Host.Outcome State Fault Refusal := runCommand .xdec s (xdecOperation s)

end Sys2Proof.Machine
end

