-- ==== Sys2Proof/Machine/Framer.lean ====
section
/-!
DEFINITION. Unit `FRAM` (42_framer.md): the validators `LENCHK`, `HDRCHK`, `CSCHK`, `FLDCHK` and the commands `BUILD`,
`BUILD.S` and `PARSE`.
-/

namespace Sys2Proof.Machine

/-- `FLDCHK` (42_framer.md R147). -/
def fldchk (s : State) : Except Stop Unit :=
  if s.vlen ≠ verLen ∨ s.dlen ≠ devLen then .error (.raise .invalidField) else .ok ()

/-- `LENCHK` (42_framer.md R141). -/
def lenchk (s : State) : Except Stop Unit :=
  if s.ilen < minPktLen then .error (.raise .tooShort) else .ok ()

/-- The characters of `INBUF` from index `i` on are compared one by one with an expected string, after `f`; the first that
differs raises `k`. -/
def compareChars (s : State) (f : Chr → Chr) (k : ErrKind) : (i : Nat) → List Chr → Except Stop Unit
  | _, [] => .ok ()
  | i, e :: es => do
    let c ← s.readChar .inbuf i
    if f c ≠ e then .error (.raise k) else compareChars s f k (i + 1) es

/-- `HDRCHK` (42_framer.md R143): "exact, character by character, case-sensitive". -/
def hdrchk (s : State) : Except Stop Unit := compareChars s (fun c => c) .badHeader 0 hdr

/-- `CSCHK` (42_framer.md R146): `fold(MemRead(INBUF + L - 4 + k, 1))` against `TOHEX4(CRC)[k]`, `k = 0..3`. -/
def cschk (s : State) (v : CrcWord) : Except Stop Unit :=
  compareChars s fold .checksumMismatch (s.ilen - chkLen) (toHex4 v)

/-- The operation of `BUILD` after `FLDCHK` (42_framer.md R150), in the order of R150's pseudocode, which writes the
packet left to right (R148). -/
def buildOperation (s : State) : Except Stop Result := do
  keychk s
  let version ← readSpan s .verbuf s.vlen 0
  let deviceId ← readSpan s .devbuf s.dlen 0
  let payload ← encPass s s.ilen 0 0
  let front := hdr ++ version ++ deviceId ++ payload
  let v := crcStr front
  return { out := front ++ toHex4 v, olen := 7 + s.vlen + s.dlen + 2 * s.ilen, crc := some v, rdev := none, csok := false }

/-- The operation of `BUILD.S` (42_framer.md R151): "`BUILD` with `S = 1`", which has `FLDCHK` at its head. -/
def buildSOperation (s : State) : Except Stop Result := do
  fldchk s
  buildOperation s

/-- The device id of a parsed packet (42_framer.md R152 step 7): `RDEV[i] <- MemRead(INBUF + 4 + i, 1)`, `i = 0..15`. -/
def parseDeviceId (s : State) : Except Stop (Vector Chr 16) := do
  let d ← readSpan s .inbuf devLen devOff
  return Vector.ofFn (fun i => d.getD i.val 0)

/-- The operation of `PARSE` (42_framer.md R152), steps 1 to 7. -/
def parseOperation (s : State) : Except Stop Result := do
  lenchk s
  hdrchk s
  let v ← crcPass s (s.ilen - chkLen) 0 crcInit
  cschk s v
  keychk s
  pairchk (s.ilen - framing)
  let message ← decPass s ((s.ilen - framing) / 2) payloadOff 0
  let deviceId ← parseDeviceId s
  return { out := message, olen := (s.ilen - framing) / 2, crc := some v, rdev := some deviceId, csok := true }

/-- Command `BUILD` (42_framer.md R150, `S = 0`). -/
def execBuild (s : State) : Host.Outcome State Fault Refusal := runCommand .build s (buildOperation s)

/-- Command `BUILD.S` (42_framer.md R151, `S = 1`). -/
def execBuildS (s : State) : Host.Outcome State Fault Refusal := runCommand .buildS s (buildSOperation s)

/-- Command `PARSE` (42_framer.md R152). -/
def execParse (s : State) : Host.Outcome State Fault Refusal := runCommand .parse s (parseOperation s)

end Sys2Proof.Machine
end

