-- ==== Sys2Proof/Machine/Dispatch.lean ====
section
/-!
DEFINITION. What each command does (43_command_interface.md R175): one arm per row of spec/opcode_table.json.
-/

namespace Sys2Proof.Machine

def exec (i : Instr) (s : State) : Host.Outcome State Fault Refusal :=
  match i with
  | .xenc => Sys2Proof.Machine.execXenc s
  | .xdec => Sys2Proof.Machine.execXdec s
  | .crc16 => Sys2Proof.Machine.execCrc16 s
  | .build => Sys2Proof.Machine.execBuild s
  | .buildS => Sys2Proof.Machine.execBuildS s
  | .parse => Sys2Proof.Machine.execParse s

end Sys2Proof.Machine
end

