-- ==== Sys2Proof/Machine/HostPort.lean ====
section
/-!
DEFINITION. The host's side of the block: the four host actions HWR, HRD, BWR, BRD (43_command_interface.md R170), the
register map (10_state.md R31), accesses while `BUSY` (R178), results read before `done` was observed (R177), the
pseudo-operations of host programs (30_encoding.md R88, R89), and the serving of one pending input.
-/

namespace Sys2Proof.Machine

/-! ### Reads -/

/-- The value of register number `n` (10_state.md R31); `none` where no register has that number. -/
def State.regValue (s : State) (n : Nat) : Option Nat :=
  if n = regCmd then some s.cmd.toNat
  else if n = regStatus then some s.status.toNat
  else if n = regErr then some s.err.toNat
  else if n = regKlen then some s.klen
  else if n = regIlen then some s.ilen
  else if n = regVlen then some s.vlen
  else if n = regDlen then some s.dlen
  else if n = regOlen then some s.olen
  else if n = regCrc then some s.crc.toNat
  else if n < regRdev then none
  else (s.rdev[n - regRdev]?).map BitVec.toNat

/-- The width of register number `n` (10_state.md R31). -/
def regWidth (c : Caps) (n : Nat) : Option Nat :=
  if n = regCmd then some 8
  else if n = regStatus ∨ n = regErr then some 3
  else if n = regKlen ∨ n = regIlen ∨ n = regVlen ∨ n = regDlen ∨ n = regOlen then some c.lenW
  else if n = regCrc then some 16
  else if regRdev ≤ n ∧ n < regRdev + devLen then some 8
  else none

/-- A free value of register `n`'s width at draw `d`, or of no stated width where no register has that number. -/
def State.unspecifiedReg (s : State) (d n : Nat) : Nat :=
  match regWidth s.caps n with
  | some w => Config.freeReg d n % 2 ^ w
  | none => Config.freeReg d n

/-- The numbers of the result registers `OLEN`, `CRC` and `RDEV` (43_command_interface.md R176).  `STATUS` and `ERR` are
told apart from the results (R180, 10_state.md R20; DEDUCED, notes/assumptions/23.md). -/
def isResultReg (n : Nat) : Bool := n == regOlen || n == regCrc || (regRdev ≤ n && n < regRdev + devLen)

/-- What `HRD(n)` returns.  `STATUS` always reads back its value; while `ST = BUSY` every other read is unspecified
(43_command_interface.md R178); a result read before the host has observed `done` is unspecified (R177, U6), the same from
read to read (20_memory.md R62); and so is a read of a number no register has (10_state.md R31). -/
def State.readRegister (s : State) (n : Nat) : Nat :=
  if n = regStatus then s.status.toNat
  else if s.busy then s.unspecifiedReg s.draws n
  else if s.unobserved && isResultReg n then s.unspecifiedReg s.outSeed n
  else match s.regValue n with
    | some v => v
    | none => s.unspecifiedReg s.draws n

/-- What a host read finds where nothing has been written: `OUTBUF` at and beyond `OLEN` or after an error
(20_memory.md R54, R55), an operand character since reset (10_state.md R38).  The value stays the same from read to read
(20_memory.md R62). -/
def State.unlistedChar (s : State) (x : Space) (i : Nat) : Chr :=
  if x = .outbuf then Config.freeOut s.outSeed i else Config.powerUpChar s.memSeed x.tag i

/-- What `BRD(X, i)` returns, `d` being the draw for a value the spec leaves unspecified: while `ST = BUSY`
(43_command_interface.md R178) and at or above the capacity (20_memory.md R50).  A result character read before the host has
observed `done` is unspecified too (R177, U6), the same from read to read (20_memory.md R62; notes/assumptions/23.md). -/
def State.readCharacter (s : State) (d : Nat) (x : Space) (i : Nat) : Chr :=
  if s.busy ∨ s.caps.capacity x ≤ i then Config.freeChar d
  else if x = .outbuf ∧ s.unobserved then s.unlistedChar .outbuf i
  else match Memory.read (s.buf x) i with
    | some c => c
    | none => s.unlistedChar x i

/-! ### Writes -/

/-- The value a length register takes from a host write: it is `LEN_W` bits wide (10_state.md R27;
notes/assumptions/11.md). -/
def State.lengthValue (s : State) (v : Nat) : Nat := v % 2 ^ s.caps.lenW

/-- `HWR(n, v)`.  While `ST = BUSY` it is ignored (43_command_interface.md R178).  A write to `CMD` starts a command
(R171); a write to a length register stores, also a value above the capacity (10_state.md R27); "a write to a read-only
register is ignored", and so is one to a number no register has (10_state.md R31). -/
def State.writeRegister (s : State) (n v : Nat) : State :=
  if s.busy then s
  else if n = regCmd then s.startCommand (BitVec.ofNat 8 v)
  else if n = regKlen then { s with klen := s.lengthValue v }
  else if n = regIlen then { s with ilen := s.lengthValue v }
  else if n = regVlen then { s with vlen := s.lengthValue v }
  else if n = regDlen then { s with dlen := s.lengthValue v }
  else s

/-- `BWR(X, i, v)`.  While `ST = BUSY` it is ignored (43_command_interface.md R178), and so is a write at or above the
capacity (20_memory.md R50).  The host has no right to write `OUTBUF` (10_state.md R32; notes/assumptions/12.md). -/
def State.writeCharacter (s : State) (x : Space) (i : Nat) (v : Chr) : State :=
  if s.busy then s
  else if x = .outbuf ∨ s.caps.capacity x ≤ i then s
  else s.writeBuf x i v

/-! ### Host programs (30_encoding.md R88, R89) -/

/-- The single-character writes that store a string in space `x` from index `i` on. -/
def storeString (x : Space) : Nat → List Chr → List Input
  | _, [] => []
  | i, c :: cs => .bwr x i c :: storeString x (i + 1) cs

/-- `LDKEY "s"`: write the characters to `KEYMEM` from index 0 and `KLEN <- len(s)`. -/
def ldkey (str : List Chr) : List Input := storeString .keymem 0 str ++ [.hwr regKlen str.length]

/-- `LDIN "s"`, the same for `INBUF` and `ILEN`. -/
def ldin (str : List Chr) : List Input := storeString .inbuf 0 str ++ [.hwr regIlen str.length]

/-- `LDVER "s"`, the same for `VERBUF` and `VLEN`. -/
def ldver (str : List Chr) : List Input := storeString .verbuf 0 str ++ [.hwr regVlen str.length]

/-- `LDDEV "s"`, the same for `DEVBUF` and `DLEN`. -/
def lddev (str : List Chr) : List Input := storeString .devbuf 0 str ++ [.hwr regDlen str.length]

/-- A command's mnemonic: write its word to `CMD`. -/
def command (i : Instr) : Input := .hwr regCmd (encode i).toNat

/-- The characters `MOVOI` reads: `OUTBUF[0 .. n-1]` from index `i` on. -/
def movoiRead (s : State) : (n i : Nat) → List Chr
  | 0, _ => []
  | n + 1, i => s.readCharacter (s.draws + i) .outbuf i :: movoiRead s n (i + 1)

/-- `MOVOI` after its reads: the writes to `INBUF` and `ILEN <- OLEN`. -/
def movoiWrites (s : State) : List Input :=
  storeString .inbuf 0 (movoiRead s (s.readRegister regOlen) 0) ++ [.hwr regIlen (s.readRegister regOlen)]

/-! ### Serving one input -/

/-- A host read that returned `v`; `tells` says that it was one of `STATUS` or of the output `done`, which tell the host that
a command has ended (43_command_interface.md R177). -/
def State.hostRead (s : State) (v : Nat) (tells : Bool) : State :=
  { s with rdata := v, draws := s.draws + 1, observed := s.observed || (tells && s.done) }

/-- What one input does.  A read leaves its value in `rdata` and changes nothing of the block (20_memory.md R62). -/
def serve (s : State) : Input → State
  | .hwr n v => s.writeRegister n v
  | .hrd n => s.hostRead (s.readRegister n) (n == regStatus)
  | .bwr x i v => s.writeCharacter x i v
  | .brd x i => s.hostRead (s.readCharacter s.draws x i).toNat false
  | .wait => s.hostRead (s.readRegister regStatus) true
  | .movoi =>
    { s with
      rdata := s.readRegister regOlen
      inputs := movoiWrites s ++ s.inputs
      draws := s.draws + s.readRegister regOlen + 1 }
  | .watchDone => s.hostRead s.done.toNat true
  | .rst => s.resetEvent

end Sys2Proof.Machine
end

