-- ==== Sys2Proof/Machine/Engine.lean ====
section
/-!
DEFINITION. The engine's move, and whose move it is (43_command_interface.md R172, R175, R178; 20_memory.md R65).
-/

namespace Sys2Proof.Machine

/-- The command word the engine runs: it is sampled by the `CMD` write that started the command (20_memory.md R68). -/
def State.commandWord (s : State) : BitVec 8 := s.cmd

/-- The completion of the running command (43_command_interface.md R172, R175): an illegal word ends with `BadCommand`
(R173), a legal one does what its rule says. -/
def engineStep (s : State) : Host.Outcome State Fault Refusal :=
  match decode s.commandWord with
  | .ok i => exec i s
  | .error _ => .next (s.raiseError .badCommand)

/-- One step.  While `ST` is not `BUSY` only the host acts; with nothing pending, nothing happens (60_exceptions.md R209).
While `ST = BUSY` the pending inputs are served for as long as `busyLeft` lasts, then the engine completes the command; it
also does so when the host does nothing or waits (70_reset_and_hazards.md R231, notes/assumptions/8.md). -/
def advance (s : State) : Host.Outcome State Fault Refusal :=
  if s.busy then
    match s.busyLeft, s.inputs with
    | 0, _ => engineStep s
    | _ + 1, [] => engineStep s
    | _ + 1, .wait :: _ => engineStep s
    | n + 1, a :: rest => .next (serve { s with inputs := rest, busyLeft := n } a)
  else
    match s.inputs with
    | [] => .next s
    | a :: rest => .next (serve { s with inputs := rest } a)

/-- A command with word `w` started, with the engine to move next: what `HWR(0, w)` does to the block, with no host action
left to be served before the completion (notes/assumptions/14.md). -/
def State.startedNow (s : State) (w : BitVec 8) : State := { s.startCommand w with busyLeft := 0 }

end Sys2Proof.Machine
end

