-- ==== Sys2Proof/Machine/Step.lean ====
section
/-!
DEFINITION. The step of the machine, and the placing of one command for the host's questions.
-/

namespace Sys2Proof.Machine

/-- One step of the block and its host. -/
def step (s : State) : Host.Outcome State Fault Refusal := advance s

/-- `s` with the command of table word `w` started, so that the very next step runs it (notes/assumptions/14.md). -/
def State.withFetchWord (s : State) (nbits w : Nat) : State := s.startedNow (BitVec.ofNat 8 (w % 2 ^ nbits))

end Sys2Proof.Machine
end

