-- ==== Sys2Proof/Machine/Functions.lean ====
section
/-!
DEFINITION. The function level (00_scope.md R15): the source's five functions as pure functions of strings
(30_encoding.md R88).  "Where two levels could be read differently, the function level wins".  The commands are written
from their pseudocode (Cipher.lean, Checksum.lean, Framer.lean); that they compute these functions is stated in
Certificates/Slice0/Obligations.lean.
-/

namespace Sys2Proof.Machine

/-- The key stream: character `i` combined with `key[i mod keyLength]` (40_cipher.md R111). -/
def xorWithKey (text key : List Chr) (h : key.length ≠ 0) : List Chr :=
  text.mapIdx (fun i c => xorb c (key[i % key.length]'(Nat.mod_lt _ (Nat.pos_of_ne_zero h))))

/-- `encryptToHex(text, key)` (40_cipher.md R105). -/
def encryptToHex (text key : List Chr) : Except ErrKind (List Chr) :=
  if h : key.length = 0 then .error .invalidKey else .ok (hexText (xorWithKey text key h))

/-- The bytes a hex string spells, pair by pair from its start (30_encoding.md R78, R79; 20_memory.md R60); `none` for an
odd length or a character that is no hex digit. -/
def unhexText : List Chr → Option (List Chr)
  | [] => some []
  | [_] => none
  | c0 :: c1 :: rest =>
    match hexByte c0 c1, unhexText rest with
    | some b, some bs => some (b :: bs)
    | _, _ => none

/-- `decryptFromHex(hex, key)` (40_cipher.md R106, R108). -/
def decryptFromHex (hex key : List Chr) : Except ErrKind (List Chr) :=
  if h : key.length = 0 then .error .invalidKey
  else match unhexText hex with
    | some d => .ok (xorWithKey d key h)
    | none => .error .malformedInput

/-- `crc16(data)` (41_checksum.md R125, R126): "`crc16(s ++ [c]) = crcbyte(crc16(s), c)`". -/
def crc16 (data : List Chr) : CrcWord := crcStr data

/-- `buildPacket(deviceId, version, plaintext, key)` (42_framer.md R150), with strict mode as `strict` (R147, R151). -/
def buildPacket (strict : Bool) (deviceId version plaintext key : List Chr) : Except ErrKind (List Chr) :=
  if strict ∧ (version.length ≠ 1 ∨ deviceId.length ≠ 16) then .error .invalidField
  else match encryptToHex plaintext key with
    | .error k => .error k
    | .ok payload =>
      .ok (hdr ++ version ++ deviceId ++ payload ++ toHex4 (crc16 (hdr ++ version ++ deviceId ++ payload)))

/-- `ParsedResult` (00_scope.md R17), whose `checksumStatus: pass` says nothing beyond that there is one. -/
structure ParsedResult where
  deviceId : List Chr
  decryptedMessage : List Chr
  deriving DecidableEq, Repr

/-- `packet[a:b]` (00_scope.md R12). -/
def slice (str : List Chr) (a b : Nat) : List Chr := (str.take b).drop a

/-- `parsePacket(packet, key)` (42_framer.md R152), with the slices of 30_encoding.md R83. -/
def parsePacket (packet key : List Chr) : Except ErrKind ParsedResult :=
  let len := packet.length
  if len < 26 then .error .tooShort
  else if slice packet 0 3 ≠ hdr then .error .badHeader
  else if (slice packet (len - 4) len).map fold ≠ toHex4 (crc16 (slice packet 0 (len - 4))) then .error .checksumMismatch
  else match decryptFromHex (slice packet 20 (len - 4)) key with
    | .error k => .error k
    | .ok message => .ok { deviceId := slice packet 4 20, decryptedMessage := message }

end Sys2Proof.Machine
end

