-- ==== Sys2Proof/Machine/Micro.lean ====
section
/-!
DEFINITION. The step level (00_scope.md R15 item 3): the engine as a machine of its own that moves one character, one pair
or one `CRCBIT` at a time (40_cipher.md R111, 41_checksum.md R123), with the internal registers `SEQ`, `POS`, `KIDX`,
`BITCNT`, `HNIB` (10_state.md R23 to R25) and the sequences of 42_framer.md R153.  Its intermediate states are never
visible to the host (10_state.md R36), so `step` completes a command in one transition by `exec`; that the step level
reaches the same outcome is stated in Certificates/Slice0/Obligations.lean.  What a step here holds that the spec does not
fix (the state `start`, what is done in one tick) is in notes/assumptions/17.md.
-/

namespace Sys2Proof.Machine

/-! ### The steps of the units -/

/-- One encode step of unit `CIPH` (40_cipher.md R105, R111): character `i` of `INBUF` combined with `KEYMEM[KIDX]`,
`HEXENC` at `OUTBUF + o` (R102), and `KIDX` moved on. -/
def encStep (s : State) (i o : Nat) : Except Stop State := do
  let t ← s.readChar .inbuf i
  let k ← s.readChar .keymem s.kidx
  let b := xorb t k
  return { s with
    outbuf := Memory.write (Memory.write s.outbuf o (hexdig (hiNibble b))) (o + 1) (hexdig (loNibble b))
    kidx := nextKidx s.klen s.kidx }

/-- One decode step of unit `CIPH` (40_cipher.md R106, R111): the pair at `INBUF + p`, `HEXDEC` with `HNIB <- h` (R103),
combined with `KEYMEM[KIDX]`, written at `OUTBUF + o`, and `KIDX` moved on. -/
def decStep (s : State) (p o : Nat) : Except Stop State := do
  let c0 ← s.readChar .inbuf p
  let c1 ← s.readChar .inbuf (p + 1)
  let h ← digchk c0
  let l ← digchk c1
  let k ← s.readChar .keymem s.kidx
  return { s with
    hnib := h
    outbuf := Memory.write s.outbuf o (xorb (h ++ l) k)
    kidx := nextKidx s.klen s.kidx }

/-- `CRCBIT` with its counter (41_checksum.md R121, R123): `BITCNT` "wraps to 0 after the eighth", and then the next
character is due. -/
def crcShift (s : State) : State :=
  { s with
    crc := crcBit s.crc
    bitcnt := s.bitcnt + 1
    pos := if s.bitcnt = 7 then s.pos + 1 else s.pos }

/-- One step of unit `CSUM` over space `x` (41_checksum.md R123): with `BITCNT = 0` the character at `POS` enters the
register first. -/
def crcStep (s : State) (x : Space) : Except Stop State :=
  if s.bitcnt = 0 then do
    let c ← s.readChar x s.pos
    return crcShift { s with crc := s.crc ^^^ c.setWidth 16 }
  else .ok (crcShift s)

/-! ### The sequencer -/

/-- A sequencer step entered, with the position, the key index and the bit counter at the start of what it walks. -/
def enter (s : State) (q : Seq) : State := { s with seq := q, pos := 0, kidx := 0, bitcnt := 0 }

/-- A checksum step entered: "The register is always restarted from `0x0000`" (41_checksum.md R126). -/
def enterCrc (s : State) (q : Seq) : State := { enter s q with crc := crcInit }

/-- The first step of each command (42_framer.md R153). -/
def enterCommand (s : State) : Instr → State
  | .xenc => enter s .xenc
  | .xdec => enter s .xdec
  | .crc16 => enterCrc s .crc16
  | .build => enter s .b1
  | .buildS => enter s .b0
  | .parse => enter s .p1

/-- The end of a command with success: the change of `ST` is the last write (43_command_interface.md R172). -/
def microDone (s : State) (olen : Nat) (csok : Bool) : State :=
  { s with olen := olen, err := 0, status := statusWord csok stDoneOk, seq := .idle }

/-- The error entry (60_exceptions.md R200) as the hardware makes it: what `OUTBUF`, `RDEV` and `CRC` then hold is whatever
the failing step left. -/
def microRaise (s : State) (k : ErrKind) : State :=
  { s with olen := 0, err := k.code, status := statusWord false stDoneErr, seq := .idle }

/-- The payload's offset in the packet `BUILD` assembles, `P = 3 + VLEN + DLEN` (42_framer.md R150). -/
def buildPayloadOff (s : State) : Nat := hdrLen + s.vlen + s.dlen

/-- `Q = P + 2*ILEN`, the length of the packet's front part (42_framer.md R150). -/
def buildFrontLen (s : State) : Nat := buildPayloadOff s + 2 * s.ilen

/-- One step of `BUILD`'s assembly (42_framer.md R148): the character at `POS`, or the pair in the payload. -/
def assembleStep (s : State) : Except Stop State :=
  if s.pos < hdrLen then
    .ok { s with outbuf := Memory.write s.outbuf s.pos (hdr.getD s.pos 0), pos := s.pos + 1 }
  else if s.pos < hdrLen + s.vlen then do
    let c ← s.readChar .verbuf (s.pos - hdrLen)
    return { s with outbuf := Memory.write s.outbuf s.pos c, pos := s.pos + 1 }
  else if s.pos < buildPayloadOff s then do
    let c ← s.readChar .devbuf (s.pos - (hdrLen + s.vlen))
    return { s with outbuf := Memory.write s.outbuf s.pos c, pos := s.pos + 1 }
  else do
    let t ← encStep s ((s.pos - buildPayloadOff s) / 2) s.pos
    return { t with pos := s.pos + 2 }

/-- A string written to `OUTBUF` from index `o` on. -/
def writeString (s : State) : (o : Nat) → List Chr → State
  | _, [] => s
  | o, c :: cs => writeString { s with outbuf := Memory.write s.outbuf o c } (o + 1) cs

/-- One tick of the engine. -/
def tickBody (s : State) : Except Stop State :=
  match s.seq with
  | .idle => .ok s
  | .start =>
    match decode s.commandWord with
    | .error _ => .error (.raise .badCommand)
    | .ok i => if lengthsInRange s i then .ok (enterCommand s i) else .error (.raise .badCommand)
  | .xenc => do
    keychk s
    if s.pos < s.ilen then
      let t ← encStep s s.pos (2 * s.pos)
      return { t with pos := s.pos + 1 }
    else return microDone s (2 * s.ilen) false
  | .xdec => do
    keychk s
    pairchk s.ilen
    if s.pos < s.ilen / 2 then
      let t ← decStep s (2 * s.pos) s.pos
      return { t with pos := s.pos + 1 }
    else return microDone s (s.ilen / 2) false
  | .crc16 => if s.pos < s.ilen then crcStep s .inbuf else .ok (microDone s 0 false)
  | .b0 => do
    fldchk s
    return enter s .b1
  | .b1 => do
    keychk s
    return enter s .b2
  | .b2 => if s.pos < buildFrontLen s then assembleStep s else .ok (enterCrc s .b3)
  | .b3 => if s.pos < buildFrontLen s then crcStep s .outbuf else .ok (enter s .b4)
  | .b4 => .ok (microDone (writeString s (buildFrontLen s) (toHex4 s.crc)) (buildFrontLen s + chkLen) false)
  | .p1 => do
    lenchk s
    return enter s .p2
  | .p2 => .ok (enter s .p3)
  | .p3 => do
    hdrchk s
    return enter s .p4
  | .p4 => .ok (enterCrc s .p5)
  | .p5 =>
    if s.pos < s.ilen - chkLen then crcStep s .inbuf
    else do
      cschk s s.crc
      return enter s .p6
  | .p6 => do
    keychk s
    pairchk (s.ilen - framing)
    if s.pos < (s.ilen - framing) / 2 then
      let t ← decStep s (payloadOff + 2 * s.pos) s.pos
      return { t with pos := s.pos + 1 }
    else return enter s .p7
  | .p7 => do
    let d ← parseDeviceId s
    return microDone { s with rdev := d } ((s.ilen - framing) / 2) true

/-- One tick with its outcome. -/
def tick (s : State) : Host.Outcome State Fault Refusal :=
  match tickBody s with
  | .ok t => .next t
  | .error (.raise k) => .next (microRaise s k)
  | .error (.fault f) => .fault f

/-- `n` ticks, stopping at the model's fault.  A tick of an idle engine changes nothing. -/
def ticks : Nat → State → Host.Outcome State Fault Refusal
  | 0, s => .next s
  | n + 1, s =>
    match tick s with
    | .next t => ticks n t
    | .fault f => .fault f
    | .refused r => .refused r

end Sys2Proof.Machine
end

