-- ==== Sys2Proof/Safety.lean ====
section
/-!
DEFINITION. What counts as a safe run, in the terms the statements use: the invariant of the machine's states, what a
command's operands are, and which parts of a completed command the spec fixes.
-/

namespace Sys2Proof.Machine

/-- The invariant of a block's states, kept by every step.  Each field cites the rule it says. -/
structure State.Inv (s : State) : Prop where
  /-- The capacities meet 00_scope.md R9. -/
  caps : s.caps.wellFormed = true
  /-- The length registers are `LEN_W` bits wide (10_state.md R27). -/
  klen : s.klen < 2 ^ s.caps.lenW
  ilen : s.ilen < 2 ^ s.caps.lenW
  vlen : s.vlen < 2 ^ s.caps.lenW
  dlen : s.dlen < 2 ^ s.caps.lenW
  /-- Each space is in canonical form and holds no character at or above its capacity (20_memory.md R50). -/
  keymem : Memory.fits s.keymem s.caps.keyMax
  inbuf : Memory.fits s.inbuf s.caps.inMax
  verbuf : Memory.fits s.verbuf s.caps.verMax
  devbuf : Memory.fits s.devbuf s.caps.devMax
  outbuf : Memory.fits s.outbuf s.caps.outMax
  /-- `OUTBUF` holds a result in exactly its first `OLEN` characters (20_memory.md R54, R55). -/
  result : s.outbuf.map Prod.fst = List.range s.olen
  /-- No result overflows `OUTBUF` (10_state.md R33). -/
  olen : s.olen ≤ s.caps.outMax
  /-- `OLEN` is 0 unless the last command ended with success (43_command_interface.md R171, 60_exceptions.md R200). -/
  olenZero : s.st ≠ stDoneOk → s.olen = 0
  /-- "`ERR` is 0 while `ST` is `IDLE`, `BUSY` or `DONE_OK`, and 1 to 7 exactly while `ST = DONE_ERR`" (10_state.md R30). -/
  err : s.err = 0 ↔ s.st ≠ stDoneErr
  /-- "`CSOK` = `STATUS[2]`: 1 exactly when the last command was a `PARSE` that ended with success" (10_state.md R29);
  `CMD` holds the last command's word (R28). -/
  csok : s.csok = true ↔ s.st = stDoneOk ∧ s.cmd = encode .parse
  /-- "`SEQ` is `IDLE` whenever `STATUS.ST` is not `BUSY`" (10_state.md R24), and only then. -/
  seq : s.seq = .idle ↔ s.st ≠ stBusy
  /-- No command word has been written while `ST = IDLE` (10_state.md R28, R29). -/
  idleCmd : s.st = stIdle → s.cmd = 0
  /-- A command that ended with success had a legal word; an illegal word ended with `BadCommand`
  (43_command_interface.md R173). -/
  legal : s.st = stDoneOk → ∃ i, s.cmd = encode i
  illegal : s.st = stDoneErr → (∀ i, s.cmd ≠ encode i) → s.err = ErrKind.badCommand.code
  /-- The host has observed the end of a command only where one has ended (43_command_interface.md R177). -/
  observed : s.observed = true → s.done = true

/-- The host has written every character of the first `n` of space `x` (70_reset_and_hazards.md R223). -/
abbrev State.Written (s : State) (x : Space) (n : Nat) : Prop := ∀ i, i < n → (Memory.read (s.buf x) i).isSome

/-- The space `x` holds the string `str`, with its length register (10_state.md R27). -/
abbrev State.HasString (s : State) (x : Space) (str : List Chr) : Prop :=
  str.length = s.len x ∧ Memory.Holds (s.buf x) str

/-- The key of a command that uses `n` positions of the key stream: the length is `KLEN`, and the first `n` of its
characters stand in `KEYMEM`.  Characters of the key that the command does not use need not have been written
(70_reset_and_hazards.md R223). -/
abbrev State.HasKey (s : State) (key : List Chr) (n : Nat) : Prop :=
  key.length = s.klen ∧ ∀ i, i < n → i < key.length → Memory.read s.keymem i = key[i]?

/-- Everything a command reads, and that the engine never writes (20_memory.md R56, 43_command_interface.md R175), and the
host's side of the state, are the same in both states. -/
structure State.SameOperands (s t : State) : Prop where
  caps : t.caps = s.caps
  cmd : t.cmd = s.cmd
  klen : t.klen = s.klen
  ilen : t.ilen = s.ilen
  vlen : t.vlen = s.vlen
  dlen : t.dlen = s.dlen
  keymem : t.keymem = s.keymem
  inbuf : t.inbuf = s.inbuf
  verbuf : t.verbuf = s.verbuf
  devbuf : t.devbuf = s.devbuf
  inputs : t.inputs = s.inputs
  rdata : t.rdata = s.rdata
  memSeed : t.memSeed = s.memSeed

/-- A command ended with success: `STATUS.ST = DONE_OK` with that `CSOK`, and `ERR = 0` (10_state.md R29, R30). -/
structure State.EndedOk (t : State) (csok : Bool) : Prop where
  status : t.status = statusWord csok stDoneOk
  err : t.err = 0
  seq : t.seq = .idle

/-- A command ended with error kind `k` (60_exceptions.md R200). -/
structure State.EndedErr (t : State) (k : ErrKind) : Prop where
  olen : t.olen = 0
  status : t.status = statusWord false stDoneErr
  err : t.err = k.code
  seq : t.seq = .idle

/-- The string result of a command (20_memory.md R54): `OUTBUF[0 .. OLEN-1]` is `out`, and nothing is said of the rest. -/
structure State.Output (t : State) (out : List Chr) : Prop where
  olen : t.olen = out.length
  outbuf : Memory.Holds t.outbuf out

/-- Whether the commands' own results include `CRC` (43_command_interface.md R176). -/
def producesCrc : Instr → Bool
  | .xenc => false
  | .xdec => false
  | .crc16 => true
  | .build => true
  | .buildS => true
  | .parse => true

/-- Two completions of command `i` agree in everything the spec fixes (43_command_interface.md R176,
93_implementation_defined.md U3, U4, U5): the status, the error code and `OLEN` always; after a success also
`OUTBUF[0 .. OLEN-1]`, `CRC` where `i` computes it, and `RDEV` after `PARSE`. -/
structure State.SpecifiedAgree (i : Instr) (t u : State) : Prop where
  status : t.status = u.status
  err : t.err = u.err
  olen : t.olen = u.olen
  seq : t.seq = u.seq
  outbuf : t.st = stDoneOk → ∀ j, j < t.olen → Memory.read t.outbuf j = Memory.read u.outbuf j
  crc : t.st = stDoneOk → producesCrc i = true → t.crc = u.crc
  rdev : t.st = stDoneOk → i = .parse → t.rdev = u.rdev

/-- Two outcomes of command `i` agree in everything the spec fixes: both complete and agree, or both fault alike. -/
def OutcomesAgree (i : Instr) : Host.Outcome State Fault Refusal → Host.Outcome State Fault Refusal → Prop
  | .next t, .next u => State.SpecifiedAgree i t u
  | .fault f, .fault g => f = g
  | .refused r, .refused q => r = q
  | _, _ => False

/-- The step level's invariant (10_state.md R23, R24): the position stays within the string the current step walks, and in
every cipher pass `KIDX` is the position of the character or pair mod `KLEN`. -/
def State.WorkingInv (s : State) : Prop :=
  match s.seq with
  | .xenc => s.pos ≤ s.ilen ∧ s.kidx = s.pos % s.klen
  | .xdec => s.pos ≤ s.ilen / 2 ∧ s.kidx = s.pos % s.klen
  | .crc16 => s.pos ≤ s.ilen ∧ (s.bitcnt ≠ 0 → s.pos < s.ilen)
  | .b2 =>
    s.pos ≤ buildFrontLen s ∧ s.kidx = ((s.pos - buildPayloadOff s) / 2) % s.klen ∧
      (s.pos - buildPayloadOff s) % 2 = 0 ∧ s.klen ≠ 0
  | .b3 => s.pos ≤ buildFrontLen s ∧ (s.bitcnt ≠ 0 → s.pos < buildFrontLen s)
  | .p5 => s.pos ≤ s.ilen - chkLen ∧ (s.bitcnt ≠ 0 → s.pos < s.ilen - chkLen)
  | .p6 => s.pos ≤ (s.ilen - framing) / 2 ∧ s.kidx = s.pos % s.klen
  | _ => True

end Sys2Proof.Machine
end

