-- ==== Sys2Proof/Certificates/Slice0/Obligations.lean ====
section
/-!
DEFINITION. The statements for the provers.  Each docstring names the rules of spec/ it formalises; OBLIGATIONS.json lists
them.  A statement about every state holds for every choice of the capacities, because a state carries them.
-/

open Sys2Proof Sys2Proof.Machine

/-! ### The command word -/

/-- 30_encoding.md R72: each of the six words, written out bit by bit, decodes to its command. -/
def Obligations.DecodeReadsEachTableWord : Prop :=
  decode 0b00000001#8 = .ok .xenc ∧ decode 0b00000010#8 = .ok .xdec ∧ decode 0b00000011#8 = .ok .crc16 ∧
  decode 0b00000100#8 = .ok .build ∧ decode 0b00001100#8 = .ok .buildS ∧ decode 0b00000101#8 = .ok .parse

/-- 30_encoding.md R73: when a word is illegal, by its fields, and which six words are legal. -/
def Obligations.IllegalWordsByTheirFields : Prop :=
  ∀ w : BitVec 8,
    ((∃ i, decode w = .ok i) ↔ w = 0x01 ∨ w = 0x02 ∨ w = 0x03 ∨ w = 0x04 ∨ w = 0x0C ∨ w = 0x05) ∧
    ((∀ i, decode w ≠ .ok i) ↔
      (w.extractLsb' 0 3 = 0 ∨ w.extractLsb' 0 3 = 6 ∨ w.extractLsb' 0 3 = 7) ∨
      (w.getLsbD 3 = true ∧ w.extractLsb' 0 3 ≠ 4) ∨
      w.extractLsb' 4 4 ≠ 0)

/-- 30_encoding.md R72: decoding and encoding agree, in both directions. -/
def Obligations.DecodeEncodeAgree : Prop :=
  (∀ i : Instr, i.wellFormed = true → decode (encode i) = .ok i) ∧
  (∀ w i, decode w = .ok i → encode i = w)

/-- 43_command_interface.md R172, R175: when a command runs, its word is legal and it is the engine's move, the step is
`exec` of the command at that state.  It is the engine's move when no pending input is served any more before the
completion, when the host does nothing, and when the host waits (model's choice of whose move it is:
notes/assumptions/8.md). -/
def Obligations.StepRunsTheDecodedCommand : Prop :=
  ∀ (s : State) (i : Instr), s.busy = true → decode s.cmd = .ok i →
    (s.busyLeft = 0 ∨ s.inputs = [] ∨ s.inputs.head? = some .wait) →
    step s = exec i s

/-- 43_command_interface.md R173: "If `CMD` is an illegal word, `raise BadCommand()`.  This is the first check of every
command.  Nothing else is examined, no buffer is read": whatever the rest of the state holds. -/
def Obligations.IllegalWordEndsWithBadCommand : Prop :=
  ∀ s : State, s.busy = true → (∀ i, s.cmd ≠ encode i) → (s.busyLeft = 0 ∨ s.inputs = [] ∨ s.inputs.head? = some .wait) →
    ∃ t, step s = .next t ∧ t.EndedErr .badCommand ∧ s.SameOperands t

/-! ### The host's side -/

/-- 43_command_interface.md R171: a write to `CMD` while `ST` is not `BUSY` stores the word and starts a command, whether
or not the word is legal; the operands stay.  The model's own in it: a value wider than the 8 bits of `CMD` is cut
(DESIGN CHOICE, notes/assumptions/11.md), and `SEQ` is then `start` (notes/assumptions/7.md and 17.md). -/
def Obligations.CommandWriteStartsACommand : Prop :=
  ∀ (s : State) (v : Nat) (rest : List Input), s.busy = false → s.inputs = .hwr 0 v :: rest →
    ∃ t, step s = .next t ∧ t.cmd = BitVec.ofNat 8 v ∧ t.status = statusWord false stBusy ∧ t.err = 0 ∧ t.olen = 0 ∧
      t.seq = .start ∧ t.caps = s.caps ∧ t.klen = s.klen ∧ t.ilen = s.ilen ∧ t.vlen = s.vlen ∧ t.dlen = s.dlen ∧
      t.keymem = s.keymem ∧ t.inbuf = s.inbuf ∧ t.verbuf = s.verbuf ∧ t.devbuf = s.devbuf ∧ t.inputs = rest ∧
      t.rdata = s.rdata

/-- 43_command_interface.md R171, R172 and 20_memory.md R65: a command the host starts and waits for ends as `exec` says on
the operands present at the start.  That the step right after the start is already the completion, because the host waits,
is the model's choice (R172 and R230 leave open when `BUSY` ends: notes/assumptions/8.md). -/
def Obligations.StartThenWaitRunsTheCommand : Prop :=
  ∀ (s : State) (i : Instr) (rest : List Input), s.busy = false → s.inputs = command i :: .wait :: rest →
    ∃ u, step s = .next u ∧ u.cmd = encode i ∧ step u = exec i u ∧ u.klen = s.klen ∧ u.ilen = s.ilen ∧ u.vlen = s.vlen ∧
      u.dlen = s.dlen ∧ u.keymem = s.keymem ∧ u.inbuf = s.inbuf ∧ u.verbuf = s.verbuf ∧ u.devbuf = s.devbuf

/-- 43_command_interface.md R178: while `ST = BUSY` "Every host write, to any register including `CMD` and to any buffer,
is ignored: it changes nothing, and it is not remembered"; and a read of `STATUS` returns `ST = BUSY`, `CSOK = 0`, in every
state that meets the invariant. -/
def Obligations.HostAccessesWhileBusy : Prop :=
  ∀ (s : State) (a : Input) (rest : List Input) (n : Nat), s.busy = true → s.busyLeft = n + 1 → s.inputs = a :: rest →
    ((∃ r v, a = .hwr r v) ∨ (∃ x i v, a = .bwr x i v) → step s = .next { s with inputs := rest, busyLeft := n }) ∧
    (s.Inv → a = .hrd 1 → ∃ t, step s = .next t ∧ t.rdata = (statusWord false stBusy).toNat)

/-- 20_memory.md R62: a host read changes nothing of the block, whether a command runs or not; only the value read, the
list of pending inputs and the model's own counter move; and a read of `STATUS` or a look at the output `done` may tell the
host that the last command has ended (R177; the model's record of it: notes/assumptions/23.md). -/
def Obligations.HostReadsChangeNothing : Prop :=
  ∀ (s : State) (a : Input) (rest : List Input), s.inputs = a :: rest →
    ((∃ r, a = .hrd r) ∨ (∃ x i, a = .brd x i) ∨ a = .watchDone) → (s.busy = true → s.busyLeft ≠ 0) →
    ∃ v, step s = .next { s with inputs := rest, busyLeft := if s.busy then s.busyLeft - 1 else s.busyLeft, rdata := v,
                                 draws := s.draws + 1,
                                 observed := s.observed || (decide (a = .hrd 1 ∨ a = .watchDone) && s.done) }

/-- 10_state.md R31: what a read of each register returns while no command runs; a result register only when the host has
observed the end of the last command (43_command_interface.md R177; before that, Obligations.ResultsNeedDoneObserved).  Which
registers are results is DEDUCED (notes/assumptions/23.md). -/
def Obligations.RegisterReadsFollowTheMap : Prop :=
  ∀ (s : State) (n : Nat) (rest : List Input), s.busy = false → s.inputs = .hrd n :: rest →
    ∃ t, step s = .next t ∧
      (n = 0 → t.rdata = s.cmd.toNat) ∧ (n = 1 → t.rdata = s.status.toNat) ∧ (n = 2 → t.rdata = s.err.toNat) ∧
      (n = 3 → t.rdata = s.klen) ∧ (n = 4 → t.rdata = s.ilen) ∧ (n = 5 → t.rdata = s.vlen) ∧ (n = 6 → t.rdata = s.dlen) ∧
      (s.unobserved = false →
        (n = 7 → t.rdata = s.olen) ∧ (n = 8 → t.rdata = s.crc.toNat) ∧
        (∀ j (h : j < 16), n = 16 + j → t.rdata = (s.rdev[j]'h).toNat))

/-- 10_state.md R27, R31: while no command runs a write to `KLEN`, `ILEN`, `VLEN` or `DLEN` stores the value (of `LEN_W`
bits), also one above the capacity, and changes nothing else; a write to a read-only register or to a number no register
has is ignored: every number but 0 and 3 to 6. -/
def Obligations.RegisterWritesFollowTheMap : Prop :=
  ∀ (s : State) (n v : Nat) (rest : List Input), s.busy = false → s.inputs = .hwr n v :: rest →
    (n = 3 → v < 2 ^ s.caps.lenW → step s = .next { s with inputs := rest, klen := v }) ∧
    (n = 4 → v < 2 ^ s.caps.lenW → step s = .next { s with inputs := rest, ilen := v }) ∧
    (n = 5 → v < 2 ^ s.caps.lenW → step s = .next { s with inputs := rest, vlen := v }) ∧
    (n = 6 → v < 2 ^ s.caps.lenW → step s = .next { s with inputs := rest, dlen := v }) ∧
    (n = 1 ∨ n = 2 ∨ 7 ≤ n → step s = .next { s with inputs := rest })

/-- 20_memory.md R50: a host write to an operand space stores the character at that index; every other index of the
space, every other space, and every register keep what they hold; at or above the capacity the write is ignored, and so is
one to `OUTBUF`, which R170 gives the host no right to (the model's reading: notes/assumptions/12.md). -/
def Obligations.CharacterWritesStore : Prop :=
  ∀ (s : State) (x : Space) (i : Nat) (v : Chr) (rest : List Input), s.busy = false → s.inputs = .bwr x i v :: rest →
    ∃ t, step s = .next t ∧
      (x ≠ .outbuf → i < s.caps.capacity x → Memory.read (t.buf x) i = some v) ∧
      (x = .outbuf ∨ s.caps.capacity x ≤ i → t.buf x = s.buf x) ∧
      (∀ j, j ≠ i → Memory.read (t.buf x) j = Memory.read (s.buf x) j) ∧
      (∀ y, y ≠ x → t.buf y = s.buf y) ∧
      t.caps = s.caps ∧ t.cmd = s.cmd ∧ t.status = s.status ∧ t.err = s.err ∧ t.klen = s.klen ∧ t.ilen = s.ilen ∧
      t.vlen = s.vlen ∧ t.dlen = s.dlen ∧ t.olen = s.olen ∧ t.crc = s.crc ∧ t.rdev = s.rdev ∧ t.seq = s.seq ∧
      t.pos = s.pos ∧ t.kidx = s.kidx ∧ t.bitcnt = s.bitcnt ∧ t.hnib = s.hnib ∧ t.inputs = rest ∧ t.rdata = s.rdata ∧
      t.observed = s.observed

/-- 20_memory.md R54, R62, 43_command_interface.md R170: with no command running, a host read of a character that has been
written returns it, one of `OUTBUF` only when the host has observed the end of the last command (R177; before that,
Obligations.ResultsNeedDoneObserved); and reading any location twice in a row gives the same value, also where nothing has
written it (notes/assumptions/5.md) and before that end was observed (notes/assumptions/23.md). -/
def Obligations.CharacterReadsReturnWhatIsStored : Prop :=
  (∀ (s : State) (x : Space) (i : Nat) (c : Chr) (rest : List Input), s.busy = false → i < s.caps.capacity x →
    Memory.read (s.buf x) i = some c → (x = .outbuf → s.unobserved = false) → s.inputs = .brd x i :: rest →
    ∃ t, step s = .next t ∧ t.rdata = c.toNat) ∧
  (∀ (s : State) (x : Space) (i : Nat) (rest : List Input), s.busy = false → i < s.caps.capacity x →
    s.inputs = .brd x i :: .brd x i :: rest →
    ∃ t u, step s = .next t ∧ step t = .next u ∧ u.rdata = t.rdata)

/-- 30_encoding.md R88: the host's `LDKEY`, `LDIN`, `LDVER` and `LDDEV` leave the string in its space with its length
register, whatever stood there, and change no other operand.  That each action is one step is the model's
(notes/assumptions/9.md). -/
def Obligations.LoadingAStringStoresIt : Prop :=
  ∀ (s : State) (str : List Chr) (rest : List Input), s.busy = false → str.length < 2 ^ s.caps.lenW →
    ∀ (x : Space) (load : List Chr → List Input),
      ((x = .keymem ∧ load = ldkey) ∨ (x = .inbuf ∧ load = ldin) ∨ (x = .verbuf ∧ load = ldver) ∨
        (x = .devbuf ∧ load = lddev)) →
      str.length ≤ s.caps.capacity x → s.inputs = load str ++ rest →
      ∃ t, core.run (str.length + 1) s = .next t ∧ t.HasString x str ∧ t.inputs = rest ∧ t.caps = s.caps ∧
        t.status = s.status ∧ t.cmd = s.cmd ∧ (∀ y, y ≠ x → t.buf y = s.buf y ∧ t.len y = s.len y)

/-- 30_encoding.md R89: `MOVOI` copies the result `OUTBUF[0..OLEN-1]` to `INBUF` and sets `ILEN` to `OLEN`, with host
reads and writes only, when the host has observed the end of the last command (43_command_interface.md R177; before that,
Obligations.ResultsNeedDoneObserved); nothing else of the operands, and neither the result nor the status, changes.  The number of steps is
the model's: all the reads are one step and each write is one (DEDUCED, notes/assumptions/21.md). -/
def Obligations.MovoiCopiesTheResult : Prop :=
  ∀ (s : State) (out : List Chr) (rest : List Input), s.Inv → s.busy = false → s.unobserved = false → s.Output out →
    s.olen ≤ s.caps.inMax → s.inputs = .movoi :: rest →
    ∃ t, core.run (s.olen + 2) s = .next t ∧ t.HasString .inbuf out ∧ t.inputs = rest ∧ t.caps = s.caps ∧
      t.status = s.status ∧ t.cmd = s.cmd ∧ t.err = s.err ∧ (∀ y, y ≠ .inbuf → t.buf y = s.buf y ∧ t.len y = s.len y)

/-- 70_reset_and_hazards.md R220: the reset event gives every register the value of 10_state.md R38 and ends a running
command without a report; it is the only event that returns `ST` to `IDLE`.  That no buffer character is listed after it
is the model's form of R38's "unspecified" (notes/assumptions/4.md, 5.md and 13.md). -/
def Obligations.ResetEventGivesTheResetValues : Prop :=
  (∀ (s : State) (rest : List Input), (s.busy = true → s.busyLeft ≠ 0) → s.inputs = .rst :: rest →
    ∃ t, step s = .next t ∧ t.cmd = 0 ∧ t.st = stIdle ∧ t.csok = false ∧ t.err = 0 ∧ t.klen = 0 ∧ t.ilen = 0 ∧
      t.vlen = 0 ∧ t.dlen = 0 ∧ t.olen = 0 ∧ t.crc = 0 ∧ t.seq = .idle ∧ t.caps = s.caps ∧
      (∀ x i, Memory.read (t.buf x) i = none)) ∧
  (∀ s t : State, step s = .next t → s.st ≠ stIdle → t.st = stIdle → s.inputs.head? = some .rst)

/-- 10_state.md R38: the reset values the spec gives, whatever the capacities; and `State.reset` is the reset state. -/
def Obligations.ResetValues : Prop :=
  (∀ c : Caps,
    (State.resetWith c).cmd = 0x00 ∧ (State.resetWith c).st = stIdle ∧ (State.resetWith c).csok = false ∧
    (State.resetWith c).err = 0 ∧ (State.resetWith c).klen = 0 ∧ (State.resetWith c).ilen = 0 ∧
    (State.resetWith c).vlen = 0 ∧ (State.resetWith c).dlen = 0 ∧ (State.resetWith c).olen = 0 ∧
    (State.resetWith c).crc = 0x0000 ∧ (State.resetWith c).seq = .idle) ∧
  State.reset = State.resetWith Config.caps

/-- 70_reset_and_hazards.md R231 and 43_command_interface.md R179: a running command ends after at most `busyLeft` served
host inputs, whatever the host does: some run of at most that many steps and one more reaches a state that is not `BUSY`,
or the model's fault. -/
def Obligations.BusyAlwaysEnds : Prop :=
  ∀ s : State, s.busy = true →
    ∃ k, k ≤ s.busyLeft + 1 ∧
      ((∃ t, core.run k s = .next t ∧ State.busy t = false) ∨ (∃ x i, core.run k s = .fault (.unwrittenChar x i)))

/-! ### The encodings -/

/-- 30_encoding.md R76, R77: the digits of the sixteen values, the values of all characters, and that the decoder undoes
the encoder.  That lowercase letters are digits and that every other character is invalid is the spec's own decision (D10,
D9), which the model takes instead of the refusal they allow (notes/assumptions/19.md); the codes are ASCII
(notes/assumptions/18.md). -/
def Obligations.HexDigitTables : Prop :=
  (∀ n : Nibble, (n.toNat ≤ 9 → (hexdig n).toNat = 0x30 + n.toNat) ∧ (10 ≤ n.toNat → (hexdig n).toNat = 0x41 + (n.toNat - 10))) ∧
  (∀ c : Chr,
    (0x30 ≤ c.toNat → c.toNat ≤ 0x39 → (hexval c).map BitVec.toNat = some (c.toNat - 0x30)) ∧
    (0x41 ≤ c.toNat → c.toNat ≤ 0x46 → (hexval c).map BitVec.toNat = some (c.toNat - 0x41 + 10)) ∧
    (0x61 ≤ c.toNat → c.toNat ≤ 0x66 → (hexval c).map BitVec.toNat = some (c.toNat - 0x61 + 10)) ∧
    (c.toNat < 0x30 ∨ (0x39 < c.toNat ∧ c.toNat < 0x41) ∨ (0x46 < c.toNat ∧ c.toNat < 0x61) ∨ 0x66 < c.toNat →
      hexval c = none)) ∧
  (∀ n : Nibble, hexval (hexdig n) = some n)

/-- 30_encoding.md R78, R80: a byte's pair, high digit first, spells the byte; two digits spell a byte whose pair is the
two digits in capitals; and the checksum's text is four capital digits that spell its four nibbles, the highest first. -/
def Obligations.HexTextSpellsItsValue : Prop :=
  (∀ b : Chr, ∃ c0 c1, pair b = [c0, c1] ∧ hexval c0 = some (b.extractLsb' 4 4) ∧ hexval c1 = some (b.extractLsb' 0 4) ∧
    hexByte c0 c1 = some b) ∧
  (∀ c0 c1 b : Chr, hexByte c0 c1 = some b → pair b = [fold c0, fold c1]) ∧
  (∀ v : CrcWord, ∃ a b c d, toHex4 v = [a, b, c, d] ∧ hexval a = some (v.extractLsb' 12 4) ∧
    hexval b = some (v.extractLsb' 8 4) ∧ hexval c = some (v.extractLsb' 4 4) ∧ hexval d = some (v.extractLsb' 0 4) ∧
    (toHex4 v).map fold = toHex4 v)

/-! ### Unit CSUM -/

/-- 41_checksum.md R121, R122: `CRCBIT` as a function, its examples, and its shift-register wiring. -/
def Obligations.CrcBitShiftsAndFeedsBack : Prop :=
  (∀ x : CrcWord, crcBit x = (x >>> 1) ^^^ (if x.getLsbD 0 = true then 0xA001 else 0x0000)) ∧
  crcBit 0x0001 = 0xA001 ∧ crcBit 0x0002 = 0x0001 ∧ crcBit 0x0000 = 0x0000 ∧ crcBit 0xFFFF = 0xDFFE ∧
  crcBit 0x8000 = 0x4000 ∧
  (∀ x : CrcWord,
    (crcBit x).getLsbD 15 = x.getLsbD 0 ∧
    (crcBit x).getLsbD 13 = (x.getLsbD 14 ^^ x.getLsbD 0) ∧
    (crcBit x).getLsbD 0 = (x.getLsbD 1 ^^ x.getLsbD 0) ∧
    (∀ k, (1 ≤ k ∧ k ≤ 12) ∨ k = 14 → (crcBit x).getLsbD k = x.getLsbD (k + 1)))

/-- 41_checksum.md R124, R131: the bit-serial data form, least significant bit first, and the table-driven form compute
`CRCBYTE`. -/
def Obligations.CrcFormsAgree : Prop :=
  ∀ (x : CrcWord) (c : Chr), crcSerialByte x c = crcByte x c ∧ crcTableByte x c = crcByte x c

/-- 41_checksum.md R129: `CRCBIT` is linear over XOR and a bijection, with the inverse the rule gives; `CRCBYTE` of a fixed
character is a bijection. -/
def Obligations.CrcIsLinearAndBijective : Prop :=
  (∀ x y : CrcWord, crcBit (x ^^^ y) = crcBit x ^^^ crcBit y) ∧
  (∀ x : CrcWord, x.getLsbD 0 = (crcBit x).getLsbD 15 ∧
    x.extractLsb' 1 15 = (crcBit x ^^^ (if x.getLsbD 0 = true then 0xA001 else 0)).extractLsb' 0 15) ∧
  Function.Bijective crcBit ∧
  (∀ c : Chr, Function.Bijective (fun x => crcByte x c))

/-- 41_checksum.md R130: the replacement of one character by a different one always changes the checksum. -/
def Obligations.CrcDetectsOneChangedCharacter : Prop :=
  ∀ (front back : List Chr) (c d : Chr), c ≠ d → crc16 (front ++ c :: back) ≠ crc16 (front ++ d :: back)

/-- 41_checksum.md R125, R126: the empty string's checksum is 0, a character appended is one `CRCBYTE`, and leading `0x00`
characters do not change the checksum. -/
def Obligations.CrcOfStrings : Prop :=
  crc16 [] = 0x0000 ∧ (∀ (str : List Chr) (c : Chr), crc16 (str ++ [c]) = crcByte (crc16 str) c) ∧
  (∀ (n : Nat) (str : List Chr), crc16 (List.replicate n 0x00 ++ str) = crc16 str)

/-! ### Unit CIPH, function level -/

/-- 40_cipher.md R111, R113: which two characters stand at `2i` and `2i + 1` of the cipher text; its length is
`2 * length(t)` and its only characters are `0-9A-F`. -/
def Obligations.EncryptByPosition : Prop :=
  ∀ (text key out : List Chr), encryptToHex text key = .ok out →
    out.length = 2 * text.length ∧
    (∀ i t k, text[i]? = some t → key[i % key.length]? = some k →
      out[2 * i]? = some (hexdig ((t ^^^ k).extractLsb' 4 4)) ∧ out[2 * i + 1]? = some (hexdig ((t ^^^ k).extractLsb' 0 4))) ∧
    ∀ c ∈ out, (0x30 ≤ c.toNat ∧ c.toNat ≤ 0x39) ∨ (0x41 ≤ c.toNat ∧ c.toNat ≤ 0x46)

/-- 40_cipher.md R113: "`decryptFromHex(encryptToHex(t, k), k) == t`" for every text and every non-empty key; and the
reverse: "for a valid `h` with lowercase letters the result is `h` with its letters capitalised". -/
def Obligations.CipherRoundTrips : Prop :=
  (∀ (text key : List Chr), key ≠ [] →
    ∃ hex, encryptToHex text key = .ok hex ∧ decryptFromHex hex key = .ok text) ∧
  (∀ (hex key text : List Chr), decryptFromHex hex key = .ok text → encryptToHex text key = .ok (hex.map fold))

/-! ### The commands: results -/

/-- 40_cipher.md R105: `XENC` with a non-empty key and lengths in range completes with `encryptToHex(text, key)` in
`OUTBUF[0 .. 2*ILEN - 1]`. -/
def Obligations.XencCompletesWithTheCipherText : Prop :=
  ∀ (s : State) (text key : List Chr), s.HasString .inbuf text → s.HasKey key s.ilen → s.klen ≠ 0 →
    s.ilen ≤ s.caps.inMax → s.klen ≤ s.caps.keyMax →
    ∃ t out, exec .xenc s = .next t ∧ encryptToHex text key = .ok out ∧ t.EndedOk false ∧ t.Output out ∧ t.olen = 2 * s.ilen

/-- 40_cipher.md R106: `XDEC` of an even number of hex digits, with a non-empty key and lengths in range, completes with
`decryptFromHex(hex, key)` in `OUTBUF[0 .. ILEN/2 - 1]`; character `j` is the byte of pair `j` combined with
`key[j mod KLEN]`. -/
def Obligations.XdecCompletesWithThePlainText : Prop :=
  ∀ (s : State) (hex key : List Chr), s.HasString .inbuf hex → s.HasKey key (s.ilen / 2) → s.klen ≠ 0 →
    s.ilen ≤ s.caps.inMax → s.klen ≤ s.caps.keyMax → s.ilen % 2 = 0 → (∀ c ∈ hex, hexval c ≠ none) →
    ∃ t out, exec .xdec s = .next t ∧ decryptFromHex hex key = .ok out ∧ t.EndedOk false ∧ t.Output out ∧
      t.olen = s.ilen / 2 ∧
      ∀ j c0 c1 k, hex[2 * j]? = some c0 → hex[2 * j + 1]? = some c1 → key[j % s.klen]? = some k →
        ∃ b, hexByte c0 c1 = some b ∧ out[j]? = some (b ^^^ k)

/-- 40_cipher.md R106, R108: `XDEC` on any stored string ends as `decryptFromHex` does, with its value or its error. -/
def Obligations.XdecFollowsDecryptFromHex : Prop :=
  ∀ (s : State) (hex key : List Chr), s.HasString .inbuf hex → s.HasKey key (s.ilen / 2) →
    s.ilen ≤ s.caps.inMax → s.klen ≤ s.caps.keyMax →
    ∃ t, exec .xdec s = .next t ∧
      (∀ out, decryptFromHex hex key = .ok out → t.EndedOk false ∧ t.Output out) ∧
      (∀ k, decryptFromHex hex key = .error k → t.EndedErr k)

/-- 41_checksum.md R125: `CRC16` with `ILEN` in range completes with `crc16(data)` in `CRC` and `OLEN = 0`, whatever
`KLEN` is. -/
def Obligations.Crc16CompletesWithTheChecksum : Prop :=
  ∀ (s : State) (data : List Chr), s.HasString .inbuf data → s.ilen ≤ s.caps.inMax →
    ∃ t, exec .crc16 s = .next t ∧ t.crc = crc16 data ∧ t.olen = 0 ∧ t.EndedOk false

/-- 42_framer.md R150: `BUILD` with a non-empty key and lengths in range completes with the packet
`WIM ++ version ++ deviceId ++ payload ++ checksum` in `OUTBUF`, its checksum value in `CRC`. -/
def Obligations.BuildCompletesWithThePacket : Prop :=
  ∀ (s : State) (text key version deviceId : List Chr), s.HasString .inbuf text → s.HasKey key s.ilen →
    s.HasString .verbuf version → s.HasString .devbuf deviceId → s.klen ≠ 0 →
    s.ilen ≤ s.caps.inMax → s.klen ≤ s.caps.keyMax → s.vlen ≤ s.caps.verMax → s.dlen ≤ s.caps.devMax →
    ∃ t payload, exec .build s = .next t ∧ encryptToHex text key = .ok payload ∧ t.EndedOk false ∧
      t.crc = crc16 ([0x57, 0x49, 0x4D] ++ version ++ deviceId ++ payload) ∧
      t.Output ([0x57, 0x49, 0x4D] ++ version ++ deviceId ++ payload ++ toHex4 t.crc) ∧
      t.olen = 7 + s.vlen + s.dlen + 2 * s.ilen

/-- 42_framer.md R151: `BUILD.S` with `VLEN = 1` and `DLEN = 16` completes with the packet, `OLEN = 24 + 2*ILEN`. -/
def Obligations.BuildSCompletesWithThePacket : Prop :=
  ∀ (s : State) (text key version deviceId : List Chr), s.HasString .inbuf text → s.HasKey key s.ilen →
    s.HasString .verbuf version → s.HasString .devbuf deviceId → s.klen ≠ 0 → s.vlen = 1 → s.dlen = 16 →
    s.ilen ≤ s.caps.inMax → s.klen ≤ s.caps.keyMax → s.vlen ≤ s.caps.verMax → s.dlen ≤ s.caps.devMax →
    ∃ t payload, exec .buildS s = .next t ∧ encryptToHex text key = .ok payload ∧ t.EndedOk false ∧
      t.crc = crc16 ([0x57, 0x49, 0x4D] ++ version ++ deviceId ++ payload) ∧
      t.Output ([0x57, 0x49, 0x4D] ++ version ++ deviceId ++ payload ++ toHex4 t.crc) ∧ t.olen = 24 + 2 * s.ilen

/-- 42_framer.md R151: `BUILD.S` differs from `BUILD` only by `FLDCHK` at its head: with `VLEN = 1` and `DLEN = 16` the two
are the same, and a `BUILD.S` that ends with success had those lengths and `OLEN = 24 + 2 * ILEN`. -/
def Obligations.BuildSDiffersOnlyByTheFieldCheck : Prop :=
  (∀ s : State, s.vlen = 1 → s.dlen = 16 → exec .buildS s = exec .build s) ∧
  (∀ s t : State, exec .buildS s = .next t → t.st = stDoneOk → s.vlen = 1 ∧ s.dlen = 16 ∧ t.olen = 24 + 2 * s.ilen)

/-- 42_framer.md R152: `PARSE` of a packet that passes every check completes with the decrypted message, the device id in
`RDEV`, the recomputed checksum in `CRC` and `CSOK = 1`. -/
def Obligations.ParseCompletesOnAGoodPacket : Prop :=
  ∀ (s : State) (packet key : List Chr), s.HasString .inbuf packet → s.HasKey key ((s.ilen - 24) / 2) → s.klen ≠ 0 →
    s.ilen ≤ s.caps.inMax → s.klen ≤ s.caps.keyMax →
    26 ≤ s.ilen → slice packet 0 3 = [0x57, 0x49, 0x4D] →
    (slice packet (s.ilen - 4) s.ilen).map fold = toHex4 (crc16 (slice packet 0 (s.ilen - 4))) →
    s.ilen % 2 = 0 → (∀ c ∈ slice packet 20 (s.ilen - 4), hexval c ≠ none) →
    ∃ t message, exec .parse s = .next t ∧ t.EndedOk true ∧
      decryptFromHex (slice packet 20 (s.ilen - 4)) key = .ok message ∧ t.Output message ∧
      t.olen = (s.ilen - 24) / 2 ∧ t.rdev.toList = slice packet 4 20 ∧ t.crc = crc16 (slice packet 0 (s.ilen - 4))

/-- 42_framer.md R152: `PARSE` on any stored string ends as `parsePacket` does, with its result or its error. -/
def Obligations.ParseFollowsParsePacket : Prop :=
  ∀ (s : State) (packet key : List Chr), s.HasString .inbuf packet → s.HasKey key ((s.ilen - 24) / 2) →
    s.ilen ≤ s.caps.inMax → s.klen ≤ s.caps.keyMax →
    ∃ t, exec .parse s = .next t ∧
      (∀ r, parsePacket packet key = .ok r → t.EndedOk true ∧ t.Output r.decryptedMessage ∧ t.rdev.toList = r.deviceId ∧
        t.crc = crc16 (slice packet 0 (s.ilen - 4))) ∧
      (∀ k, parsePacket packet key = .error k → t.EndedErr k)

/-- 42_framer.md R154: the outcome of `PARSE` by class of input, "the first row whose condition holds gives the
outcome". -/
def Obligations.ParseOutcomeTable : Prop :=
  ∀ (packet key : List Chr),
    let len := packet.length
    let payload := slice packet 20 (len - 4)
    let c1 := len < 26
    let c2 := slice packet 0 3 ≠ [0x57, 0x49, 0x4D]
    let c3 := (slice packet (len - 4) len).map fold ≠ toHex4 (crc16 (slice packet 0 (len - 4)))
    let c4 := key.length = 0
    let c5 := len % 2 = 1
    let c6 := ∃ c ∈ payload, hexval c = none
    (c1 → parsePacket packet key = .error .tooShort) ∧
    (¬ c1 → c2 → parsePacket packet key = .error .badHeader) ∧
    (¬ c1 → ¬ c2 → c3 → parsePacket packet key = .error .checksumMismatch) ∧
    (¬ c1 → ¬ c2 → ¬ c3 → c4 → parsePacket packet key = .error .invalidKey) ∧
    (¬ c1 → ¬ c2 → ¬ c3 → ¬ c4 → c5 → parsePacket packet key = .error .malformedInput) ∧
    (¬ c1 → ¬ c2 → ¬ c3 → ¬ c4 → ¬ c5 → c6 → parsePacket packet key = .error .malformedInput) ∧
    (¬ c1 → ¬ c2 → ¬ c3 → ¬ c4 → ¬ c5 → ¬ c6 →
      ∃ r, parsePacket packet key = .ok r ∧ r.deviceId = slice packet 4 20 ∧ r.decryptedMessage.length = (len - 24) / 2)

/-! ### The commands: errors -/

/-- 43_command_interface.md R174: a length above the capacity of its buffer ends the command with `BadCommand`, before
every other check and whatever the buffers hold; `CRC16` does not look at `KLEN`, only `BUILD` looks at `VLEN` and `DLEN`,
and a length equal to the capacity is legal. -/
def Obligations.LengthRangeCheckComesFirst : Prop :=
  ∀ (s : State) (i : Instr),
    ((s.caps.inMax < s.ilen ∨ (i ≠ .crc16 ∧ s.caps.keyMax < s.klen) ∨
        ((i = .build ∨ i = .buildS) ∧ (s.caps.verMax < s.vlen ∨ s.caps.devMax < s.dlen))) →
      ∃ t, exec i s = .next t ∧ t.EndedErr .badCommand) ∧
    (¬ (s.caps.inMax < s.ilen ∨ (i ≠ .crc16 ∧ s.caps.keyMax < s.klen) ∨
        ((i = .build ∨ i = .buildS) ∧ (s.caps.verMax < s.vlen ∨ s.caps.devMax < s.dlen))) →
      ∀ t, exec i s = .next t → t.err ≠ 7)

/-- 40_cipher.md R104: with `KLEN = 0` a cipher pass ends with `InvalidKey` before it looks at any input character, also
when the input is empty: `XENC`, `XDEC` and `BUILD`, and `BUILD.S` once its field check has passed, whatever the buffers
hold. -/
def Obligations.EmptyKeyIsInvalidKey : Prop :=
  ∀ (s : State) (i : Instr), i = .xenc ∨ i = .xdec ∨ i = .build ∨ (i = .buildS ∧ s.vlen = 1 ∧ s.dlen = 16) →
    lengthsInRange s i = true → s.klen = 0 → ∃ t, exec i s = .next t ∧ t.EndedErr .invalidKey

/-- 40_cipher.md R107, R108: an odd number of characters under a non-empty key is `MalformedInput` in `XDEC`, whatever the
characters: no character is read. -/
def Obligations.OddHexTextIsMalformed : Prop :=
  ∀ s : State, lengthsInRange s .xdec = true → s.klen ≠ 0 → s.ilen % 2 = 1 →
    ∃ t, exec .xdec s = .next t ∧ t.EndedErr .malformedInput

/-- 42_framer.md R147: in strict mode a version or device id of the wrong length is `InvalidField`, before anything else
in `BUILD.S`: whatever the key and the buffers hold; with the right lengths it never is, whatever the characters; and there
is no strict mode for `PARSE`: no word has `S = 1` with `OP = 5`. -/
def Obligations.StrictFieldCheckComesFirst : Prop :=
  (∀ s : State, lengthsInRange s .buildS = true → (s.vlen ≠ 1 ∨ s.dlen ≠ 16) →
    ∃ t, exec .buildS s = .next t ∧ t.EndedErr .invalidField) ∧
  (∀ s t : State, s.vlen = 1 → s.dlen = 16 → exec .buildS s = .next t → ¬ t.EndedErr .invalidField) ∧
  (∀ i, decode 0b00001101#8 ≠ .ok i)

/-- 42_framer.md R141: `PARSE` with `ILEN < 26` is `TooShort`, whatever the string contains and whatever the key; with
`ILEN >= 26` it never is. -/
def Obligations.ShortPacketIsTooShort : Prop :=
  ∀ s : State, lengthsInRange s .parse = true →
    (s.ilen < 26 → ∃ t, exec .parse s = .next t ∧ t.EndedErr .tooShort) ∧
    (26 ≤ s.ilen → ∀ t, exec .parse s = .next t → ¬ t.EndedErr .tooShort)

/-- 42_framer.md R143: a stored header other than exactly `WIM` is `BadHeader`, whatever the rest of the packet, its
checksum and the key are. -/
def Obligations.WrongHeaderIsBadHeader : Prop :=
  ∀ (s : State) (a b c : Chr), lengthsInRange s .parse = true → 26 ≤ s.ilen → Memory.read s.inbuf 0 = some a →
    Memory.read s.inbuf 1 = some b → Memory.read s.inbuf 2 = some c → (a ≠ 0x57 ∨ b ≠ 0x49 ∨ c ≠ 0x4D) →
    ∃ t, exec .parse s = .next t ∧ t.EndedErr .badHeader

/-- 60_exceptions.md R198: which command can end with which error kind. -/
def Obligations.ErrorKindsOfEachCommand : Prop :=
  ∀ (s t : State) (k : ErrKind),
    (exec .xenc s = .next t → t.EndedErr k → k ∈ [.invalidKey, .badCommand]) ∧
    (exec .xdec s = .next t → t.EndedErr k → k ∈ [.invalidKey, .malformedInput, .badCommand]) ∧
    (exec .crc16 s = .next t → t.EndedErr k → k ∈ [.badCommand]) ∧
    (exec .build s = .next t → t.EndedErr k → k ∈ [.invalidKey, .badCommand]) ∧
    (exec .buildS s = .next t → t.EndedErr k → k ∈ [.invalidKey, .invalidField, .badCommand]) ∧
    (exec .parse s = .next t → t.EndedErr k →
      k ∈ [.invalidKey, .malformedInput, .tooShort, .badHeader, .checksumMismatch, .badCommand])

/-! ### The commands: what every one of them does and leaves alone -/

/-- 10_state.md R29, R30, R34 and 60_exceptions.md R199, R200: a completed command ended either with success, `ERR = 0`
and `CSOK = 1` exactly for `PARSE`, or with exactly one error kind, its code in `ERR`, `OLEN = 0` and `CSOK = 0`. -/
def Obligations.EveryCommandEndsInOneWay : Prop :=
  ∀ (i : Instr) (s t : State), exec i s = .next t →
    t.EndedOk (decide (i = .parse)) ∨ (∃ k, t.EndedErr k ∧ ∀ k', t.EndedErr k' → k' = k)

/-- 20_memory.md R56: "`KEYMEM`, `INBUF`, `VERBUF`, `DEVBUF` and the registers `KLEN`, `ILEN`, `VLEN`, `DLEN`, `CMD` hold
after a command, whether it ended with success or with an error, exactly what they held when it started".  The frame of
all six commands: what may change is `STATUS`, `ERR`, `OLEN`, `CRC`, `RDEV`, `OUTBUF`, the working registers, and the
model's own `busyLeft`, `draws`, `outSeed` and `observed`.  That nothing is left listed in `OUTBUF` at and beyond `OLEN` is the model's
form of R55's "unspecified" (DESIGN CHOICE, notes/assumptions/22.md). -/
def Obligations.CommandsKeepTheOperands : Prop :=
  ∀ (i : Instr) (s t : State), exec i s = .next t →
    s.SameOperands t ∧
    (∀ x a, x ≠ .outbuf → Memory.read (t.buf x) a = Memory.read (s.buf x) a) ∧
    (∀ a, t.olen ≤ a → Memory.read t.outbuf a = none)

/-- 10_state.md R33, 43_command_interface.md R176: the result length of each command that ends with success, that `OUTBUF`
then holds exactly that many characters, and that none overflows it.  That it holds no character at or beyond `OLEN` is the
model's form of R55's "unspecified" (DESIGN CHOICE, notes/assumptions/22.md). -/
def Obligations.ResultLengths : Prop :=
  ∀ (i : Instr) (s t : State), s.caps.wellFormed = true → exec i s = .next t → t.st = stDoneOk →
    t.olen = (match i with
      | .xenc => 2 * s.ilen
      | .xdec => s.ilen / 2
      | .crc16 => 0
      | .build => 7 + s.vlen + s.dlen + 2 * s.ilen
      | .buildS => 7 + s.vlen + s.dlen + 2 * s.ilen
      | .parse => (s.ilen - 24) / 2) ∧
    t.olen ≤ s.caps.outMax ∧ (∀ a, (Memory.read t.outbuf a).isSome = true ↔ a < t.olen)

/-- 20_memory.md R55 and 70_reset_and_hazards.md R223: no command is refused, and the only fault is the read of an operand
character below its declared length that the host has never written. -/
def Obligations.FaultsOnlyOnUnwrittenOperands : Prop :=
  ∀ (i : Instr) (s : State),
    (∀ r, exec i s ≠ .refused r) ∧
    (∀ x j, exec i s = .fault (.unwrittenChar x j) → x ≠ .outbuf ∧ j < s.len x ∧ Memory.read (s.buf x) j = none)

/-- 43_command_interface.md R182: with every declared operand character written, each command ends with one of the
outcomes of its rule, always. -/
def Obligations.WrittenOperandsAlwaysComplete : Prop :=
  ∀ (i : Instr) (s : State), (∀ x, x ≠ .outbuf → s.Written x (s.len x)) →
    ∃ t, exec i s = .next t ∧ (t.st = stDoneOk ∨ t.st = stDoneErr)

/-- 43_command_interface.md R175, 10_state.md R36, 20_memory.md R55: the outcome of a command depends on nothing but the
lengths and the characters below them: two states that agree in those (whatever else they hold, beyond the lengths too)
give outcomes that agree in everything the spec fixes. -/
def Obligations.OutcomeDependsOnDeclaredOperandsOnly : Prop :=
  ∀ (i : Instr) (s t : State), s.caps = t.caps → (∀ x, x ≠ .outbuf → s.len x = t.len x) →
    (∀ x j, x ≠ .outbuf → j < s.len x → Memory.read (s.buf x) j = Memory.read (t.buf x) j) →
    OutcomesAgree i (exec i s) (exec i t)

/-! ### The packet -/

/-- 42_framer.md R155: a packet `BUILD` makes from a version of one character, a device id of 16 characters, a non-empty
text and a non-empty key, copied to `INBUF`, parses under the same key, with the device id and the text returned. -/
def Obligations.PacketRoundTrip : Prop :=
  ∀ (s t u : State) (text key version deviceId packet : List Chr), s.HasString .inbuf text → s.HasString .keymem key →
    s.HasString .verbuf version → s.HasString .devbuf deviceId →
    s.klen ≠ 0 → s.ilen ≠ 0 → s.vlen = 1 → s.dlen = 16 → lengthsInRange s .build = true →
    exec .build s = .next t → t.Output packet →
    u.HasString .inbuf packet → u.HasString .keymem key → lengthsInRange u .parse = true →
    ∃ v, exec .parse u = .next v ∧ v.EndedOk true ∧ v.Output text ∧ v.rdev.toList = deviceId ∧ v.crc = t.crc

/-- 42_framer.md R155, R146: one changed character of a packet that parses: in the header it is `BadHeader`, in version,
device id or payload `ChecksumMismatch`, in the checksum field `ChecksumMismatch` unless only the case of a letter
changed, which still parses with the same result. -/
def Obligations.OneChangedCharacterIsDetected : Prop :=
  ∀ (packet key : List Chr) (r : ParsedResult) (p : Nat) (c d : Chr), parsePacket packet key = .ok r →
    packet[p]? = some c → d ≠ c →
    (p < 3 → parsePacket (packet.set p d) key = .error .badHeader) ∧
    (3 ≤ p → p < packet.length - 4 → parsePacket (packet.set p d) key = .error .checksumMismatch) ∧
    (packet.length - 4 ≤ p → fold d ≠ fold c → parsePacket (packet.set p d) key = .error .checksumMismatch) ∧
    (packet.length - 4 ≤ p → fold d = fold c → parsePacket (packet.set p d) key = .ok r)

/-- 42_framer.md R156 item 1, 90_conflicts.md C6: a wrong key is not detected: the packet parses, with the same device id
and a message that is the right one XORed with the difference of the two keys. -/
def Obligations.WrongKeyIsNotDetected : Prop :=
  ∀ (packet key other : List Chr) (r : ParsedResult), parsePacket packet key = .ok r → other ≠ [] →
    ∃ q, parsePacket packet other = .ok q ∧ q.deviceId = r.deviceId ∧
      q.decryptedMessage.length = r.decryptedMessage.length ∧
      ∀ i m k o, r.decryptedMessage[i]? = some m → key[i % key.length]? = some k → other[i % other.length]? = some o →
        q.decryptedMessage[i]? = some (m ^^^ k ^^^ o)

/-! ### The whole machine -/

/-- The reset state meets the invariant, whatever legal capacities it is built with. -/
def Obligations.ResetMeetsTheInvariant : Prop :=
  (∀ c : Caps, c.wellFormed = true → (State.resetWith c).Inv) ∧ State.reset.Inv

/-- The invariant of the block's states (Safety.lean: 10_state.md R24, R27, R29, R30, R33; 20_memory.md R50, R54) is kept
by every step, whatever the host does.  Its clause that `OUTBUF` lists exactly the indexes below `OLEN`, and the one that
`SEQ` is not `IDLE` while `BUSY`, are the model's form (notes/assumptions/22.md and 7.md). -/
def Obligations.EveryStepKeepsTheInvariant : Prop :=
  ∀ s t : State, s.Inv → step s = .next t → t.Inv

/-- 10_state.md R21, R37: the capacities never change, and no step is ever refused. -/
def Obligations.CapacitiesNeverChange : Prop :=
  ∀ s : State, (∀ t, step s = .next t → t.caps = s.caps) ∧ (∀ r, step s ≠ .refused r)

/-! ### The step level -/

/-- 42_framer.md R153, 10_state.md R24: the only transitions of the sequencer.  The state `start` before every command is the
model's (notes/assumptions/17.md). -/
def Obligations.SequencerMovesForwardOnly : Prop :=
  ∀ s t : State, tick s = .next t → s.seq ≠ t.seq →
    (s.seq, t.seq) ∈
      [(Seq.start, Seq.idle), (.start, .xenc), (.start, .xdec), (.start, .crc16), (.start, .b0), (.start, .b1), (.start, .p1),
       (.xenc, .idle), (.xdec, .idle), (.crc16, .idle),
       (.b0, .b1), (.b0, .idle), (.b1, .b2), (.b1, .idle), (.b2, .b3), (.b3, .b4), (.b4, .idle),
       (.p1, .p2), (.p1, .idle), (.p2, .p3), (.p3, .p4), (.p3, .idle), (.p4, .p5), (.p5, .p6), (.p5, .idle),
       (.p6, .p7), (.p6, .idle), (.p7, .idle)]

/-- 10_state.md R23, R24: at every tick of a cipher pass `KIDX` holds the position mod `KLEN`, and `POS` never exceeds the
length of the string it walks. -/
def Obligations.TicksKeepTheWorkingRegisters : Prop :=
  ∀ s t : State, s.WorkingInv → tick s = .next t → t.WorkingInv

/-- 00_scope.md R15, 40_cipher.md R111, 41_checksum.md R123, 42_framer.md R148, R153: the step level reaches, after a
finite number of ticks from the start of a command, the outcome of `exec`, in everything the spec fixes.  The state
`start` is the model's (notes/assumptions/17.md). -/
def Obligations.StepLevelReachesTheCommandLevel : Prop :=
  ∀ (s : State) (i : Instr), s.seq = .start → decode s.cmd = .ok i →
    ∃ n, OutcomesAgree i (ticks n s) (exec i s)

/-! ### Results and `done` -/

/-- 43_command_interface.md R170, R177, 70_reset_and_hazards.md R225 (3), 93_implementation_defined.md U6: (1) a command's end
is not yet observed; (2) the output `done` is 1 exactly while `ST` is `DONE_OK` or `DONE_ERR`, and `HRD(1)`, `WAIT` or a look
at `done` tells the host of a command's end and leaves status, error code and results as they are; (3) what the host reads of
the results before that, `MOVOI`'s copy too, does not depend on what is stored: any other results in their place are read
alike.  Which registers are results, and that looking at `done` is an input, are the model's (notes/assumptions/23.md). -/
def Obligations.ResultsNeedDoneObserved : Prop :=
  (∀ (i : Instr) (s t : State), exec i s = .next t → t.unobserved = true) ∧
  (∀ (s : State) (a : Input) (rest : List Input), s.busy = false → s.inputs = a :: rest →
    a = .hrd 1 ∨ a = .wait ∨ a = .watchDone →
    ∃ t, step s = .next t ∧ t.unobserved = false ∧
      t.rdata = (if a = .watchDone then (if s.st = stDoneOk ∨ s.st = stDoneErr then 1 else 0) else s.status.toNat) ∧
      t.status = s.status ∧ t.err = s.err ∧ t.olen = s.olen ∧ t.crc = s.crc ∧ t.rdev = s.rdev ∧ t.outbuf = s.outbuf) ∧
  (∀ (s : State) (a : Input) (rest : List Input), s.unobserved = true → s.inputs = a :: rest →
    a = .hrd 7 ∨ a = .hrd 8 ∨ (∃ j, j < 16 ∧ a = .hrd (16 + j)) ∨ (∃ i, a = .brd .outbuf i) ∨ a = .movoi →
    ∀ (olen : Nat) (crc : CrcWord) (rdev : Vector Chr 16) (outbuf : Memory),
      ∃ t u, step s = .next t ∧ step { s with olen := olen, crc := crc, rdev := rdev, outbuf := outbuf } = .next u ∧
        u.rdata = t.rdata ∧ u.inputs = t.inputs)
end

