-- ==== Sys2Proof/Laws/Memory.lean ====
section
/-!
SUPPORT. The laws of buffer contents: a read after a write, the canonical form kept by every operation, and strings
stored from an index on.
-/

namespace Sys2Proof.Machine

@[simp] theorem Memory.read_nil (i : Nat) : Memory.read [] i = none := rfl

theorem Memory.read_cons (a : Nat) (c : Chr) (m : Memory) (i : Nat) :
    Memory.read ((a, c) :: m) i = if a = i then some c else Memory.read m i := rfl

/-- A read at the written index gives the written character; any other read is as before. -/
theorem Memory.read_write (m : Memory) (i j : Nat) (v : Chr) :
    Memory.read (Memory.write m i v) j = if j = i then some v else Memory.read m j := by
  induction m with
  | nil => simp [Memory.write, Memory.read_cons, eq_comm]
  | cons ac m ih =>
    obtain ⟨a, c⟩ := ac
    simp only [Memory.write]
    split
    · simp [Memory.read_cons, eq_comm]
    · split
      · subst_vars; simp [Memory.read_cons]; grind
      · simp [Memory.read_cons, ih]; grind

@[simp] theorem Memory.read_write_same (m : Memory) (i : Nat) (v : Chr) :
    Memory.read (Memory.write m i v) i = some v := by simp [Memory.read_write]

theorem Memory.read_write_other (m : Memory) {i j : Nat} (v : Chr) (h : j ≠ i) :
    Memory.read (Memory.write m i v) j = Memory.read m j := by simp [Memory.read_write, h]

/-- Which cells a write leaves. -/
theorem Memory.mem_write {m : Memory} {i : Nat} {v : Chr} {x : Host.Cell} (h : x ∈ Memory.write m i v) :
    x = (i, v) ∨ x ∈ m := by
  induction m with
  | nil => simpa [Memory.write] using h
  | cons ac m ih =>
    obtain ⟨a, c⟩ := ac
    simp only [Memory.write] at h
    split at h
    · simpa using h
    · split at h
      · rcases List.mem_cons.1 h with h | h
        · exact .inl h
        · exact .inr (List.mem_cons_of_mem _ h)
      · rcases List.mem_cons.1 h with h | h
        · exact .inr (by simp [h])
        · exact (ih h).imp id (List.mem_cons_of_mem _)

/-- A write keeps the canonical form. -/
theorem Memory.wf_write {m : Memory} (i : Nat) (v : Chr) (h : Memory.wf m) : Memory.wf (Memory.write m i v) := by
  induction m with
  | nil => simp [Memory.write]
  | cons ac m ih =>
    obtain ⟨a, c⟩ := ac
    obtain ⟨h1, h2⟩ := List.pairwise_cons.1 h
    simp only [Memory.write]
    split
    · next hi =>
      refine List.pairwise_cons.2 ⟨fun x hx => ?_, h⟩
      rcases List.mem_cons.1 hx with rfl | hx
      · exact hi
      · exact Nat.lt_trans hi (h1 x hx)
    · split
      · next hi => subst hi; exact List.pairwise_cons.2 ⟨h1, h2⟩
      · next hi hj =>
        refine List.pairwise_cons.2 ⟨fun x hx => ?_, ih h2⟩
        rcases Memory.mem_write hx with rfl | hx
        · simp only; omega
        · exact h1 x hx

/-- A write below the capacity keeps the canonical form and the capacity. -/
theorem Memory.fits_write {m : Memory} {cap i : Nat} (v : Chr) (h : Memory.fits m cap) (hi : i < cap) :
    Memory.fits (Memory.write m i v) cap := by
  refine ⟨Memory.wf_write i v h.1, fun x hx => ?_⟩
  rcases Memory.mem_write hx with rfl | hx
  · exact hi
  · exact h.2 x hx

theorem Memory.fits_nil (cap : Nat) : Memory.fits [] cap := by simp [Memory.fits, Memory.wf]

/-! ### Strings -/

theorem Memory.ofStringAt_indexes (i : Nat) (str : List Chr) :
    (Memory.ofStringAt i str).map Prod.fst = List.range' i str.length := by
  induction str generalizing i with
  | nil => rfl
  | cons c cs ih => simp [Memory.ofStringAt, ih, List.range'_succ]

/-- A stored string lists exactly the indexes below its length. -/
theorem Memory.ofString_indexes (str : List Chr) : (Memory.ofString str).map Prod.fst = List.range str.length := by
  simp [Memory.ofString, Memory.ofStringAt_indexes, List.range_eq_range']

theorem Memory.read_ofStringAt (i j : Nat) (str : List Chr) :
    Memory.read (Memory.ofStringAt i str) j = if i ≤ j then str[j - i]? else none := by
  induction str generalizing i with
  | nil => simp [Memory.ofStringAt]
  | cons c cs ih =>
    simp only [Memory.ofStringAt, Memory.read_cons, ih]
    by_cases h : i = j
    · simp [h]
    · by_cases h' : i ≤ j
      · obtain ⟨d, rfl⟩ : ∃ d, j = i + 1 + d := ⟨j - i - 1, by omega⟩
        simp [h, h', show i + 1 + d - i = d + 1 by omega]
      · simp [h, h', show ¬ i + 1 ≤ j by omega]

/-- Reading a stored string is indexing it. -/
@[simp] theorem Memory.read_ofString (str : List Chr) (j : Nat) : Memory.read (Memory.ofString str) j = str[j]? := by
  simp [Memory.ofString, Memory.read_ofStringAt]

theorem Memory.holds_ofString (str : List Chr) : Memory.Holds (Memory.ofString str) str := fun i _ => by simp

/-- A stored string is in canonical form and fits a capacity of at least its length. -/
theorem Memory.fits_ofString {str : List Chr} {cap : Nat} (h : str.length ≤ cap) :
    Memory.fits (Memory.ofString str) cap := by
  have hi := Memory.ofString_indexes str
  constructor
  · have hp : ((Memory.ofString str).map Prod.fst).Pairwise (· < ·) := by rw [hi]; exact List.pairwise_lt_range
    exact List.pairwise_map.1 hp
  · intro x hx
    have : x.1 ∈ List.range str.length := hi ▸ List.mem_map_of_mem hx
    exact Nat.lt_of_lt_of_le (List.mem_range.1 this) h

/-- An index that is read is listed. -/
theorem Memory.mem_of_read {m : Memory} {i : Nat} {c : Chr} (h : Memory.read m i = some c) : (i, c) ∈ m := by
  induction m with
  | nil => simp at h
  | cons ac m ih =>
    obtain ⟨a, d⟩ := ac
    rw [Memory.read_cons] at h
    split at h
    · next e => cases h; subst e; exact List.mem_cons_self
    · exact List.mem_cons_of_mem _ (ih h)

end Sys2Proof.Machine
end

