-- ==== Sys2Proof/Laws/State.lean ====
section
/-!
SUPPORT. One lemma per field per update of the state: what each named operation of Machine/Ops.lean,
Machine/HostPort.lean and Machine/Engine.lean leaves in each field.  A proof cites these and never unfolds a record update.
-/

namespace Sys2Proof.Machine

/-! ### `State.unspecify` -/

@[simp] theorem State.unspecify_caps (s : State) : s.unspecify.caps = s.caps := rfl
@[simp] theorem State.unspecify_cmd (s : State) : s.unspecify.cmd = s.cmd := rfl
@[simp] theorem State.unspecify_status (s : State) : s.unspecify.status = s.status := rfl
@[simp] theorem State.unspecify_err (s : State) : s.unspecify.err = s.err := rfl
@[simp] theorem State.unspecify_klen (s : State) : s.unspecify.klen = s.klen := rfl
@[simp] theorem State.unspecify_ilen (s : State) : s.unspecify.ilen = s.ilen := rfl
@[simp] theorem State.unspecify_vlen (s : State) : s.unspecify.vlen = s.vlen := rfl
@[simp] theorem State.unspecify_dlen (s : State) : s.unspecify.dlen = s.dlen := rfl
@[simp] theorem State.unspecify_olen (s : State) : s.unspecify.olen = s.olen := rfl
@[simp] theorem State.unspecify_crc (s : State) : s.unspecify.crc = Config.freeCrc s.draws := rfl
@[simp] theorem State.unspecify_rdev (s : State) : s.unspecify.rdev = freeRdev s.draws := rfl
@[simp] theorem State.unspecify_keymem (s : State) : s.unspecify.keymem = s.keymem := rfl
@[simp] theorem State.unspecify_inbuf (s : State) : s.unspecify.inbuf = s.inbuf := rfl
@[simp] theorem State.unspecify_verbuf (s : State) : s.unspecify.verbuf = s.verbuf := rfl
@[simp] theorem State.unspecify_devbuf (s : State) : s.unspecify.devbuf = s.devbuf := rfl
@[simp] theorem State.unspecify_outbuf (s : State) : s.unspecify.outbuf = [] := rfl
@[simp] theorem State.unspecify_seq (s : State) : s.unspecify.seq = s.seq := rfl
@[simp] theorem State.unspecify_pos (s : State) : s.unspecify.pos = Config.freePos s.draws := rfl
@[simp] theorem State.unspecify_kidx (s : State) : s.unspecify.kidx = Config.freeKidx s.draws := rfl
@[simp] theorem State.unspecify_bitcnt (s : State) : s.unspecify.bitcnt = Config.freeBitcnt s.draws := rfl
@[simp] theorem State.unspecify_hnib (s : State) : s.unspecify.hnib = Config.freeHnib s.draws := rfl
@[simp] theorem State.unspecify_inputs (s : State) : s.unspecify.inputs = s.inputs := rfl
@[simp] theorem State.unspecify_rdata (s : State) : s.unspecify.rdata = s.rdata := rfl
@[simp] theorem State.unspecify_observed (s : State) : s.unspecify.observed = false := rfl
@[simp] theorem State.unspecify_busyLeft (s : State) : s.unspecify.busyLeft = s.busyLeft := rfl
@[simp] theorem State.unspecify_draws (s : State) : s.unspecify.draws = s.draws + 1 := rfl
@[simp] theorem State.unspecify_outSeed (s : State) : s.unspecify.outSeed = s.draws := rfl
@[simp] theorem State.unspecify_memSeed (s : State) : s.unspecify.memSeed = s.memSeed := rfl

/-! ### `State.startCommand` -/

@[simp] theorem State.startCommand_caps (s : State) (w : BitVec 8) : (s.startCommand w).caps = s.caps := rfl
@[simp] theorem State.startCommand_cmd (s : State) (w : BitVec 8) : (s.startCommand w).cmd = w := rfl
@[simp] theorem State.startCommand_status (s : State) (w : BitVec 8) : (s.startCommand w).status = statusWord false stBusy := rfl
@[simp] theorem State.startCommand_err (s : State) (w : BitVec 8) : (s.startCommand w).err = 0 := rfl
@[simp] theorem State.startCommand_klen (s : State) (w : BitVec 8) : (s.startCommand w).klen = s.klen := rfl
@[simp] theorem State.startCommand_ilen (s : State) (w : BitVec 8) : (s.startCommand w).ilen = s.ilen := rfl
@[simp] theorem State.startCommand_vlen (s : State) (w : BitVec 8) : (s.startCommand w).vlen = s.vlen := rfl
@[simp] theorem State.startCommand_dlen (s : State) (w : BitVec 8) : (s.startCommand w).dlen = s.dlen := rfl
@[simp] theorem State.startCommand_olen (s : State) (w : BitVec 8) : (s.startCommand w).olen = 0 := rfl
@[simp] theorem State.startCommand_crc (s : State) (w : BitVec 8) : (s.startCommand w).crc = Config.freeCrc s.draws := rfl
@[simp] theorem State.startCommand_rdev (s : State) (w : BitVec 8) : (s.startCommand w).rdev = freeRdev s.draws := rfl
@[simp] theorem State.startCommand_keymem (s : State) (w : BitVec 8) : (s.startCommand w).keymem = s.keymem := rfl
@[simp] theorem State.startCommand_inbuf (s : State) (w : BitVec 8) : (s.startCommand w).inbuf = s.inbuf := rfl
@[simp] theorem State.startCommand_verbuf (s : State) (w : BitVec 8) : (s.startCommand w).verbuf = s.verbuf := rfl
@[simp] theorem State.startCommand_devbuf (s : State) (w : BitVec 8) : (s.startCommand w).devbuf = s.devbuf := rfl
@[simp] theorem State.startCommand_outbuf (s : State) (w : BitVec 8) : (s.startCommand w).outbuf = [] := rfl
@[simp] theorem State.startCommand_seq (s : State) (w : BitVec 8) : (s.startCommand w).seq = .start := rfl
@[simp] theorem State.startCommand_pos (s : State) (w : BitVec 8) : (s.startCommand w).pos = Config.freePos s.draws := rfl
@[simp] theorem State.startCommand_kidx (s : State) (w : BitVec 8) : (s.startCommand w).kidx = Config.freeKidx s.draws := rfl
@[simp] theorem State.startCommand_bitcnt (s : State) (w : BitVec 8) : (s.startCommand w).bitcnt = Config.freeBitcnt s.draws := rfl
@[simp] theorem State.startCommand_hnib (s : State) (w : BitVec 8) : (s.startCommand w).hnib = Config.freeHnib s.draws := rfl
@[simp] theorem State.startCommand_inputs (s : State) (w : BitVec 8) : (s.startCommand w).inputs = s.inputs := rfl
@[simp] theorem State.startCommand_rdata (s : State) (w : BitVec 8) : (s.startCommand w).rdata = s.rdata := rfl
@[simp] theorem State.startCommand_observed (s : State) (w : BitVec 8) : (s.startCommand w).observed = false := rfl
@[simp] theorem State.startCommand_busyLeft (s : State) (w : BitVec 8) : (s.startCommand w).busyLeft = Config.busyTime s.draws := rfl
@[simp] theorem State.startCommand_draws (s : State) (w : BitVec 8) : (s.startCommand w).draws = s.draws + 1 := rfl
@[simp] theorem State.startCommand_outSeed (s : State) (w : BitVec 8) : (s.startCommand w).outSeed = s.draws := rfl
@[simp] theorem State.startCommand_memSeed (s : State) (w : BitVec 8) : (s.startCommand w).memSeed = s.memSeed := rfl

/-! ### `State.startedNow` -/

@[simp] theorem State.startedNow_caps (s : State) (w : BitVec 8) : (s.startedNow w).caps = s.caps := rfl
@[simp] theorem State.startedNow_cmd (s : State) (w : BitVec 8) : (s.startedNow w).cmd = w := rfl
@[simp] theorem State.startedNow_status (s : State) (w : BitVec 8) : (s.startedNow w).status = statusWord false stBusy := rfl
@[simp] theorem State.startedNow_err (s : State) (w : BitVec 8) : (s.startedNow w).err = 0 := rfl
@[simp] theorem State.startedNow_klen (s : State) (w : BitVec 8) : (s.startedNow w).klen = s.klen := rfl
@[simp] theorem State.startedNow_ilen (s : State) (w : BitVec 8) : (s.startedNow w).ilen = s.ilen := rfl
@[simp] theorem State.startedNow_vlen (s : State) (w : BitVec 8) : (s.startedNow w).vlen = s.vlen := rfl
@[simp] theorem State.startedNow_dlen (s : State) (w : BitVec 8) : (s.startedNow w).dlen = s.dlen := rfl
@[simp] theorem State.startedNow_olen (s : State) (w : BitVec 8) : (s.startedNow w).olen = 0 := rfl
@[simp] theorem State.startedNow_crc (s : State) (w : BitVec 8) : (s.startedNow w).crc = Config.freeCrc s.draws := rfl
@[simp] theorem State.startedNow_rdev (s : State) (w : BitVec 8) : (s.startedNow w).rdev = freeRdev s.draws := rfl
@[simp] theorem State.startedNow_keymem (s : State) (w : BitVec 8) : (s.startedNow w).keymem = s.keymem := rfl
@[simp] theorem State.startedNow_inbuf (s : State) (w : BitVec 8) : (s.startedNow w).inbuf = s.inbuf := rfl
@[simp] theorem State.startedNow_verbuf (s : State) (w : BitVec 8) : (s.startedNow w).verbuf = s.verbuf := rfl
@[simp] theorem State.startedNow_devbuf (s : State) (w : BitVec 8) : (s.startedNow w).devbuf = s.devbuf := rfl
@[simp] theorem State.startedNow_outbuf (s : State) (w : BitVec 8) : (s.startedNow w).outbuf = [] := rfl
@[simp] theorem State.startedNow_seq (s : State) (w : BitVec 8) : (s.startedNow w).seq = .start := rfl
@[simp] theorem State.startedNow_pos (s : State) (w : BitVec 8) : (s.startedNow w).pos = Config.freePos s.draws := rfl
@[simp] theorem State.startedNow_kidx (s : State) (w : BitVec 8) : (s.startedNow w).kidx = Config.freeKidx s.draws := rfl
@[simp] theorem State.startedNow_bitcnt (s : State) (w : BitVec 8) : (s.startedNow w).bitcnt = Config.freeBitcnt s.draws := rfl
@[simp] theorem State.startedNow_hnib (s : State) (w : BitVec 8) : (s.startedNow w).hnib = Config.freeHnib s.draws := rfl
@[simp] theorem State.startedNow_inputs (s : State) (w : BitVec 8) : (s.startedNow w).inputs = s.inputs := rfl
@[simp] theorem State.startedNow_rdata (s : State) (w : BitVec 8) : (s.startedNow w).rdata = s.rdata := rfl
@[simp] theorem State.startedNow_observed (s : State) (w : BitVec 8) : (s.startedNow w).observed = false := rfl
@[simp] theorem State.startedNow_busyLeft (s : State) (w : BitVec 8) : (s.startedNow w).busyLeft = 0 := rfl
@[simp] theorem State.startedNow_draws (s : State) (w : BitVec 8) : (s.startedNow w).draws = s.draws + 1 := rfl
@[simp] theorem State.startedNow_outSeed (s : State) (w : BitVec 8) : (s.startedNow w).outSeed = s.draws := rfl
@[simp] theorem State.startedNow_memSeed (s : State) (w : BitVec 8) : (s.startedNow w).memSeed = s.memSeed := rfl

/-! ### `State.complete` -/

@[simp] theorem State.complete_caps (s : State) (r : Result) : (s.complete r).caps = s.caps := rfl
@[simp] theorem State.complete_cmd (s : State) (r : Result) : (s.complete r).cmd = s.cmd := rfl
@[simp] theorem State.complete_status (s : State) (r : Result) : (s.complete r).status = statusWord r.csok stDoneOk := rfl
@[simp] theorem State.complete_err (s : State) (r : Result) : (s.complete r).err = 0 := rfl
@[simp] theorem State.complete_klen (s : State) (r : Result) : (s.complete r).klen = s.klen := rfl
@[simp] theorem State.complete_ilen (s : State) (r : Result) : (s.complete r).ilen = s.ilen := rfl
@[simp] theorem State.complete_vlen (s : State) (r : Result) : (s.complete r).vlen = s.vlen := rfl
@[simp] theorem State.complete_dlen (s : State) (r : Result) : (s.complete r).dlen = s.dlen := rfl
@[simp] theorem State.complete_olen (s : State) (r : Result) : (s.complete r).olen = r.olen := rfl
@[simp] theorem State.complete_crc (s : State) (r : Result) : (s.complete r).crc = r.crc.getD (Config.freeCrc s.draws) := rfl
@[simp] theorem State.complete_rdev (s : State) (r : Result) : (s.complete r).rdev = r.rdev.getD (freeRdev s.draws) := rfl
@[simp] theorem State.complete_keymem (s : State) (r : Result) : (s.complete r).keymem = s.keymem := rfl
@[simp] theorem State.complete_inbuf (s : State) (r : Result) : (s.complete r).inbuf = s.inbuf := rfl
@[simp] theorem State.complete_verbuf (s : State) (r : Result) : (s.complete r).verbuf = s.verbuf := rfl
@[simp] theorem State.complete_devbuf (s : State) (r : Result) : (s.complete r).devbuf = s.devbuf := rfl
@[simp] theorem State.complete_outbuf (s : State) (r : Result) : (s.complete r).outbuf = Memory.ofString r.out := rfl
@[simp] theorem State.complete_seq (s : State) (r : Result) : (s.complete r).seq = .idle := rfl
@[simp] theorem State.complete_pos (s : State) (r : Result) : (s.complete r).pos = Config.freePos s.draws := rfl
@[simp] theorem State.complete_kidx (s : State) (r : Result) : (s.complete r).kidx = Config.freeKidx s.draws := rfl
@[simp] theorem State.complete_bitcnt (s : State) (r : Result) : (s.complete r).bitcnt = Config.freeBitcnt s.draws := rfl
@[simp] theorem State.complete_hnib (s : State) (r : Result) : (s.complete r).hnib = Config.freeHnib s.draws := rfl
@[simp] theorem State.complete_inputs (s : State) (r : Result) : (s.complete r).inputs = s.inputs := rfl
@[simp] theorem State.complete_rdata (s : State) (r : Result) : (s.complete r).rdata = s.rdata := rfl
@[simp] theorem State.complete_observed (s : State) (r : Result) : (s.complete r).observed = false := rfl
@[simp] theorem State.complete_busyLeft (s : State) (r : Result) : (s.complete r).busyLeft = 0 := rfl
@[simp] theorem State.complete_draws (s : State) (r : Result) : (s.complete r).draws = s.draws + 1 := rfl
@[simp] theorem State.complete_outSeed (s : State) (r : Result) : (s.complete r).outSeed = s.draws := rfl
@[simp] theorem State.complete_memSeed (s : State) (r : Result) : (s.complete r).memSeed = s.memSeed := rfl

/-! ### `State.raiseError` -/

@[simp] theorem State.raiseError_caps (s : State) (k : ErrKind) : (s.raiseError k).caps = s.caps := rfl
@[simp] theorem State.raiseError_cmd (s : State) (k : ErrKind) : (s.raiseError k).cmd = s.cmd := rfl
@[simp] theorem State.raiseError_status (s : State) (k : ErrKind) : (s.raiseError k).status = statusWord false stDoneErr := rfl
@[simp] theorem State.raiseError_err (s : State) (k : ErrKind) : (s.raiseError k).err = k.code := rfl
@[simp] theorem State.raiseError_klen (s : State) (k : ErrKind) : (s.raiseError k).klen = s.klen := rfl
@[simp] theorem State.raiseError_ilen (s : State) (k : ErrKind) : (s.raiseError k).ilen = s.ilen := rfl
@[simp] theorem State.raiseError_vlen (s : State) (k : ErrKind) : (s.raiseError k).vlen = s.vlen := rfl
@[simp] theorem State.raiseError_dlen (s : State) (k : ErrKind) : (s.raiseError k).dlen = s.dlen := rfl
@[simp] theorem State.raiseError_olen (s : State) (k : ErrKind) : (s.raiseError k).olen = 0 := rfl
@[simp] theorem State.raiseError_crc (s : State) (k : ErrKind) : (s.raiseError k).crc = Config.freeCrc s.draws := rfl
@[simp] theorem State.raiseError_rdev (s : State) (k : ErrKind) : (s.raiseError k).rdev = freeRdev s.draws := rfl
@[simp] theorem State.raiseError_keymem (s : State) (k : ErrKind) : (s.raiseError k).keymem = s.keymem := rfl
@[simp] theorem State.raiseError_inbuf (s : State) (k : ErrKind) : (s.raiseError k).inbuf = s.inbuf := rfl
@[simp] theorem State.raiseError_verbuf (s : State) (k : ErrKind) : (s.raiseError k).verbuf = s.verbuf := rfl
@[simp] theorem State.raiseError_devbuf (s : State) (k : ErrKind) : (s.raiseError k).devbuf = s.devbuf := rfl
@[simp] theorem State.raiseError_outbuf (s : State) (k : ErrKind) : (s.raiseError k).outbuf = [] := rfl
@[simp] theorem State.raiseError_seq (s : State) (k : ErrKind) : (s.raiseError k).seq = .idle := rfl
@[simp] theorem State.raiseError_pos (s : State) (k : ErrKind) : (s.raiseError k).pos = Config.freePos s.draws := rfl
@[simp] theorem State.raiseError_kidx (s : State) (k : ErrKind) : (s.raiseError k).kidx = Config.freeKidx s.draws := rfl
@[simp] theorem State.raiseError_bitcnt (s : State) (k : ErrKind) : (s.raiseError k).bitcnt = Config.freeBitcnt s.draws := rfl
@[simp] theorem State.raiseError_hnib (s : State) (k : ErrKind) : (s.raiseError k).hnib = Config.freeHnib s.draws := rfl
@[simp] theorem State.raiseError_inputs (s : State) (k : ErrKind) : (s.raiseError k).inputs = s.inputs := rfl
@[simp] theorem State.raiseError_rdata (s : State) (k : ErrKind) : (s.raiseError k).rdata = s.rdata := rfl
@[simp] theorem State.raiseError_observed (s : State) (k : ErrKind) : (s.raiseError k).observed = false := rfl
@[simp] theorem State.raiseError_busyLeft (s : State) (k : ErrKind) : (s.raiseError k).busyLeft = 0 := rfl
@[simp] theorem State.raiseError_draws (s : State) (k : ErrKind) : (s.raiseError k).draws = s.draws + 1 := rfl
@[simp] theorem State.raiseError_outSeed (s : State) (k : ErrKind) : (s.raiseError k).outSeed = s.draws := rfl
@[simp] theorem State.raiseError_memSeed (s : State) (k : ErrKind) : (s.raiseError k).memSeed = s.memSeed := rfl

/-! ### `State.resetEvent` -/

@[simp] theorem State.resetEvent_caps (s : State) : s.resetEvent.caps = s.caps := rfl
@[simp] theorem State.resetEvent_cmd (s : State) : s.resetEvent.cmd = 0 := rfl
@[simp] theorem State.resetEvent_status (s : State) : s.resetEvent.status = 0 := rfl
@[simp] theorem State.resetEvent_err (s : State) : s.resetEvent.err = 0 := rfl
@[simp] theorem State.resetEvent_klen (s : State) : s.resetEvent.klen = 0 := rfl
@[simp] theorem State.resetEvent_ilen (s : State) : s.resetEvent.ilen = 0 := rfl
@[simp] theorem State.resetEvent_vlen (s : State) : s.resetEvent.vlen = 0 := rfl
@[simp] theorem State.resetEvent_dlen (s : State) : s.resetEvent.dlen = 0 := rfl
@[simp] theorem State.resetEvent_olen (s : State) : s.resetEvent.olen = 0 := rfl
@[simp] theorem State.resetEvent_crc (s : State) : s.resetEvent.crc = 0 := rfl
@[simp] theorem State.resetEvent_rdev (s : State) : s.resetEvent.rdev = freeRdev s.draws := rfl
@[simp] theorem State.resetEvent_keymem (s : State) : s.resetEvent.keymem = [] := rfl
@[simp] theorem State.resetEvent_inbuf (s : State) : s.resetEvent.inbuf = [] := rfl
@[simp] theorem State.resetEvent_verbuf (s : State) : s.resetEvent.verbuf = [] := rfl
@[simp] theorem State.resetEvent_devbuf (s : State) : s.resetEvent.devbuf = [] := rfl
@[simp] theorem State.resetEvent_outbuf (s : State) : s.resetEvent.outbuf = [] := rfl
@[simp] theorem State.resetEvent_seq (s : State) : s.resetEvent.seq = .idle := rfl
@[simp] theorem State.resetEvent_pos (s : State) : s.resetEvent.pos = Config.freePos s.draws := rfl
@[simp] theorem State.resetEvent_kidx (s : State) : s.resetEvent.kidx = Config.freeKidx s.draws := rfl
@[simp] theorem State.resetEvent_bitcnt (s : State) : s.resetEvent.bitcnt = Config.freeBitcnt s.draws := rfl
@[simp] theorem State.resetEvent_hnib (s : State) : s.resetEvent.hnib = Config.freeHnib s.draws := rfl
@[simp] theorem State.resetEvent_inputs (s : State) : s.resetEvent.inputs = s.inputs := rfl
@[simp] theorem State.resetEvent_rdata (s : State) : s.resetEvent.rdata = s.rdata := rfl
@[simp] theorem State.resetEvent_observed (s : State) : s.resetEvent.observed = false := rfl
@[simp] theorem State.resetEvent_busyLeft (s : State) : s.resetEvent.busyLeft = 0 := rfl
@[simp] theorem State.resetEvent_draws (s : State) : s.resetEvent.draws = s.draws + 1 := rfl
@[simp] theorem State.resetEvent_outSeed (s : State) : s.resetEvent.outSeed = s.draws := rfl
@[simp] theorem State.resetEvent_memSeed (s : State) : s.resetEvent.memSeed = s.draws := rfl

/-! ### `State.hostRead` -/

@[simp] theorem State.hostRead_caps (s : State) (v : Nat) (b : Bool) : (s.hostRead v b).caps = s.caps := rfl
@[simp] theorem State.hostRead_cmd (s : State) (v : Nat) (b : Bool) : (s.hostRead v b).cmd = s.cmd := rfl
@[simp] theorem State.hostRead_status (s : State) (v : Nat) (b : Bool) : (s.hostRead v b).status = s.status := rfl
@[simp] theorem State.hostRead_err (s : State) (v : Nat) (b : Bool) : (s.hostRead v b).err = s.err := rfl
@[simp] theorem State.hostRead_klen (s : State) (v : Nat) (b : Bool) : (s.hostRead v b).klen = s.klen := rfl
@[simp] theorem State.hostRead_ilen (s : State) (v : Nat) (b : Bool) : (s.hostRead v b).ilen = s.ilen := rfl
@[simp] theorem State.hostRead_vlen (s : State) (v : Nat) (b : Bool) : (s.hostRead v b).vlen = s.vlen := rfl
@[simp] theorem State.hostRead_dlen (s : State) (v : Nat) (b : Bool) : (s.hostRead v b).dlen = s.dlen := rfl
@[simp] theorem State.hostRead_olen (s : State) (v : Nat) (b : Bool) : (s.hostRead v b).olen = s.olen := rfl
@[simp] theorem State.hostRead_crc (s : State) (v : Nat) (b : Bool) : (s.hostRead v b).crc = s.crc := rfl
@[simp] theorem State.hostRead_rdev (s : State) (v : Nat) (b : Bool) : (s.hostRead v b).rdev = s.rdev := rfl
@[simp] theorem State.hostRead_keymem (s : State) (v : Nat) (b : Bool) : (s.hostRead v b).keymem = s.keymem := rfl
@[simp] theorem State.hostRead_inbuf (s : State) (v : Nat) (b : Bool) : (s.hostRead v b).inbuf = s.inbuf := rfl
@[simp] theorem State.hostRead_verbuf (s : State) (v : Nat) (b : Bool) : (s.hostRead v b).verbuf = s.verbuf := rfl
@[simp] theorem State.hostRead_devbuf (s : State) (v : Nat) (b : Bool) : (s.hostRead v b).devbuf = s.devbuf := rfl
@[simp] theorem State.hostRead_outbuf (s : State) (v : Nat) (b : Bool) : (s.hostRead v b).outbuf = s.outbuf := rfl
@[simp] theorem State.hostRead_seq (s : State) (v : Nat) (b : Bool) : (s.hostRead v b).seq = s.seq := rfl
@[simp] theorem State.hostRead_pos (s : State) (v : Nat) (b : Bool) : (s.hostRead v b).pos = s.pos := rfl
@[simp] theorem State.hostRead_kidx (s : State) (v : Nat) (b : Bool) : (s.hostRead v b).kidx = s.kidx := rfl
@[simp] theorem State.hostRead_bitcnt (s : State) (v : Nat) (b : Bool) : (s.hostRead v b).bitcnt = s.bitcnt := rfl
@[simp] theorem State.hostRead_hnib (s : State) (v : Nat) (b : Bool) : (s.hostRead v b).hnib = s.hnib := rfl
@[simp] theorem State.hostRead_inputs (s : State) (v : Nat) (b : Bool) : (s.hostRead v b).inputs = s.inputs := rfl
@[simp] theorem State.hostRead_rdata (s : State) (v : Nat) (b : Bool) : (s.hostRead v b).rdata = v := rfl
@[simp] theorem State.hostRead_observed (s : State) (v : Nat) (b : Bool) : (s.hostRead v b).observed = (s.observed || (b && s.done)) := rfl
@[simp] theorem State.hostRead_busyLeft (s : State) (v : Nat) (b : Bool) : (s.hostRead v b).busyLeft = s.busyLeft := rfl
@[simp] theorem State.hostRead_draws (s : State) (v : Nat) (b : Bool) : (s.hostRead v b).draws = s.draws + 1 := rfl
@[simp] theorem State.hostRead_outSeed (s : State) (v : Nat) (b : Bool) : (s.hostRead v b).outSeed = s.outSeed := rfl
@[simp] theorem State.hostRead_memSeed (s : State) (v : Nat) (b : Bool) : (s.hostRead v b).memSeed = s.memSeed := rfl
@[simp] theorem State.hostRead_st (s : State) (v : Nat) (b : Bool) : (s.hostRead v b).st = s.st := rfl
@[simp] theorem State.hostRead_csok (s : State) (v : Nat) (b : Bool) : (s.hostRead v b).csok = s.csok := rfl
@[simp] theorem State.hostRead_busy (s : State) (v : Nat) (b : Bool) : (s.hostRead v b).busy = s.busy := rfl
@[simp] theorem State.hostRead_done (s : State) (v : Nat) (b : Bool) : (s.hostRead v b).done = s.done := rfl

/-! ### The spaces by name -/

@[simp] theorem State.buf_keymem (s : State) : s.buf .keymem = s.keymem := rfl
@[simp] theorem State.buf_inbuf (s : State) : s.buf .inbuf = s.inbuf := rfl
@[simp] theorem State.buf_verbuf (s : State) : s.buf .verbuf = s.verbuf := rfl
@[simp] theorem State.buf_devbuf (s : State) : s.buf .devbuf = s.devbuf := rfl
@[simp] theorem State.buf_outbuf (s : State) : s.buf .outbuf = s.outbuf := rfl
@[simp] theorem State.len_keymem (s : State) : s.len .keymem = s.klen := rfl
@[simp] theorem State.len_inbuf (s : State) : s.len .inbuf = s.ilen := rfl
@[simp] theorem State.len_verbuf (s : State) : s.len .verbuf = s.vlen := rfl
@[simp] theorem State.len_devbuf (s : State) : s.len .devbuf = s.dlen := rfl
@[simp] theorem State.len_outbuf (s : State) : s.len .outbuf = s.olen := rfl

/-! ### The status fields -/

@[simp] theorem st_statusWord (c : Bool) (st : BitVec 2) : (statusWord c st).extractLsb' 0 2 = st := by
  revert c st; decide
@[simp] theorem csok_statusWord (c : Bool) (st : BitVec 2) : (statusWord c st).getLsbD 2 = c := by
  revert c st; decide

/-- A state with a given status word has its `ST`. -/
theorem State.st_of_status {s : State} {c : Bool} {st : BitVec 2} (h : s.status = statusWord c st) : s.st = st := by
  simp [State.st, h]

/-- A state with a given status word has its `CSOK`. -/
theorem State.csok_of_status {s : State} {c : Bool} {st : BitVec 2} (h : s.status = statusWord c st) : s.csok = c := by
  rw [State.csok, h]; exact csok_statusWord c st

@[simp] theorem State.startCommand_st (s : State) (w : BitVec 8) : (s.startCommand w).st = stBusy := State.st_of_status rfl
@[simp] theorem State.startCommand_csok (s : State) (w : BitVec 8) : (s.startCommand w).csok = false :=
  State.csok_of_status rfl
@[simp] theorem State.startCommand_busy (s : State) (w : BitVec 8) : (s.startCommand w).busy = true := by
  simp [State.busy]
@[simp] theorem State.startedNow_st (s : State) (w : BitVec 8) : (s.startedNow w).st = stBusy := State.st_of_status rfl
@[simp] theorem State.startedNow_busy (s : State) (w : BitVec 8) : (s.startedNow w).busy = true := by
  simp [State.busy]
@[simp] theorem State.complete_st (s : State) (r : Result) : (s.complete r).st = stDoneOk := State.st_of_status rfl
@[simp] theorem State.complete_csok (s : State) (r : Result) : (s.complete r).csok = r.csok := State.csok_of_status rfl
@[simp] theorem State.complete_busy (s : State) (r : Result) : (s.complete r).busy = false := by
  simp [State.busy]; decide
@[simp] theorem State.raiseError_st (s : State) (k : ErrKind) : (s.raiseError k).st = stDoneErr := State.st_of_status rfl
@[simp] theorem State.raiseError_csok (s : State) (k : ErrKind) : (s.raiseError k).csok = false :=
  State.csok_of_status rfl
@[simp] theorem State.raiseError_busy (s : State) (k : ErrKind) : (s.raiseError k).busy = false := by
  simp [State.busy]; decide
@[simp] theorem State.resetEvent_st (s : State) : s.resetEvent.st = stIdle := rfl
@[simp] theorem State.resetEvent_csok (s : State) : s.resetEvent.csok = false := by
  simp [State.csok]
@[simp] theorem State.resetEvent_busy (s : State) : s.resetEvent.busy = false := rfl

/-- What `done` says (43_command_interface.md R170). -/
theorem State.done_iff (s : State) : s.done = true ↔ s.st = stDoneOk ∨ s.st = stDoneErr := by simp [State.done]

/-- A command's end with success is a `done` the host has not observed. -/
@[simp] theorem State.complete_unobserved (s : State) (r : Result) : (s.complete r).unobserved = true := by
  simp [State.unobserved, State.done]

/-- A command's end with an error is a `done` the host has not observed. -/
@[simp] theorem State.raiseError_unobserved (s : State) (k : ErrKind) : (s.raiseError k).unobserved = true := by
  simp [State.unobserved, State.done]

/-- `busy` says `ST = BUSY`. -/
theorem State.busy_iff (s : State) : s.busy = true ↔ s.st = stBusy := by simp [State.busy]

/-- No error kind has code 0 (10_state.md R30). -/
@[simp] theorem ErrKind.code_ne_zero (k : ErrKind) : k.code ≠ 0 := by cases k <;> decide

/-- The codes of the error kinds tell them apart. -/
theorem ErrKind.code_injective {k k' : ErrKind} (h : k.code = k'.code) : k = k' := by
  revert h; cases k <;> cases k' <;> decide

/-! ### One character written to one space -/

@[simp] theorem State.writeBuf_buf_self (s : State) (x : Space) (i : Nat) (v : Chr) :
    (s.writeBuf x i v).buf x = Memory.write (s.buf x) i v := by cases x <;> rfl

theorem State.writeBuf_buf_other (s : State) {x y : Space} (i : Nat) (v : Chr) (h : y ≠ x) :
    (s.writeBuf x i v).buf y = s.buf y := by cases x <;> cases y <;> first | rfl | exact absurd rfl h

@[simp] theorem State.writeBuf_caps (s : State) (x : Space) (i : Nat) (v : Chr) : (s.writeBuf x i v).caps = s.caps := by cases x <;> rfl
@[simp] theorem State.writeBuf_cmd (s : State) (x : Space) (i : Nat) (v : Chr) : (s.writeBuf x i v).cmd = s.cmd := by cases x <;> rfl
@[simp] theorem State.writeBuf_status (s : State) (x : Space) (i : Nat) (v : Chr) : (s.writeBuf x i v).status = s.status := by cases x <;> rfl
@[simp] theorem State.writeBuf_err (s : State) (x : Space) (i : Nat) (v : Chr) : (s.writeBuf x i v).err = s.err := by cases x <;> rfl
@[simp] theorem State.writeBuf_klen (s : State) (x : Space) (i : Nat) (v : Chr) : (s.writeBuf x i v).klen = s.klen := by cases x <;> rfl
@[simp] theorem State.writeBuf_ilen (s : State) (x : Space) (i : Nat) (v : Chr) : (s.writeBuf x i v).ilen = s.ilen := by cases x <;> rfl
@[simp] theorem State.writeBuf_vlen (s : State) (x : Space) (i : Nat) (v : Chr) : (s.writeBuf x i v).vlen = s.vlen := by cases x <;> rfl
@[simp] theorem State.writeBuf_dlen (s : State) (x : Space) (i : Nat) (v : Chr) : (s.writeBuf x i v).dlen = s.dlen := by cases x <;> rfl
@[simp] theorem State.writeBuf_olen (s : State) (x : Space) (i : Nat) (v : Chr) : (s.writeBuf x i v).olen = s.olen := by cases x <;> rfl
@[simp] theorem State.writeBuf_crc (s : State) (x : Space) (i : Nat) (v : Chr) : (s.writeBuf x i v).crc = s.crc := by cases x <;> rfl
@[simp] theorem State.writeBuf_rdev (s : State) (x : Space) (i : Nat) (v : Chr) : (s.writeBuf x i v).rdev = s.rdev := by cases x <;> rfl
@[simp] theorem State.writeBuf_seq (s : State) (x : Space) (i : Nat) (v : Chr) : (s.writeBuf x i v).seq = s.seq := by cases x <;> rfl
@[simp] theorem State.writeBuf_pos (s : State) (x : Space) (i : Nat) (v : Chr) : (s.writeBuf x i v).pos = s.pos := by cases x <;> rfl
@[simp] theorem State.writeBuf_kidx (s : State) (x : Space) (i : Nat) (v : Chr) : (s.writeBuf x i v).kidx = s.kidx := by cases x <;> rfl
@[simp] theorem State.writeBuf_bitcnt (s : State) (x : Space) (i : Nat) (v : Chr) : (s.writeBuf x i v).bitcnt = s.bitcnt := by cases x <;> rfl
@[simp] theorem State.writeBuf_hnib (s : State) (x : Space) (i : Nat) (v : Chr) : (s.writeBuf x i v).hnib = s.hnib := by cases x <;> rfl
@[simp] theorem State.writeBuf_inputs (s : State) (x : Space) (i : Nat) (v : Chr) : (s.writeBuf x i v).inputs = s.inputs := by cases x <;> rfl
@[simp] theorem State.writeBuf_rdata (s : State) (x : Space) (i : Nat) (v : Chr) : (s.writeBuf x i v).rdata = s.rdata := by cases x <;> rfl
@[simp] theorem State.writeBuf_observed (s : State) (x : Space) (i : Nat) (v : Chr) : (s.writeBuf x i v).observed = s.observed := by cases x <;> rfl
@[simp] theorem State.writeBuf_busyLeft (s : State) (x : Space) (i : Nat) (v : Chr) : (s.writeBuf x i v).busyLeft = s.busyLeft := by cases x <;> rfl
@[simp] theorem State.writeBuf_draws (s : State) (x : Space) (i : Nat) (v : Chr) : (s.writeBuf x i v).draws = s.draws := by cases x <;> rfl
@[simp] theorem State.writeBuf_outSeed (s : State) (x : Space) (i : Nat) (v : Chr) : (s.writeBuf x i v).outSeed = s.outSeed := by cases x <;> rfl
@[simp] theorem State.writeBuf_memSeed (s : State) (x : Space) (i : Nat) (v : Chr) : (s.writeBuf x i v).memSeed = s.memSeed := by cases x <;> rfl

end Sys2Proof.Machine
end

