-- ==== Sys2Proof/Laws/Passes.lean ====
section
/-!
SUPPORT. One law per shared operation of the units: what each loop answers when the characters it reads are written, what
its answers always look like, and where it can fault.
-/

namespace Sys2Proof.Machine

/-! ### Reading one character -/

theorem State.readChar_some {s : State} {x : Space} {i : Nat} {c : Chr} (h : Memory.read (s.buf x) i = some c) :
    s.readChar x i = .ok c := by simp [State.readChar, h]

theorem State.readChar_none {s : State} {x : Space} {i : Nat} (h : Memory.read (s.buf x) i = none) :
    s.readChar x i = .error (.fault (.unwrittenChar x i)) := by simp [State.readChar, h]

/-- What the read of one character can answer. -/
theorem State.readChar_cases (s : State) (x : Space) (i : Nat) :
    (∃ c, Memory.read (s.buf x) i = some c ∧ s.readChar x i = .ok c) ∨
    (Memory.read (s.buf x) i = none ∧ s.readChar x i = .error (.fault (.unwrittenChar x i))) := by
  cases h : Memory.read (s.buf x) i with
  | none => exact .inr ⟨rfl, State.readChar_none h⟩
  | some c => exact .inl ⟨c, rfl, State.readChar_some h⟩

/-! ### The digits -/

theorem digchk_of_hexval {c : Chr} {v : Nibble} (h : hexval c = some v) : digchk c = .ok v := by simp [digchk, h]

theorem digchk_of_none {c : Chr} (h : hexval c = none) : digchk c = .error (.raise .malformedInput) := by
  simp [digchk, h]

/-- `HEXDEC` is `byte(c0, c1)`, or raises `MalformedInput`. -/
theorem hexdec_eq (c0 c1 : Chr) :
    hexdec c0 c1 = match hexByte c0 c1 with
      | some b => .ok b
      | none => .error (.raise .malformedInput) := by
  unfold hexdec hexByte digchk
  cases hexval c0 <;> cases hexval c1 <;> rfl

theorem hexval_hexdig : ∀ n : Nibble, hexval (hexdig n) = some n := by decide

theorem fold_hexdig : ∀ n : Nibble, fold (hexdig n) = hexdig n := by decide

theorem hiNibble_append_loNibble : ∀ b : Chr, hiNibble b ++ loNibble b = b := by decide

theorem hiNibble_append : ∀ h l : Nibble, hiNibble (h ++ l) = h := by decide

theorem loNibble_append : ∀ h l : Nibble, loNibble (h ++ l) = l := by decide

theorem hexdig_of_hexval : ∀ c : Chr, ∀ v, hexval c = some v → hexdig v = fold c := by decide

/-- A byte's pair spells the byte. -/
@[simp] theorem hexByte_pair (b : Chr) : hexByte (hexdig (hiNibble b)) (hexdig (loNibble b)) = some b := by
  simp [hexByte, hexval_hexdig, hiNibble_append_loNibble]

/-- Two digits spell a byte whose pair is the two digits in capitals. -/
theorem pair_of_hexByte {c0 c1 b : Chr} (h : hexByte c0 c1 = some b) : pair b = [fold c0, fold c1] := by
  unfold hexByte at h
  cases h0 : hexval c0 with
  | none => simp [h0] at h
  | some v0 =>
    cases h1 : hexval c1 with
    | none => simp [h0, h1] at h
    | some v1 =>
      simp only [h0, h1, Option.some.injEq] at h
      subst h
      simp [pair, hiNibble_append, loNibble_append, hexdig_of_hexval _ _ h0, hexdig_of_hexval _ _ h1]

@[simp] theorem pair_length (b : Chr) : (pair b).length = 2 := rfl

@[simp] theorem hexText_length (d : List Chr) : (hexText d).length = 2 * d.length := by
  induction d with
  | nil => rfl
  | cons b d ih => simp only [hexText, List.flatMap_cons, List.length_append, pair_length, List.length_cons] at *; omega

theorem hexText_cons (b : Chr) (d : List Chr) : hexText (b :: d) = pair b ++ hexText d := rfl

@[simp] theorem toHex4_length (v : CrcWord) : (toHex4 v).length = 4 := rfl

/-! ### The key index -/

/-- `KIDX` is the position mod `KLEN` (10_state.md R23): the wrapping counter and the remainder move together. -/
theorem nextKidx_mod {klen : Nat} (h : klen ≠ 0) (i : Nat) : nextKidx klen (i % klen) = (i + 1) % klen := by
  have hlt := Nat.mod_lt i (Nat.pos_of_ne_zero h)
  have hi : i + 1 = klen * (i / klen) + (i % klen + 1) := by have := Nat.div_add_mod i klen; omega
  rw [hi, Nat.mul_add_mod, nextKidx]
  split
  · next e => rw [e, Nat.mod_self]
  · exact (Nat.mod_eq_of_lt (by omega)).symm

theorem nextKidx_lt {klen kidx : Nat} (h : kidx < klen) : nextKidx klen kidx < klen := by
  unfold nextKidx; split <;> omega

/-! ### What the loops answer -/

/-- An encode pass answers two characters for each position, or faults on a character it reads. -/
theorem encPass_cases (s : State) (n i kidx : Nat) (hk : kidx < s.klen) :
    (∃ out, encPass s n i kidx = .ok out ∧ out.length = 2 * n) ∨
    (∃ x j, encPass s n i kidx = .error (.fault (.unwrittenChar x j)) ∧ Memory.read (s.buf x) j = none ∧
      ((x = .inbuf ∧ j < i + n) ∨ (x = .keymem ∧ j < s.klen))) := by
  induction n generalizing i kidx with
  | zero => exact .inl ⟨[], rfl, rfl⟩
  | succ n ih =>
    rcases State.readChar_cases s .inbuf i with ⟨t, -, ht⟩ | ⟨hn, ht⟩
    · rcases State.readChar_cases s .keymem kidx with ⟨k, -, hk'⟩ | ⟨hn, hk'⟩
      · have hk2 := nextKidx_lt hk
        rcases ih (i + 1) _ hk2 with ⟨out, ho, hl⟩ | ⟨x, j, he, hr, hx⟩
        · exact .inl ⟨pair (xorb t k) ++ out, by simp [encPass, ht, hk', ho, bind, Except.bind, pure, Except.pure],
            by simp [hl]; omega⟩
        · exact .inr ⟨x, j, by simp [encPass, ht, hk', he, bind, Except.bind], hr, hx.imp (And.imp id (by omega)) id⟩
      · exact .inr ⟨.keymem, kidx, by simp [encPass, ht, hk', bind, Except.bind], hn, .inr ⟨rfl, hk⟩⟩
    · exact .inr ⟨.inbuf, i, by simp [encPass, ht, bind, Except.bind], hn, .inl ⟨rfl, by omega⟩⟩

/-- A decode pass answers one character for each pair, or raises `MalformedInput`, or faults on a character it reads. -/
theorem decPass_cases (s : State) (n p kidx : Nat) (hk : kidx < s.klen) :
    (∃ out, decPass s n p kidx = .ok out ∧ out.length = n) ∨
    decPass s n p kidx = .error (.raise .malformedInput) ∨
    (∃ x j, decPass s n p kidx = .error (.fault (.unwrittenChar x j)) ∧ Memory.read (s.buf x) j = none ∧
      ((x = .inbuf ∧ j < p + 2 * n) ∨ (x = .keymem ∧ j < s.klen))) := by
  induction n generalizing p kidx with
  | zero => exact .inl ⟨[], rfl, rfl⟩
  | succ n ih =>
    rcases State.readChar_cases s .inbuf p with ⟨c0, -, h0⟩ | ⟨hn, h0⟩
    · rcases State.readChar_cases s .inbuf (p + 1) with ⟨c1, -, h1⟩ | ⟨hn, h1⟩
      · cases hb : hexByte c0 c1 with
        | none => exact .inr (.inl (by simp [decPass, h0, h1, hexdec_eq, hb, bind, Except.bind]))
        | some b =>
          rcases State.readChar_cases s .keymem kidx with ⟨k, -, hk'⟩ | ⟨hn, hk'⟩
          · have hk2 := nextKidx_lt hk
            rcases ih (p + 2) _ hk2 with ⟨out, ho, hl⟩ | hm | ⟨x, j, he, hr, hx⟩
            · exact .inl ⟨xorb b k :: out,
                by simp [decPass, h0, h1, hexdec_eq, hb, hk', ho, bind, Except.bind, pure, Except.pure], by simp [hl]⟩
            · exact .inr (.inl (by simp [decPass, h0, h1, hexdec_eq, hb, hk', hm, bind, Except.bind]))
            · exact .inr (.inr ⟨x, j, by simp [decPass, h0, h1, hexdec_eq, hb, hk', he, bind, Except.bind], hr,
              hx.imp (And.imp id (by omega)) id⟩)
          · exact .inr (.inr ⟨.keymem, kidx, by simp [decPass, h0, h1, hexdec_eq, hb, hk', bind, Except.bind], hn,
              .inr ⟨rfl, hk⟩⟩)
      · exact .inr (.inr ⟨.inbuf, p + 1, by simp [decPass, h0, h1, bind, Except.bind], hn, .inl ⟨rfl, by omega⟩⟩)
    · exact .inr (.inr ⟨.inbuf, p, by simp [decPass, h0, bind, Except.bind], hn, .inl ⟨rfl, by omega⟩⟩)

/-- A checksum pass answers a value, or faults on a character it reads. -/
theorem crcPass_cases (s : State) (n i : Nat) (x : CrcWord) :
    (∃ v, crcPass s n i x = .ok v) ∨
    (∃ j, crcPass s n i x = .error (.fault (.unwrittenChar .inbuf j)) ∧ Memory.read s.inbuf j = none ∧ j < i + n) := by
  induction n generalizing i x with
  | zero => exact .inl ⟨x, rfl⟩
  | succ n ih =>
    rcases State.readChar_cases s .inbuf i with ⟨c, -, hc⟩ | ⟨hn, hc⟩
    · rcases ih (i + 1) (crcByte x c) with ⟨v, hv⟩ | ⟨j, he, hr, hj⟩
      · exact .inl ⟨v, by simp [crcPass, hc, hv, bind, Except.bind]⟩
      · exact .inr ⟨j, by simp [crcPass, hc, he, bind, Except.bind], hr, by omega⟩
    · exact .inr ⟨i, by simp [crcPass, hc, bind, Except.bind], hn, by omega⟩

/-- Reading a span answers that many characters, or faults on one of them. -/
theorem readSpan_cases (s : State) (x : Space) (n i : Nat) :
    (∃ str, readSpan s x n i = .ok str ∧ str.length = n) ∨
    (∃ j, readSpan s x n i = .error (.fault (.unwrittenChar x j)) ∧ Memory.read (s.buf x) j = none ∧ j < i + n) := by
  induction n generalizing i with
  | zero => exact .inl ⟨[], rfl, rfl⟩
  | succ n ih =>
    rcases State.readChar_cases s x i with ⟨c, -, hc⟩ | ⟨hn, hc⟩
    · rcases ih (i + 1) with ⟨str, hv, hl⟩ | ⟨j, he, hr, hj⟩
      · exact .inl ⟨c :: str, by simp [readSpan, hc, hv, bind, Except.bind, pure, Except.pure], by simp [hl]⟩
      · exact .inr ⟨j, by simp [readSpan, hc, he, bind, Except.bind], hr, by omega⟩
    · exact .inr ⟨i, by simp [readSpan, hc, bind, Except.bind], hn, by omega⟩

/-- A comparison passes, or raises its error kind, or faults on a character it reads. -/
theorem compareChars_cases (s : State) (f : Chr → Chr) (k : ErrKind) (i : Nat) (es : List Chr) :
    compareChars s f k i es = .ok () ∨ compareChars s f k i es = .error (.raise k) ∨
    (∃ j, compareChars s f k i es = .error (.fault (.unwrittenChar .inbuf j)) ∧ Memory.read s.inbuf j = none ∧
      j < i + es.length) := by
  induction es generalizing i with
  | nil => exact .inl rfl
  | cons e es ih =>
    rcases State.readChar_cases s .inbuf i with ⟨c, -, hc⟩ | ⟨hn, hc⟩
    · by_cases he : f c = e
      · rcases ih (i + 1) with h | h | ⟨j, h, hr, hj⟩
        · exact .inl (by simp [compareChars, hc, he, h, bind, Except.bind])
        · exact .inr (.inl (by simp [compareChars, hc, he, h, bind, Except.bind]))
        · exact .inr (.inr ⟨j, by simp [compareChars, hc, he, h, bind, Except.bind], hr, by simp only [List.length_cons]; omega⟩)
      · exact .inr (.inl (by simp [compareChars, hc, he, bind, Except.bind]))
    · exact .inr (.inr ⟨i, by simp [compareChars, hc, bind, Except.bind], hn, by simp only [List.length_cons]; omega⟩)

/-! ### What the loops answer on stored strings -/

/-- A span of a stored string is the string's slice. -/
theorem readSpan_of_stored {s : State} {x : Space} {str : List Chr} (n i : Nat)
    (h : ∀ j, i ≤ j → j < i + n → Memory.read (s.buf x) j = str[j]?) (hl : i + n ≤ str.length) :
    readSpan s x n i = .ok ((str.drop i).take n) := by
  induction n generalizing i with
  | zero => simp [readSpan]
  | succ n ih =>
    have hi : i < str.length := by omega
    have hc : s.readChar x i = .ok str[i] :=
      State.readChar_some (by rw [h i (by omega) (by omega), List.getElem?_eq_getElem hi])
    have := ih (i + 1) (fun j h1 h2 => h j (by omega) (by omega)) (by omega)
    rw [List.drop_eq_getElem_cons hi, List.take_succ_cons]
    simp [readSpan, hc, this, bind, Except.bind, pure, Except.pure]

/-- A checksum pass over a stored string folds `CRCBYTE` over the slice. -/
theorem crcPass_of_stored {s : State} {str : List Chr} (n i : Nat) (x : CrcWord)
    (h : ∀ j, i ≤ j → j < i + n → Memory.read s.inbuf j = str[j]?) (hl : i + n ≤ str.length) :
    crcPass s n i x = .ok (((str.drop i).take n).foldl crcByte x) := by
  induction n generalizing i x with
  | zero => simp [crcPass]
  | succ n ih =>
    have hi : i < str.length := by omega
    have hc : s.readChar .inbuf i = .ok str[i] :=
      State.readChar_some (by rw [State.buf_inbuf, h i (by omega) (by omega), List.getElem?_eq_getElem hi])
    have := ih (i + 1) (crcByte x str[i]) (fun j h1 h2 => h j (by omega) (by omega)) (by omega)
    rw [List.drop_eq_getElem_cons hi, List.take_succ_cons]
    simp [crcPass, hc, this, bind, Except.bind]

/-- A comparison with a stored string compares the slice. -/
theorem compareChars_of_stored {s : State} {str : List Chr} (f : Chr → Chr) (k : ErrKind) (i : Nat) (es : List Chr)
    (h : ∀ j, i ≤ j → j < i + es.length → Memory.read s.inbuf j = str[j]?) (hl : i + es.length ≤ str.length) :
    compareChars s f k i es =
      if ((str.drop i).take es.length).map f = es then .ok () else .error (.raise k) := by
  induction es generalizing i with
  | nil => simp [compareChars]
  | cons e es ih =>
    simp only [List.length_cons] at h hl
    have hi : i < str.length := by omega
    have hc : s.readChar .inbuf i = .ok str[i] :=
      State.readChar_some (by rw [State.buf_inbuf, h i (by omega) (by omega), List.getElem?_eq_getElem hi])
    have := ih (i + 1) (fun j h1 h2 => h j (by omega) (by omega)) (by omega)
    rw [List.length_cons, List.drop_eq_getElem_cons hi, List.take_succ_cons]
    by_cases he : f str[i] = e
    · simp [compareChars, hc, this, he, bind, Except.bind]
    · simp [compareChars, hc, he, bind, Except.bind]

end Sys2Proof.Machine
end

