-- ==== Sys2Proof/Laws/Functions.lean ====
section
/-!
SUPPORT. The laws that tie the command level's loops to the function level (00_scope.md R15): on stored operands each
operation answers what the source's function gives.
-/

namespace Sys2Proof.Machine

/-- The key stream from position `i` on. -/
def xorFrom (key : List Chr) (h : key.length ≠ 0) (i : Nat) (d : List Chr) : List Chr :=
  d.mapIdx (fun j c => xorb c (key[(i + j) % key.length]'(Nat.mod_lt _ (Nat.pos_of_ne_zero h))))

theorem xorFrom_zero (key : List Chr) (h : key.length ≠ 0) (d : List Chr) : xorFrom key h 0 d = xorWithKey d key h := by
  simp [xorFrom, xorWithKey]

@[simp] theorem xorFrom_nil (key : List Chr) (h : key.length ≠ 0) (i : Nat) : xorFrom key h i [] = [] := rfl

theorem xorFrom_cons (key : List Chr) (h : key.length ≠ 0) (i : Nat) (c : Chr) (d : List Chr) :
    xorFrom key h i (c :: d) =
      xorb c (key[i % key.length]'(Nat.mod_lt _ (Nat.pos_of_ne_zero h))) :: xorFrom key h (i + 1) d := by
  simp only [xorFrom, List.mapIdx_cons, Nat.add_zero]
  congr 1
  congr 1
  funext j c
  simp only [Nat.add_right_comm, Nat.add_assoc]

@[simp] theorem xorFrom_length (key : List Chr) (h : key.length ≠ 0) (i : Nat) (d : List Chr) :
    (xorFrom key h i d).length = d.length := by simp [xorFrom]

@[simp] theorem xorWithKey_length (text key : List Chr) (h : key.length ≠ 0) :
    (xorWithKey text key h).length = text.length := by simp [xorWithKey]

theorem xorb_xorb (a b : Chr) : xorb (xorb a b) b = a := by simp [xorb]

/-- The XOR stage undoes itself (40_cipher.md R113). -/
theorem xorWithKey_xorWithKey (text key : List Chr) (h : key.length ≠ 0) :
    xorWithKey (xorWithKey text key h) key h = text := by
  apply List.ext_getElem?
  intro i
  simp only [xorWithKey, List.getElem?_mapIdx, Option.map_map]
  cases text[i]? with
  | none => rfl
  | some c => simp [xorb_xorb]

theorem encryptToHex_of_ne {text key : List Chr} (h : key.length ≠ 0) :
    encryptToHex text key = .ok (hexText (xorWithKey text key h)) := by simp [encryptToHex, h]

theorem decryptFromHex_of_ne {hex key : List Chr} (h : key.length ≠ 0) :
    decryptFromHex hex key = match unhexText hex with
      | some d => .ok (xorWithKey d key h)
      | none => .error .malformedInput := by
  unfold decryptFromHex; rw [dif_neg h]; all_goals (cases unhexText hex <;> rfl)

/-- The hex text of a byte string spells it (30_encoding.md R78, R79). -/
@[simp] theorem unhexText_hexText (d : List Chr) : unhexText (hexText d) = some d := by
  induction d with
  | nil => rfl
  | cons b d ih => rw [hexText_cons]; simp [pair, unhexText, ih]

/-- A string that spells bytes has two characters a byte. -/
theorem length_of_unhexText {hex d : List Chr} (h : unhexText hex = some d) : hex.length = 2 * d.length := by
  induction hex using unhexText.induct generalizing d with
  | case1 => simp only [unhexText, Option.some.injEq] at h; subst h; rfl
  | case2 => simp [unhexText] at h
  | case3 c0 c1 rest b bs hbs hb ih =>
    simp only [unhexText, hb, hbs, Option.some.injEq] at h
    subst h
    simp only [List.length_cons, ih hbs]; omega
  | case4 c0 c1 rest hn ih =>
    simp only [unhexText] at h
    cases h

/-- Re-encoding what a string spells gives the string in capitals (40_cipher.md R113). -/
theorem hexText_of_unhexText {hex d : List Chr} (h : unhexText hex = some d) : hexText d = hex.map fold := by
  induction hex using unhexText.induct generalizing d with
  | case1 => simp only [unhexText, Option.some.injEq] at h; subst h; rfl
  | case2 => simp [unhexText] at h
  | case3 c0 c1 rest b bs hbs hb ih =>
    simp only [unhexText, hb, hbs, Option.some.injEq] at h
    subst h
    rw [hexText_cons, pair_of_hexByte hb, ih hbs]; rfl
  | case4 c0 c1 rest hn ih =>
    simp only [unhexText] at h
    cases h

/-- An odd number of characters spells nothing (40_cipher.md R107). -/
theorem unhexText_of_odd {hex : List Chr} (h : hex.length % 2 = 1) : unhexText hex = none := by
  cases hd : unhexText hex with
  | none => rfl
  | some d => have := length_of_unhexText hd; omega

/-- A character that is no hex digit spells nothing (40_cipher.md R109). -/
theorem unhexText_of_bad {hex : List Chr} {c : Chr} (hc : c ∈ hex) (hv : hexval c = none) : unhexText hex = none := by
  induction hex using unhexText.induct with
  | case1 => simp at hc
  | case2 => rfl
  | case3 c0 c1 rest b bs hbs hb ih =>
    simp only [List.mem_cons] at hc
    rcases hc with rfl | rfl | hc
    · simp [hexByte, hv] at hb
    · simp only [hexByte, hv] at hb; split at hb <;> simp_all
    · simp [ih hc] at hbs
  | case4 c0 c1 rest hn ih =>
    simp only [unhexText]

/-- An even number of hex digits spells a byte string. -/
theorem unhexText_isSome {hex : List Chr} (h : hex.length % 2 = 0) (hv : ∀ c ∈ hex, hexval c ≠ none) :
    ∃ d, unhexText hex = some d := by
  induction hex using unhexText.induct with
  | case1 => exact ⟨[], rfl⟩
  | case2 => simp at h
  | case3 c0 c1 rest b bs hbs hb ih => exact ⟨b :: bs, by simp [unhexText, hb, hbs]⟩
  | case4 c0 c1 rest hn ih =>
    obtain ⟨d, hd⟩ := ih (by simp only [List.length_cons] at h; omega) (fun c hc => hv c (by simp [hc]))
    obtain ⟨v0, h0⟩ := Option.ne_none_iff_exists'.1 (hv c0 (by simp))
    obtain ⟨v1, h1⟩ := Option.ne_none_iff_exists'.1 (hv c1 (by simp))
    exact absurd hd (hn (v0 ++ v1) d (by simp [hexByte, h0, h1]))

/-- An encode pass over a stored text, from position `i` of the key stream on. -/
theorem encPass_of_stored {s : State} {text key : List Chr} (h : key.length ≠ 0) (hk : key.length = s.klen) (n i : Nat)
    (ht : ∀ j, i ≤ j → j < i + n → Memory.read s.inbuf j = text[j]?) (hl : i + n ≤ text.length)
    (hkey : ∀ j, j < i + n → j < key.length → Memory.read s.keymem j = key[j]?) :
    encPass s n i (i % s.klen) = .ok (hexText (xorFrom key h i ((text.drop i).take n))) := by
  induction n generalizing i with
  | zero => simp [encPass, hexText]
  | succ n ih =>
    have hi : i < text.length := by omega
    have hm : i % key.length < key.length := Nat.mod_lt _ (Nat.pos_of_ne_zero h)
    have hle : i % key.length ≤ i := Nat.mod_le _ _
    have hc : s.readChar .inbuf i = .ok text[i] :=
      State.readChar_some (by rw [State.buf_inbuf, ht i (by omega) (by omega), List.getElem?_eq_getElem hi])
    have hkc : s.readChar .keymem (i % s.klen) = .ok key[i % key.length] :=
      State.readChar_some (by rw [State.buf_keymem, ← hk, hkey _ (by omega) hm, List.getElem?_eq_getElem hm])
    have hrec := ih (i + 1) (fun j h1 h2 => ht j (by omega) (by omega)) (by omega) (fun j h1 h2 => hkey j (by omega) h2)
    rw [List.drop_eq_getElem_cons hi, List.take_succ_cons, xorFrom_cons, hexText_cons]
    simp [encPass, hc, hkc, nextKidx_mod (hk ▸ h), hrec, bind, Except.bind, pure, Except.pure]

/-- A decode pass over a stored hex string that begins at `INBUF + base`, from pair `i` on. -/
theorem decPass_of_stored {s : State} {hex key : List Chr} (base : Nat) (h : key.length ≠ 0) (hk : key.length = s.klen)
    (n i : Nat) (ht : ∀ j, 2 * i ≤ j → j < 2 * i + 2 * n → Memory.read s.inbuf (base + j) = hex[j]?)
    (hl : 2 * i + 2 * n ≤ hex.length) (hkey : ∀ j, j < i + n → j < key.length → Memory.read s.keymem j = key[j]?) :
    decPass s n (base + 2 * i) (i % s.klen) =
      match unhexText ((hex.drop (2 * i)).take (2 * n)) with
      | some d => .ok (xorFrom key h i d)
      | none => .error (.raise .malformedInput) := by
  induction n generalizing i with
  | zero => simp [decPass, unhexText]
  | succ n ih =>
    have h0 : 2 * i < hex.length := by omega
    have h1 : 2 * i + 1 < hex.length := by omega
    have hm : i % key.length < key.length := Nat.mod_lt _ (Nat.pos_of_ne_zero h)
    have hle : i % key.length ≤ i := Nat.mod_le _ _
    have hc0 : s.readChar .inbuf (base + 2 * i) = .ok hex[2 * i] :=
      State.readChar_some (by rw [State.buf_inbuf, ht _ (by omega) (by omega), List.getElem?_eq_getElem h0])
    have hc1 : s.readChar .inbuf (base + 2 * i + 1) = .ok hex[2 * i + 1] :=
      State.readChar_some (by
        rw [State.buf_inbuf, Nat.add_assoc, ht _ (by omega) (by omega), List.getElem?_eq_getElem h1])
    have hkc : s.readChar .keymem (i % s.klen) = .ok key[i % key.length] :=
      State.readChar_some (by rw [State.buf_keymem, ← hk, hkey _ (by omega) hm, List.getElem?_eq_getElem hm])
    have hrec := ih (i + 1) (fun j h1 h2 => ht j (by omega) (by omega)) (by omega) (fun j h1 h2 => hkey j (by omega) h2)
    rw [show base + 2 * (i + 1) = base + 2 * i + 2 by omega, ← nextKidx_mod (hk ▸ h), show 2 * (i + 1) = 2 * i + 1 + 1 by omega]
      at hrec
    rw [List.drop_eq_getElem_cons h0, List.drop_eq_getElem_cons h1, show 2 * (n + 1) = 2 * n + 1 + 1 by omega,
      List.take_succ_cons, List.take_succ_cons]
    simp only [decPass, hc0, hc1, hexdec_eq, hkc, hrec, bind, Except.bind, pure, Except.pure, unhexText]
    cases hexByte hex[2 * i] hex[2 * i + 1] with
    | none => rfl
    | some b =>
      cases unhexText (List.take (2 * n) (List.drop (2 * i + 1 + 1) hex)) with
      | none => rfl
      | some d => simp [xorFrom_cons]

end Sys2Proof.Machine
end

