-- ==== Sys2Proof/Laws/Exec.lean ====
section
/-!
SUPPORT. What a command can do, said once for all six: the length check, then its operation, which answers a result of a
known shape, raises one of its error kinds, or faults on an operand character nobody wrote.  Every statement about "a
command" is a case analysis of `exec_cases`.
-/

namespace Sys2Proof.Machine

/-- The operation proper of each command. -/
def operation : Instr → State → Except Stop Result
  | .xenc => xencOperation
  | .xdec => xdecOperation
  | .crc16 => crc16Operation
  | .build => buildOperation
  | .buildS => buildSOperation
  | .parse => parseOperation

theorem exec_eq (i : Instr) (s : State) : exec i s = runCommand i s (operation i s) := by cases i <;> rfl

/-- The result length of each command that ends with success (10_state.md R33). -/
def resultLen : Instr → State → Nat
  | .xenc, s => 2 * s.ilen
  | .xdec, s => s.ilen / 2
  | .crc16, _ => 0
  | .build, s => 7 + s.vlen + s.dlen + 2 * s.ilen
  | .buildS, s => 7 + s.vlen + s.dlen + 2 * s.ilen
  | .parse, s => (s.ilen - 24) / 2

/-- The error kinds of each command's operation (60_exceptions.md R198 without `BadCommand`). -/
def operationKinds : Instr → List ErrKind
  | .xenc => [.invalidKey]
  | .xdec => [.invalidKey, .malformedInput]
  | .crc16 => []
  | .build => [.invalidKey]
  | .buildS => [.invalidField, .invalidKey]
  | .parse => [.tooShort, .badHeader, .checksumMismatch, .invalidKey, .malformedInput]

/-- A result of the shape command `i` leaves at state `s`. -/
structure Result.Fits (i : Instr) (s : State) (r : Result) : Prop where
  out : r.out.length = resultLen i s
  olen : r.olen = resultLen i s
  csok : r.csok = decide (i = .parse)
  crc : producesCrc i = true → r.crc.isSome
  rdev : i = .parse → r.rdev.isSome
  strict : i = .buildS → s.vlen = 1 ∧ s.dlen = 16

/-- A fault at state `s`: on an operand character below its length that nothing has written. -/
def Stop.Unwritten (s : State) (e : Stop) : Prop :=
  ∃ x j, e = .fault (.unwrittenChar x j) ∧ Memory.read (s.buf x) j = none ∧ x ≠ .outbuf ∧ j < s.len x

theorem keychk_cases (s : State) :
    (s.klen ≠ 0 ∧ keychk s = .ok ()) ∨ (s.klen = 0 ∧ keychk s = .error (.raise .invalidKey)) := by
  unfold keychk; split <;> simp_all

theorem pairchk_cases (n : Nat) :
    (n % 2 = 0 ∧ pairchk n = .ok ()) ∨ (n % 2 = 1 ∧ pairchk n = .error (.raise .malformedInput)) := by
  unfold pairchk; split
  · next h => exact .inr ⟨h, rfl⟩
  · exact .inl ⟨by omega, rfl⟩

theorem fldchk_cases (s : State) :
    ((s.vlen = 1 ∧ s.dlen = 16) ∧ fldchk s = .ok ()) ∨
    ((s.vlen ≠ 1 ∨ s.dlen ≠ 16) ∧ fldchk s = .error (.raise .invalidField)) := by
  unfold fldchk verLen devLen; split
  · next h => exact .inr ⟨h, rfl⟩
  · next h => exact .inl ⟨by omega, rfl⟩

theorem lenchk_cases (s : State) :
    (26 ≤ s.ilen ∧ lenchk s = .ok ()) ∨ (s.ilen < 26 ∧ lenchk s = .error (.raise .tooShort)) := by
  unfold lenchk minPktLen; split
  · next h => exact .inr ⟨h, rfl⟩
  · next h => exact .inl ⟨by omega, rfl⟩

/-- What `BUILD`'s operation can answer. -/
theorem buildOperation_cases (s : State) :
    (∃ r, buildOperation s = .ok r ∧ r.out.length = resultLen .build s ∧ r.olen = resultLen .build s ∧ r.csok = false ∧
      r.crc.isSome) ∨
    buildOperation s = .error (.raise .invalidKey) ∨
    (∃ e, buildOperation s = .error e ∧ e.Unwritten s) := by
  rcases keychk_cases s with ⟨hk, h⟩ | ⟨-, h⟩
  · rcases readSpan_cases s .verbuf s.vlen 0 with ⟨v, hv, lv⟩ | ⟨j, hv, hr, hj⟩
    · rcases readSpan_cases s .devbuf s.dlen 0 with ⟨d, hd, ld⟩ | ⟨j, hd, hr, hj⟩
      · rcases encPass_cases s s.ilen 0 0 (by omega) with ⟨p, hp, lp⟩ | ⟨x, j, hp, hr, hx⟩
        · refine .inl ⟨_, by simp only [buildOperation, h, hv, hd, hp, bind, Except.bind, pure, Except.pure]; rfl, ?_, rfl, rfl, rfl⟩
          simp [lv, ld, lp, resultLen, hdr]; omega
        · refine .inr (.inr ⟨_, by simp only [buildOperation, h, hv, hd, hp, bind, Except.bind], x, j, rfl, hr, ?_⟩)
          rcases hx with ⟨rfl, hj⟩ | ⟨rfl, hj⟩
          · exact ⟨by decide, by simpa using hj⟩
          · exact ⟨by decide, hj⟩
      · exact .inr (.inr ⟨_, by simp only [buildOperation, h, hv, hd, bind, Except.bind], .devbuf, j, rfl, hr, by decide,
          by simpa using hj⟩)
    · exact .inr (.inr ⟨_, by simp only [buildOperation, h, hv, bind, Except.bind], .verbuf, j, rfl, hr, by decide,
        by simpa using hj⟩)
  · exact .inr (.inl (by simp [buildOperation, h, bind, Except.bind]))

/-- What a command's operation can answer. -/
theorem operation_cases (i : Instr) (s : State) :
    (∃ r, operation i s = .ok r ∧ r.Fits i s) ∨
    (∃ k, operation i s = .error (.raise k) ∧ k ∈ operationKinds i) ∨
    (∃ e, operation i s = .error e ∧ e.Unwritten s) := by
  cases i with
  | xenc =>
    rcases keychk_cases s with ⟨hk, h⟩ | ⟨-, h⟩
    · rcases encPass_cases s s.ilen 0 0 (by omega) with ⟨p, hp, lp⟩ | ⟨x, j, hp, hr, hx⟩
      · exact .inl ⟨_, by simp only [operation, xencOperation, h, hp, bind, Except.bind, pure, Except.pure]; rfl,
          ⟨lp, rfl, rfl, nofun, nofun, nofun⟩⟩
      · refine .inr (.inr ⟨_, by simp only [operation, xencOperation, h, hp, bind, Except.bind], x, j, rfl, hr, ?_⟩)
        rcases hx with ⟨rfl, hj⟩ | ⟨rfl, hj⟩
        · exact ⟨by decide, by simpa using hj⟩
        · exact ⟨by decide, hj⟩
    · exact .inr (.inl ⟨.invalidKey, by simp only [operation, xencOperation, h, bind, Except.bind], by decide⟩)
  | xdec =>
    rcases keychk_cases s with ⟨hk, h⟩ | ⟨-, h⟩
    · rcases pairchk_cases s.ilen with ⟨hp2, hp⟩ | ⟨-, hp⟩
      · rcases decPass_cases s (s.ilen / 2) 0 0 (by omega) with ⟨p, hd, lp⟩ | hd | ⟨x, j, hd, hr, hx⟩
        · exact .inl ⟨_, by simp only [operation, xdecOperation, h, hp, hd, bind, Except.bind, pure, Except.pure]; rfl,
            ⟨lp, rfl, rfl, nofun, nofun, nofun⟩⟩
        · exact .inr (.inl ⟨.malformedInput, by simp only [operation, xdecOperation, h, hp, hd, bind, Except.bind], by decide⟩)
        · refine .inr (.inr ⟨_, by simp only [operation, xdecOperation, h, hp, hd, bind, Except.bind], x, j, rfl, hr, ?_⟩)
          rcases hx with ⟨rfl, hj⟩ | ⟨rfl, hj⟩
          · exact ⟨by decide, by simp only [State.len]; omega⟩
          · exact ⟨by decide, hj⟩
      · exact .inr (.inl ⟨.malformedInput, by simp only [operation, xdecOperation, h, hp, bind, Except.bind], by decide⟩)
    · exact .inr (.inl ⟨.invalidKey, by simp only [operation, xdecOperation, h, bind, Except.bind], by decide⟩)
  | crc16 =>
    rcases crcPass_cases s s.ilen 0 crcInit with ⟨v, hv⟩ | ⟨j, hv, hr, hj⟩
    · exact .inl ⟨_, by simp only [operation, crc16Operation, hv, bind, Except.bind, pure, Except.pure]; rfl,
        ⟨rfl, rfl, rfl, fun _ => rfl, nofun, nofun⟩⟩
    · exact .inr (.inr ⟨_, by simp only [operation, crc16Operation, hv, bind, Except.bind], .inbuf, j, rfl, hr, by decide,
        by simpa using hj⟩)
  | build =>
    rcases buildOperation_cases s with ⟨r, hr, h1, h2, h3, h4⟩ | h | h
    · exact .inl ⟨r, hr, ⟨h1, h2, h3, fun _ => h4, nofun, nofun⟩⟩
    · exact .inr (.inl ⟨_, h, by decide⟩)
    · exact .inr (.inr h)
  | buildS =>
    rcases fldchk_cases s with ⟨hf, h⟩ | ⟨-, h⟩
    · have he : operation .buildS s = buildOperation s := by simp only [operation, buildSOperation, h, bind, Except.bind]
      rcases buildOperation_cases s with ⟨r, hr, h1, h2, h3, h4⟩ | h | h
      · exact .inl ⟨r, he ▸ hr, ⟨h1, h2, h3, fun _ => h4, nofun, fun _ => hf⟩⟩
      · exact .inr (.inl ⟨_, he ▸ h, by decide⟩)
      · exact .inr (.inr (he ▸ h))
    · exact .inr (.inl ⟨.invalidField, by simp only [operation, buildSOperation, h, bind, Except.bind], by decide⟩)
  | parse =>
    rcases lenchk_cases s with ⟨hl, h1⟩ | ⟨-, h1⟩
    · rcases compareChars_cases s (fun c => c) .badHeader 0 hdr with h2 | h2 | ⟨j, h2, hr, hj⟩
      · rcases crcPass_cases s (s.ilen - 4) 0 crcInit with ⟨v, h3⟩ | ⟨j, h3, hr, hj⟩
        · rcases compareChars_cases s fold .checksumMismatch (s.ilen - 4) (toHex4 v) with h4 | h4 | ⟨j, h4, hr, hj⟩
          · rcases keychk_cases s with ⟨hk, h5⟩ | ⟨-, h5⟩
            · rcases pairchk_cases (s.ilen - 24) with ⟨he, h6⟩ | ⟨-, h6⟩
              · rcases decPass_cases s ((s.ilen - 24) / 2) 20 0 (by omega) with ⟨p, h7, lp⟩ | h7 | ⟨x, j, h7, hr, hx⟩
                · rcases readSpan_cases s .inbuf 16 4 with ⟨d, h8, ld⟩ | ⟨j, h8, hr, hj⟩
                  · exact .inl ⟨_, by
                      simp only [operation, parseOperation, hdrchk, cschk, parseDeviceId, chkLen, framing, payloadOff, devLen, devOff,
                        h1, h2, h3, h4, h5, h6, h7, h8, bind, Except.bind, pure, Except.pure]; rfl,
                      ⟨lp, rfl, rfl, fun _ => rfl, fun _ => rfl, nofun⟩⟩
                  · exact .inr (.inr ⟨_, by
                      simp only [operation, parseOperation, hdrchk, cschk, parseDeviceId, chkLen, framing, payloadOff, devLen, devOff,
                        h1, h2, h3, h4, h5, h6, h7, h8, bind, Except.bind], .inbuf, j, rfl, hr, by decide,
                      by simp only [State.len]; omega⟩)
                · exact .inr (.inl ⟨.malformedInput, by
                    simp only [operation, parseOperation, hdrchk, cschk, chkLen, framing, payloadOff, h1, h2, h3, h4, h5, h6, h7, bind,
                      Except.bind], by decide⟩)
                · refine .inr (.inr ⟨_, by
                    simp only [operation, parseOperation, hdrchk, cschk, chkLen, framing, payloadOff, h1, h2, h3, h4, h5, h6, h7, bind,
                      Except.bind], x, j, rfl, hr, ?_⟩)
                  rcases hx with ⟨rfl, hj⟩ | ⟨rfl, hj⟩
                  · exact ⟨by decide, by simp only [State.len]; omega⟩
                  · exact ⟨by decide, hj⟩
              · exact .inr (.inl ⟨.malformedInput, by
                  simp only [operation, parseOperation, hdrchk, cschk, chkLen, framing, h1, h2, h3, h4, h5, h6, bind, Except.bind],
                  by decide⟩)
            · exact .inr (.inl ⟨.invalidKey, by
                simp only [operation, parseOperation, hdrchk, cschk, chkLen, h1, h2, h3, h4, h5, bind, Except.bind], by decide⟩)
          · exact .inr (.inl ⟨.checksumMismatch, by
              simp only [operation, parseOperation, hdrchk, cschk, chkLen, h1, h2, h3, h4, bind, Except.bind], by decide⟩)
          · exact .inr (.inr ⟨_, by
              simp only [operation, parseOperation, hdrchk, cschk, chkLen, h1, h2, h3, h4, bind, Except.bind],
              .inbuf, j, rfl, hr, by decide, by simp only [State.len, toHex4_length] at *; omega⟩)
        · exact .inr (.inr ⟨_, by
            simp only [operation, parseOperation, hdrchk, chkLen, h1, h2, h3, bind, Except.bind],
            .inbuf, j, rfl, hr, by decide, by simp only [State.len]; omega⟩)
      · exact .inr (.inl ⟨.badHeader, by simp only [operation, parseOperation, hdrchk, h1, h2, bind, Except.bind], by decide⟩)
      · exact .inr (.inr ⟨_, by simp only [operation, parseOperation, hdrchk, h1, h2, bind, Except.bind],
          .inbuf, j, rfl, hr, by decide, by simp only [State.len, hdr, List.length_cons, List.length_nil] at *; omega⟩)
    · exact .inr (.inl ⟨.tooShort, by simp only [operation, parseOperation, h1, bind, Except.bind], by decide⟩)

/-- What a command can do: the outcomes, with the state each one leaves. -/
theorem exec_cases (i : Instr) (s : State) :
    (∃ r, lengthsInRange s i = true ∧ operation i s = .ok r ∧ r.Fits i s ∧ exec i s = .next (s.complete r)) ∨
    (∃ k, lengthsInRange s i = true ∧ operation i s = .error (.raise k) ∧ k ∈ operationKinds i ∧
      exec i s = .next (s.raiseError k)) ∨
    (lengthsInRange s i = false ∧ exec i s = .next (s.raiseError .badCommand)) ∨
    (∃ x j, lengthsInRange s i = true ∧ exec i s = .fault (.unwrittenChar x j) ∧ Memory.read (s.buf x) j = none ∧
      x ≠ .outbuf ∧ j < s.len x) := by
  rw [exec_eq]
  cases hl : lengthsInRange s i with
  | false => exact .inr (.inr (.inl ⟨rfl, by simp [runCommand, hl]⟩))
  | true =>
    rcases operation_cases i s with ⟨r, hr, hf⟩ | ⟨k, hk, hm⟩ | ⟨e, he, x, j, rfl, h⟩
    · exact .inl ⟨r, rfl, hr, hf, by simp [runCommand, hl, hr, State.conclude]⟩
    · exact .inr (.inl ⟨k, rfl, hk, hm, by simp [runCommand, hl, hk, State.conclude]⟩)
    · exact .inr (.inr (.inr ⟨x, j, rfl, by simp [runCommand, hl, he, State.conclude], h⟩))

end Sys2Proof.Machine
end

