-- ==== Sys2Proof/Laws/HostPort.lean ====
section
/-!
SUPPORT. What a host read returns, said once for each of its cases: `STATUS`, while `BUSY`, before `done` was observed, and
otherwise what is stored.
-/

namespace Sys2Proof.Machine

/-- A `STATUS` read returns `STATUS`, always (43_command_interface.md R178, R182). -/
theorem readRegister_status (s : State) : s.readRegister regStatus = s.status.toNat := rfl

/-- While `BUSY` every other register read is a free value (43_command_interface.md R178). -/
theorem readRegister_busy {s : State} {n : Nat} (hn : n ≠ regStatus) (hb : s.busy = true) :
    s.readRegister n = s.unspecifiedReg s.draws n := by
  unfold State.readRegister; rw [if_neg hn, if_pos hb]

/-- A result register read before `done` was observed is a free value (43_command_interface.md R177). -/
theorem readRegister_unobserved {s : State} {n : Nat} (hb : s.busy = false) (hu : s.unobserved = true)
    (hr : isResultReg n = true) : s.readRegister n = s.unspecifiedReg s.outSeed n := by
  have hn : n ≠ regStatus := by rintro rfl; exact absurd hr (by decide)
  unfold State.readRegister; rw [if_neg hn, hb]; simp [hu, hr]

/-- Otherwise a register read returns what the map has at that number (10_state.md R31). -/
theorem readRegister_map {s : State} {n v : Nat} (hb : s.busy = false)
    (ho : isResultReg n = true → s.unobserved = false) (hv : s.regValue n = some v) : s.readRegister n = v := by
  unfold State.readRegister
  by_cases hn : n = regStatus
  · subst hn; rw [if_pos rfl]; exact Option.some.inj hv
  · rw [if_neg hn, hb, if_neg Bool.false_ne_true, hv]
    cases hr : isResultReg n
    · simp
    · simp [ho hr]

/-- A result character read before `done` was observed is a free value (43_command_interface.md R177). -/
theorem readCharacter_unobserved {s : State} {i : Nat} (d : Nat) (hb : s.busy = false) (hc : i < s.caps.outMax)
    (hu : s.unobserved = true) : s.readCharacter d .outbuf i = Config.freeOut s.outSeed i := by
  have h : ¬ (s.busy = true ∨ s.caps.capacity .outbuf ≤ i) := by simp [hb, Caps.capacity]; omega
  unfold State.readCharacter; rw [if_neg h, if_pos ⟨rfl, hu⟩]; rfl

/-- Otherwise a read below the capacity returns the character that is stored (20_memory.md R50). -/
theorem readCharacter_stored {s : State} {x : Space} {i : Nat} {c : Chr} (d : Nat) (hb : s.busy = false)
    (hc : i < s.caps.capacity x) (ho : x = .outbuf → s.unobserved = false) (hr : Memory.read (s.buf x) i = some c) :
    s.readCharacter d x i = c := by
  have h : ¬ (s.busy = true ∨ s.caps.capacity x ≤ i) := by simp [hb]; omega
  have h' : ¬ (x = .outbuf ∧ s.unobserved = true) := fun ⟨a, b⟩ => by simp [ho a] at b
  unfold State.readCharacter; rw [if_neg h, if_neg h', hr]

end Sys2Proof.Machine
end

