-- ==== Sys2Proof/Laws/PerInstr.lean ====
section
/-!
SUPPORT. The laws made per command, one lemma per constructor of `Instr`.  Family `Encoding`: the command's word is the
one its fields spell, and the decoder reads it back (30_encoding.md R71, R72).
-/

namespace Sys2Proof.Laws.Encoding

/-- The word of a command has the command's fields, they are legal, and decoding the word gives the command. -/
def Statement (i : Instr) : Prop :=
  cmdFields (encode i) = i.fields ∧ i.wellFormed = true ∧ decode (encode i) = .ok i

theorem xenc : Statement .xenc := ⟨rfl, rfl, rfl⟩

theorem xdec : Statement .xdec := ⟨rfl, rfl, rfl⟩

theorem crc16 : Statement .crc16 := ⟨rfl, rfl, rfl⟩

theorem build : Statement .build := ⟨rfl, rfl, rfl⟩

theorem buildS : Statement .buildS := ⟨rfl, rfl, rfl⟩

theorem parse : Statement .parse := ⟨rfl, rfl, rfl⟩

end Sys2Proof.Laws.Encoding
end

