-- ==== Sys2Proof/Laws/Step.lean ====
section
/-!
SUPPORT. What a step can be, said once: the engine's completion, one served input while a command runs, nothing, or one
served input while none runs; and how a run unfolds.
-/

namespace Sys2Proof.Machine

theorem decode_encode (i : Instr) : decode (encode i) = .ok i := by cases i <;> rfl

/-- With no command running, the next pending input is served. -/
theorem step_free {s : State} {a : Input} {rest : List Input} (hb : s.busy = false) (hi : s.inputs = a :: rest) :
    step s = .next (serve { s with inputs := rest } a) := by
  simp [step, advance, hb, hi]

/-- While a command runs and inputs are still served, the next one but `WAIT` is. -/
theorem step_busy {s : State} {a : Input} {rest : List Input} {n : Nat} (hb : s.busy = true) (hn : s.busyLeft = n + 1)
    (hi : s.inputs = a :: rest) (ha : a ≠ .wait) :
    step s = .next (serve { s with inputs := rest, busyLeft := n } a) := by
  unfold step advance
  simp only [hb, if_true, hn, hi]

/-- The engine's move, where it is the engine's. -/
theorem step_engine {s : State} (hb : s.busy = true)
    (h : s.busyLeft = 0 ∨ s.inputs = [] ∨ s.inputs.head? = some .wait) : step s = engineStep s := by
  unfold step advance
  rw [if_pos hb]
  rcases hbl : s.busyLeft with _ | n
  · rfl
  · rcases hi : s.inputs with _ | ⟨a, rest⟩
    · rfl
    · simp only [hbl, hi, List.head?_cons, Option.some.injEq] at h
      rcases h with h | h | rfl
      · cases h
      · cases h
      · rfl

/-- What a step can be. -/
theorem step_cases (s : State) :
    (s.busy = true ∧ step s = engineStep s) ∨
    (∃ n a rest, s.busy = true ∧ s.busyLeft = n + 1 ∧ s.inputs = a :: rest ∧
      step s = .next (serve { s with inputs := rest, busyLeft := n } a)) ∨
    (s.busy = false ∧ s.inputs = [] ∧ step s = .next s) ∨
    (∃ a rest, s.busy = false ∧ s.inputs = a :: rest ∧ step s = .next (serve { s with inputs := rest } a)) := by
  cases hb : s.busy with
  | false =>
    cases hi : s.inputs with
    | nil => exact .inr (.inr (.inl ⟨rfl, rfl, by simp [step, advance, hb, hi]⟩))
    | cons a rest => exact .inr (.inr (.inr ⟨a, rest, rfl, rfl, step_free hb hi⟩))
  | true =>
    by_cases h : s.busyLeft = 0 ∨ s.inputs = [] ∨ s.inputs.head? = some .wait
    · exact .inl ⟨rfl, step_engine hb h⟩
    · simp only [not_or] at h
      obtain ⟨n, hn⟩ := Nat.exists_eq_succ_of_ne_zero h.1
      cases hi : s.inputs with
      | nil => exact absurd hi h.2.1
      | cons a rest =>
        exact .inr (.inl ⟨n, a, rest, rfl, hn, rfl, step_busy hb hn hi (by rintro rfl; exact h.2.2 (by rw [hi]; rfl))⟩)

/-- What the engine's move can answer. -/
theorem engineStep_cases (s : State) :
    (∃ i r, decode s.cmd = .ok i ∧ lengthsInRange s i = true ∧ r.Fits i s ∧ engineStep s = .next (s.complete r)) ∨
    (∃ k, engineStep s = .next (s.raiseError k) ∧ ((∀ i, decode s.cmd ≠ .ok i) → k = .badCommand)) ∨
    (∃ x j, engineStep s = .fault (.unwrittenChar x j)) := by
  unfold engineStep State.commandWord
  cases hd : decode s.cmd with
  | error e => exact .inr (.inl ⟨.badCommand, rfl, fun _ => rfl⟩)
  | ok i =>
    rcases exec_cases i s with ⟨r, hl, -, hf, he⟩ | ⟨k, -, -, -, he⟩ | ⟨-, he⟩ | ⟨x, j, -, he, -⟩
    · exact .inl ⟨i, r, rfl, hl, hf, he⟩
    · exact .inr (.inl ⟨k, he, fun h => absurd rfl (h i)⟩)
    · exact .inr (.inl ⟨.badCommand, he, fun _ => rfl⟩)
    · exact .inr (.inr ⟨x, j, he⟩)

/-- The host's questions: the step from a placed command word is that command's meaning. -/
theorem step_withFetchWord (s : State) (i : Instr) :
    step (s.withFetchWord 8 (encode i).toNat) = exec i (s.startedNow (encode i)) := by
  have h : s.withFetchWord 8 (encode i).toNat = s.startedNow (encode i) := by cases i <;> rfl
  rw [h, step_engine (State.startedNow_busy _ _) (.inl rfl)]
  simp [engineStep, State.commandWord, decode_encode]

@[simp] theorem run_zero (s : State) : core.run 0 s = .next s := rfl

theorem run_succ_of (M : Host.Core) (k : Nat) (s : M.State) :
    M.run (k + 1) s = match M.step s with
      | .next t => M.run k t
      | .fault f => .fault f
      | .refused r => .refused r := by
  rw [Host.Core.run]
  all_goals (cases M.step s <;> rfl)

/-- A run goes on from a step's next state. -/
theorem run_next {s t : State} (k : Nat) (h : step s = .next t) : core.run (k + 1) s = core.run k t := by
  have hr := run_succ_of core k s
  rw [show core.step s = .next t from h] at hr
  exact hr

/-- A run stops at a step's fault. -/
theorem run_fault {s : State} {f : Fault} (k : Nat) (h : step s = .fault f) : core.run (k + 1) s = .fault f := by
  have hr := run_succ_of core k s
  rw [show core.step s = .fault f from h] at hr
  exact hr

end Sys2Proof.Machine
end

