-- ==== Sys2Proof/Tests/Slice0.lean ====
section
/-!
SUPPORT. Tests of one step each, with the expected values of spec/95_test_vectors.md (the vector's id stands in each
docstring), the decoder's words written out from 30_encoding.md R72, the ill-formed terms the checks refuse, and for every
statement with hypotheses a state that meets them together.
-/

namespace Sys2Proof.Tests

open Sys2Proof Sys2Proof.Machine

/-! ### Helpers -/

/-- A reset block with its four operand strings stored. -/
def ready (key text version deviceId : List Chr) : State :=
  { State.reset with
    keymem := Memory.ofString key
    klen := key.length
    inbuf := Memory.ofString text
    ilen := text.length
    verbuf := Memory.ofString version
    vlen := version.length
    devbuf := Memory.ofString deviceId
    dlen := deviceId.length }

/-- The same block with a command started and no host action left to serve. -/
def running (i : Instr) (s : State) : State := s.startedNow (encode i)

/-- `STATUS`, `ERR`, `OLEN` and the string result of a next state. -/
def summary : Host.Outcome State Fault Refusal → Option (BitVec 3 × BitVec 3 × Nat × List Chr)
  | .next t => some (t.status, t.err, t.olen, t.outbuf.map Prod.snd)
  | _ => none

/-- `CRC` of a next state. -/
def crcOf : Host.Outcome State Fault Refusal → Option CrcWord
  | .next t => some t.crc
  | _ => none

/-- `RDEV` of a next state. -/
def rdevOf : Host.Outcome State Fault Refusal → Option (List Chr)
  | .next t => some t.rdev.toList
  | _ => none

/-- What the host has read after a next state. -/
def readOf : Host.Outcome State Fault Refusal → Option Nat
  | .next t => some t.rdata
  | _ => none

/-- An outcome is a next state that meets `p`. -/
def nextAnd (p : State → Bool) : Host.Outcome State Fault Refusal → Bool
  | .next t => p t
  | _ => false

theorem exists_of_nextAnd {p : State → Bool} {o : Host.Outcome State Fault Refusal} (h : nextAnd p o = true) :
    ∃ t, o = .next t ∧ p t = true := by
  cases o with
  | next t => exact ⟨t, rfl, h⟩
  | fault f => cases h
  | refused r => cases h

/-- `refdev`, `"IME_345F45AACBCC"`. -/
def refdev : List Chr := [0x49, 0x4D, 0x45, 0x5F, 0x33, 0x34, 0x35, 0x46, 0x34, 0x35, 0x41, 0x41, 0x43, 0x42, 0x43, 0x43]

/-- The output of vector B4, `"WIM1IME_345F45AACBCC16D4A9"`, the shortest packet that parses. -/
def packet26 : List Chr :=
  [0x57, 0x49, 0x4D, 0x31, 0x49, 0x4D, 0x45, 0x5F, 0x33, 0x34, 0x35, 0x46, 0x34] ++
  [0x35, 0x41, 0x41, 0x43, 0x42, 0x43, 0x43, 0x31, 0x36, 0x44, 0x34, 0x41, 0x39]

/-- The first character of `refkey`, which is all that `packet26` uses. -/
def keyW : List Chr := [0x57]

/-- The key `"K"`. -/
def keyK : List Chr := [0x4B]

/-! ### Decoding: the pattern strings of 30_encoding.md R72, bit 7 first -/

theorem test_decode_xenc : decode 0b00000001#8 = .ok .xenc := by decide

theorem test_decode_xdec : decode 0b00000010#8 = .ok .xdec := by decide

theorem test_decode_crc16 : decode 0b00000011#8 = .ok .crc16 := by decide

theorem test_decode_build : decode 0b00000100#8 = .ok .build := by decide

theorem test_decode_buildS : decode 0b00001100#8 = .ok .buildS := by decide

theorem test_decode_parse : decode 0b00000101#8 = .ok .parse := by decide

/-- Illegal words of 95_test_vectors.md 2.1, each rejected by the first thing that is wrong with it. -/
theorem test_decode_illegal :
    decode 0x00 = .error .noOperation ∧ decode 0x06 = .error .noOperation ∧ decode 0x0F = .error .noOperation ∧
    decode 0x09 = .error .strictWithoutBuild ∧ decode 0x0D = .error .strictWithoutBuild ∧
    decode 0x14 = .error .reservedBits ∧ decode 0x81 = .error .reservedBits ∧ decode 0xFF = .error .reservedBits := by
  decide

theorem test_decodeTableWord : decodeTableWord 8 0x0C = some .buildS ∧ decodeTableWord 8 0x0D = none := by decide

/-! ### Well-formedness: one ill-formed term for each check -/

theorem test_reserved_refused : ({ reserved := 1, s := 0, op := 1 } : CmdFields).wellFormed = false := by decide

theorem test_strict_refused : ({ reserved := 0, s := 1, op := 5 } : CmdFields).wellFormed = false := by decide

theorem test_op_refused :
    ({ reserved := 0, s := 0, op := 0 } : CmdFields).wellFormed = false ∧
    ({ reserved := 0, s := 0, op := 6 } : CmdFields).wellFormed = false ∧
    ({ reserved := 0, s := 0, op := 7 } : CmdFields).wellFormed = false := by decide

theorem test_caps_wellFormed : Config.caps.wellFormed = true := by decide

theorem test_keyMax_refused : ({ Config.caps with keyMax := 0 } : Caps).wellFormed = false := by decide

theorem test_inMax_refused : ({ Config.caps with inMax := 25 } : Caps).wellFormed = false := by decide

theorem test_verMax_refused : ({ Config.caps with verMax := 0 } : Caps).wellFormed = false := by decide

theorem test_devMax_refused : ({ Config.caps with devMax := 15 } : Caps).wellFormed = false := by decide

theorem test_outMax_refused : ({ Config.caps with outMax := 598 } : Caps).wellFormed = false := by decide

theorem test_lenW_refused : ({ Config.caps with lenW := 9 } : Caps).wellFormed = false := by decide

/-! ### The commands -/

/-- X7: the key index wraps. -/
theorem test_xenc_key_wraps :
    summary (step (running .xenc (ready [0x78, 0x79] [0x41, 0x42, 0x43, 0x44, 0x45] [] []))) =
      some (2, 0, 10, [0x33, 0x39, 0x33, 0x42, 0x33, 0x42, 0x33, 0x44, 0x33, 0x44]) := by decide +kernel

/-- X5: the key check comes before the empty text. -/
theorem test_xenc_empty_key : summary (step (running .xenc (ready [] [] [] []))) = some (3, 1, 0, []) := by decide +kernel

/-- D12: lowercase digits are accepted, and `AB ^ 4B = E0`. -/
theorem test_xdec_lowercase :
    summary (step (running .xdec (ready keyK [0x61, 0x62] [] []))) = some (2, 0, 1, [0xE0]) := by decide +kernel

/-- D15: an even string with a character that is no digit. -/
theorem test_xdec_bad_digit :
    summary (step (running .xdec (ready keyK [0x30, 0x47] [] []))) = some (3, 2, 0, []) := by decide +kernel

/-- K14: the published check value, with no key. -/
theorem test_crc16_check_value :
    crcOf (step (running .crc16 (ready [] [0x31, 0x32, 0x33, 0x34, 0x35, 0x36, 0x37, 0x38, 0x39] [] []))) = some 0xBB3D := by decide +kernel

/-- I8: `CRC16` does not look at `KLEN`. -/
theorem test_crc16_ignores_klen :
    summary (step (running .crc16 { ready [] [] [] [] with klen := 65 })) = some (2, 0, 0, []) := by decide +kernel

/-- B8: no length validation without strict mode. -/
theorem test_build_any_lengths :
    summary (step (running .build (ready keyK [0x48, 0x69] [0x31, 0x30] [0x44, 0x45, 0x56]))) =
      some (2, 0, 16, [0x57, 0x49, 0x4D, 0x31, 0x30, 0x44, 0x45, 0x56, 0x30, 0x33, 0x32, 0x32, 0x44, 0x41, 0x41, 0x45]) := by decide +kernel

/-- B13: the smallest output, and its checksum register. -/
theorem test_build_smallest :
    crcOf (step (running .build (ready keyK [] [] []))) = some 0x7546 := by decide +kernel

/-- B4 in strict mode (`S = 1` passes as `S = 0` does, B2). -/
theorem test_buildS_packet :
    summary (step (running .buildS (ready keyW [0x41] [0x31] refdev))) = some (2, 0, 26, packet26) := by decide +kernel

/-- B11: the field check comes before the key check. -/
theorem test_buildS_field_first :
    summary (step (running .buildS (ready [] [0x48, 0x69] [0x31] [0x44, 0x45, 0x56]))) = some (3, 6, 0, []) := by decide +kernel

/-- P9v: the minimum length; `STATUS = 6`. -/
theorem test_parse_minimum :
    summary (step (running .parse (ready keyW packet26 [] []))) = some (6, 0, 1, [0x41]) ∧
    rdevOf (step (running .parse (ready keyW packet26 [] []))) = some refdev ∧
    crcOf (step (running .parse (ready keyW packet26 [] []))) = some 0xD4A9 := by decide +kernel

/-- P15v in the small: a changed payload character with no key is `ChecksumMismatch`, not `InvalidKey`. -/
theorem test_parse_checksum_before_key :
    summary (step (running .parse (ready [] (packet26.set 20 0x32) [] []))) = some (3, 5, 0, []) := by decide +kernel

/-! ### The interface -/

/-- I6: an illegal word ends with `BadCommand`. -/
theorem test_illegal_word : summary (step (State.reset.startedNow 0x09)) = some (3, 7, 0, []) := by decide +kernel

/-- I12: a write to `STATUS` is ignored. -/
theorem test_status_read_only :
    nextAnd (fun t => t.status == 0) (step { State.reset with inputs := [.hwr 1 7] }) = true := by decide +kernel

/-- I11: `STATUS` reads 1 while `BUSY`. -/
theorem test_status_busy :
    readOf (step { running .xenc State.reset with busyLeft := 1, inputs := [.hrd 1] }) = some 1 := by decide +kernel

/-- The host's placing of a command word runs it in the very next step. -/
theorem test_withFetchWord : summary (step (State.reset.withFetchWord 8 0x03)) = some (2, 0, 0, []) := by decide +kernel

/-- The step level on X1's first character: one pair written, `KIDX` back to 0 with a one-character key. -/
theorem test_tick_xenc :
    nextAnd (fun t => t.outbuf == [(0, 0x30), (1, 0x33)] && t.kidx == 0 && t.pos == 1)
      (tick { ready keyK [0x48, 0x65, 0x6C, 0x6C, 0x6F] [] [] with seq := .xenc }) = true := by decide +kernel

/-! ### Witnesses: for every statement with hypotheses, data that meet them together -/

/-- `Obligations.DecodeEncodeAgree`, both clauses. -/
theorem witness_decode_encode : Instr.xenc.wellFormed = true ∧ decode 0x0C = .ok .buildS := by decide

/-- `Obligations.StepRunsTheDecodedCommand`, each way for the engine to be the next to move. -/
theorem witness_step_runs :
    ((running .parse State.reset).busy = true ∧ decode (running .parse State.reset).cmd = .ok .parse ∧
      (running .parse State.reset).busyLeft = 0) ∧
    (∃ s : State, s.busy = true ∧ decode s.cmd = .ok .xenc ∧ s.busyLeft = 1 ∧ s.inputs = []) ∧
    (∃ s : State, s.busy = true ∧ decode s.cmd = .ok .xenc ∧ s.busyLeft = 1 ∧ s.inputs.head? = some .wait) :=
  ⟨by decide, ⟨{ running .xenc State.reset with busyLeft := 1 }, by decide⟩,
    ⟨{ running .xenc State.reset with busyLeft := 1, inputs := [.wait] }, by decide⟩⟩

/-- `Obligations.IllegalWordEndsWithBadCommand`. -/
theorem witness_illegal_word : ∃ s : State, s.busy = true ∧ (∀ i, s.cmd ≠ encode i) ∧ s.busyLeft = 0 :=
  ⟨State.reset.startedNow 0x09, by decide, fun i => by cases i <;> decide, by decide⟩

/-- `Obligations.CommandWriteStartsACommand`, with a legal and an illegal word. -/
theorem witness_command_write :
    (∃ s : State, s.busy = false ∧ s.inputs = [.hwr 0 5]) ∧ (∃ s : State, s.busy = false ∧ s.inputs = [.hwr 0 0]) :=
  ⟨⟨{ State.reset with inputs := [.hwr 0 5] }, by decide⟩, ⟨{ State.reset with inputs := [.hwr 0 0] }, by decide⟩⟩

/-- `Obligations.StartThenWaitRunsTheCommand`. -/
theorem witness_start_wait : ∃ s : State, s.busy = false ∧ s.inputs = [command .build, .wait] :=
  ⟨{ State.reset with inputs := [command .build, .wait] }, by decide⟩

theorem reset_inv : State.reset.Inv where
  caps := by decide
  klen := by decide
  ilen := by decide
  vlen := by decide
  dlen := by decide
  keymem := by decide
  inbuf := by decide
  verbuf := by decide
  devbuf := by decide
  outbuf := by decide
  result := by decide
  olen := by decide
  olenZero := by decide
  err := by decide
  csok := by decide
  seq := by decide
  idleCmd := by decide
  legal := fun h => absurd h (by decide)
  illegal := fun h => absurd h (by decide)
  observed := fun h => absurd h (by decide)

/-- A block that meets the invariant while `BUSY`, with one more input served before the completion. -/
def busyBlock : State := { running .xenc State.reset with busyLeft := 1, inputs := [.hrd 1] }

theorem busyBlock_inv : busyBlock.Inv where
  caps := by decide
  klen := by decide
  ilen := by decide
  vlen := by decide
  dlen := by decide
  keymem := by decide
  inbuf := by decide
  verbuf := by decide
  devbuf := by decide
  outbuf := by decide
  result := by decide
  olen := by decide
  olenZero := by decide
  err := by decide
  csok := by decide
  seq := by decide
  idleCmd := fun h => absurd h (by decide)
  legal := fun h => absurd h (by decide)
  illegal := fun h => absurd h (by decide)
  observed := fun h => absurd h (by decide)

/-- `Obligations.HostAccessesWhileBusy`, its clauses. -/
theorem witness_busy :
    (busyBlock.Inv ∧ busyBlock.busy = true ∧ busyBlock.busyLeft = 0 + 1 ∧ busyBlock.inputs = [.hrd 1]) ∧
    (∃ s : State, s.busy = true ∧ s.busyLeft = 0 + 1 ∧ s.inputs = [.hwr 0 3]) ∧
    (∃ s : State, s.busy = true ∧ s.busyLeft = 0 + 1 ∧ s.inputs = [.bwr .outbuf 0 0]) :=
  ⟨⟨busyBlock_inv, by decide⟩, ⟨{ busyBlock with inputs := [.hwr 0 3] }, by decide⟩,
    ⟨{ busyBlock with inputs := [.bwr .outbuf 0 0] }, by decide⟩⟩

/-- `Obligations.HostReadsChangeNothing`, while a command runs and while none does, with a look at `done` too. -/
theorem witness_host_reads :
    (busyBlock.inputs = [.hrd 1] ∧ busyBlock.busy = true ∧ busyBlock.busyLeft ≠ 0) ∧
    (∃ s : State, s.inputs = [.brd .outbuf 598] ∧ s.busy = false) ∧ (∃ s : State, s.inputs = [.watchDone] ∧ s.busy = false) :=
  ⟨by decide, ⟨{ State.reset with inputs := [.brd .outbuf 598] }, by decide⟩,
    ⟨{ State.reset with inputs := [.watchDone] }, by decide⟩⟩

/-- `Obligations.RegisterReadsFollowTheMap` and `Obligations.RegisterWritesFollowTheMap`, at every register number and
beyond the last one. -/
theorem witness_register_map : ∀ n, n ≤ 32 →
    (∃ s : State, s.busy = false ∧ s.inputs = [.hrd n] ∧ s.unobserved = false) ∧
    (∃ s : State, s.busy = false ∧ s.inputs = [.hwr n 1023] ∧ 1023 < 2 ^ s.caps.lenW) :=
  fun n _ => ⟨⟨{ State.reset with inputs := [.hrd n] }, rfl, rfl, rfl⟩,
    ⟨{ State.reset with inputs := [.hwr n 1023] }, rfl, rfl, show 1023 < 2 ^ 10 by decide⟩⟩

/-- `Obligations.CharacterWritesStore`, at the last index, at the capacity, and in `OUTBUF`. -/
theorem witness_character_writes :
    (∃ s : State, s.busy = false ∧ s.inputs = [.bwr .inbuf 255 0x41] ∧ 255 < s.caps.capacity .inbuf) ∧
    (∃ s : State, s.busy = false ∧ s.inputs = [.bwr .inbuf 256 0x41] ∧ s.caps.capacity .inbuf ≤ 256) ∧
    (∃ s : State, s.busy = false ∧ s.inputs = [.bwr .outbuf 0 0x41]) :=
  ⟨⟨{ State.reset with inputs := [.bwr .inbuf 255 0x41] }, by decide⟩,
    ⟨{ State.reset with inputs := [.bwr .inbuf 256 0x41] }, by decide⟩,
    ⟨{ State.reset with inputs := [.bwr .outbuf 0 0x41] }, by decide⟩⟩

/-- `Obligations.CharacterReadsReturnWhatIsStored`, both clauses; `witness_result_reads` has its case of `OUTBUF`. -/
theorem witness_character_reads :
    (∃ s : State, s.busy = false ∧ 0 < s.caps.capacity .keymem ∧ Memory.read (s.buf .keymem) 0 = some 0x4B ∧
      s.inputs = [.brd .keymem 0]) ∧
    (∃ s : State, s.busy = false ∧ 63 < s.caps.capacity .keymem ∧ s.inputs = [.brd .keymem 63, .brd .keymem 63]) :=
  ⟨⟨{ ready keyK [] [] [] with inputs := [.brd .keymem 0] }, by decide⟩,
    ⟨{ State.reset with inputs := [.brd .keymem 63, .brd .keymem 63] }, by decide⟩⟩

/-- `Obligations.LoadingAStringStoresIt`, for each of the four spaces. -/
theorem witness_loading : ∀ (x : Space) (load : List Chr → List Input),
    ((x = .keymem ∧ load = ldkey) ∨ (x = .inbuf ∧ load = ldin) ∨ (x = .verbuf ∧ load = ldver) ∨
      (x = .devbuf ∧ load = lddev)) →
    ∃ s : State, s.busy = false ∧ keyK.length < 2 ^ s.caps.lenW ∧ keyK.length ≤ s.caps.capacity x ∧
      s.inputs = load keyK ++ [] :=
  fun x load _ => ⟨{ State.reset with inputs := load keyK ++ [] }, rfl, show 1 < 2 ^ 10 by decide,
    show 1 ≤ Config.caps.capacity x by cases x <;> decide, rfl⟩

/-- A block that ended `XENC` of one character with success. -/
def doneBlock : State := (State.reset.startedNow 0x01).complete ⟨[0x30, 0x41], 2, none, none, false⟩

theorem doneBlock_inv : doneBlock.Inv where
  caps := by decide
  klen := by decide
  ilen := by decide
  vlen := by decide
  dlen := by decide
  keymem := by decide
  inbuf := by decide
  verbuf := by decide
  devbuf := by decide
  outbuf := by decide
  result := by decide
  olen := by decide
  olenZero := by decide
  err := by decide
  csok := by decide
  seq := by decide
  idleCmd := fun h => absurd h (by decide)
  legal := fun _ => ⟨.xenc, by decide⟩
  illegal := fun h => absurd h (by decide)
  observed := fun h => absurd h (by decide)

theorem withInputs_inv {s : State} (h : s.Inv) (l : List Input) : ({ s with inputs := l } : State).Inv :=
  ⟨h.caps, h.klen, h.ilen, h.vlen, h.dlen, h.keymem, h.inbuf, h.verbuf, h.devbuf, h.outbuf, h.result, h.olen, h.olenZero,
    h.err, h.csok, h.seq, h.idleCmd, h.legal, h.illegal, h.observed⟩

/-- The same block once the host has observed the end of the command. -/
def observedBlock : State := { doneBlock with observed := true }

theorem observedBlock_inv : observedBlock.Inv :=
  have h := doneBlock_inv
  ⟨h.caps, h.klen, h.ilen, h.vlen, h.dlen, h.keymem, h.inbuf, h.verbuf, h.devbuf, h.outbuf, h.result, h.olen, h.olenZero,
    h.err, h.csok, h.seq, h.idleCmd, h.legal, h.illegal, fun _ => by decide⟩

/-- R177: a `STATUS` read of 2 tells the host of the end. -/
theorem test_status_read_observes :
    nextAnd (fun t => t.rdata == 2 && t.observed) (step { doneBlock with inputs := [.hrd 1] }) = true := by decide

/-- R170: `done` is 1 while `ST` is `DONE_OK`, and it tells the host of the end. -/
theorem test_watch_done :
    nextAnd (fun t => t.rdata == 1 && t.observed) (step { doneBlock with inputs := [.watchDone] }) = true := by decide

/-- R176: once observed, `OLEN` after `XENC` of one character reads 2. -/
theorem test_result_read : readOf (step { observedBlock with inputs := [.hrd 7] }) = some 2 := by decide

/-- R177: before that the same read is a free value of `OLEN`'s ten bits. -/
theorem test_result_read_early :
    readOf (step { doneBlock with inputs := [.hrd 7] }) = some (Config.freeReg doneBlock.outSeed 7 % 2 ^ 10) := rfl

/-- `Obligations.ResultsNeedDoneObserved`, its second and third clauses at the bounds of the result registers and in
`OUTBUF`; `witness_success` meets the first. -/
theorem witness_results_early :
    (∀ a : Input, ∃ s : State, s.unobserved = true ∧ s.inputs = [a]) ∧
    (∀ a ∈ [Input.hrd 1, .wait, .watchDone], ∃ s : State, s.busy = false ∧ s.inputs = [a] ∧ s.done = true) ∧
    (∀ j, j = 0 ∨ j = 15 → j < 16) :=
  ⟨fun a => ⟨{ doneBlock with inputs := [a] }, rfl, rfl⟩, fun a _ => ⟨{ doneBlock with inputs := [a] }, rfl, rfl, rfl⟩,
    by omega⟩

/-- `Obligations.RegisterReadsFollowTheMap` and `Obligations.CharacterReadsReturnWhatIsStored`, of a result after its end was
observed. -/
theorem witness_result_reads :
    (∃ s : State, s.busy = false ∧ s.inputs = [.hrd 7] ∧ s.done = true ∧ s.unobserved = false) ∧
    (∃ s : State, s.busy = false ∧ 1 < s.caps.capacity .outbuf ∧ Memory.read (s.buf .outbuf) 1 = some 0x41 ∧
      s.unobserved = false ∧ s.inputs = [.brd .outbuf 1]) :=
  ⟨⟨{ observedBlock with inputs := [.hrd 7] }, by decide⟩, ⟨{ observedBlock with inputs := [.brd .outbuf 1] }, by decide⟩⟩

/-- `Obligations.MovoiCopiesTheResult`. -/
theorem witness_movoi : ∃ s : State, s.Inv ∧ s.busy = false ∧ s.unobserved = false ∧ s.Output [0x30, 0x41] ∧ s.olen ≤ s.caps.inMax ∧
    s.inputs = [.movoi] :=
  ⟨{ observedBlock with inputs := [.movoi] }, withInputs_inv observedBlock_inv _, by decide, by decide,
    ⟨by decide, by decide⟩, by decide, by decide⟩

/-- `Obligations.ResetEventGivesTheResetValues`: its first clause, while `BUSY`; its second clause, from `DONE_OK`. -/
theorem witness_reset_event :
    (∃ s : State, s.busy = true ∧ s.busyLeft ≠ 0 ∧ s.inputs = [.rst]) ∧
    (∃ s t : State, step s = .next t ∧ s.st ≠ stIdle ∧ t.st = stIdle) :=
  ⟨⟨{ busyBlock with inputs := [.rst] }, by decide⟩,
    ⟨{ doneBlock with inputs := [.rst] }, _, rfl, by decide, by decide⟩⟩

/-- `Obligations.BusyAlwaysEnds`. -/
theorem witness_busy_ends : busyBlock.busy = true := by decide

/-- `Obligations.HexDigitTables`, the bounds of each clause. -/
theorem witness_hex_digits :
    (9 : Nibble).toNat ≤ 9 ∧ 10 ≤ (10 : Nibble).toNat ∧ hexval 0x30 = some 0 ∧ hexval 0x39 = some 9 ∧ hexval 0x41 = some 10 ∧
    hexval 0x46 = some 15 ∧ hexval 0x61 = some 10 ∧ hexval 0x66 = some 15 ∧ hexval 0x2F = none ∧ hexval 0x3A = none ∧
    hexval 0x40 = none ∧ hexval 0x47 = none ∧ hexval 0x60 = none ∧ hexval 0x67 = none := by decide

/-- `Obligations.HexTextSpellsItsValue`: H10. -/
theorem witness_hex_byte : hexByte 0x61 0x42 = some 0xAB := by decide

/-- `Obligations.CrcDetectsOneChangedCharacter`. -/
theorem witness_changed : (0x41 : Chr) ≠ 0x61 := by decide

/-- `Obligations.EncryptByPosition`. -/
theorem witness_encrypt : encryptToHex [0x41] keyK = .ok [0x30, 0x41] ∧ [(0x41 : Chr)][0]? = some 0x41 ∧
    keyK[0 % keyK.length]? = some 0x4B := by decide

/-- `Obligations.CipherRoundTrips`, both clauses: D12. -/
theorem witness_round_trips : keyK ≠ [] ∧ decryptFromHex [0x61, 0x62] keyK = .ok [0xE0] := by decide

/-- `Obligations.XencCompletesWithTheCipherText`, with key characters the command does not use never written. -/
theorem witness_xenc : ∃ (s : State) (text key : List Chr), s.HasString .inbuf text ∧ s.HasKey key s.ilen ∧ s.klen ≠ 0 ∧
    s.ilen ≤ s.caps.inMax ∧ s.klen ≤ s.caps.keyMax :=
  ⟨{ ready keyK [0x41] [] [] with klen := 2 }, [0x41], [0x4B, 0x4C], by decide⟩

/-- `Obligations.XdecCompletesWithThePlainText` and `Obligations.XdecFollowsDecryptFromHex`. -/
theorem witness_xdec : ∃ (s : State) (hex key : List Chr), s.HasString .inbuf hex ∧ s.HasKey key (s.ilen / 2) ∧ s.klen ≠ 0 ∧
    s.ilen ≤ s.caps.inMax ∧ s.klen ≤ s.caps.keyMax ∧ s.ilen % 2 = 0 ∧ (∀ c ∈ hex, hexval c ≠ none) :=
  ⟨ready keyK [0x61, 0x42] [] [], [0x61, 0x42], keyK, by decide⟩

/-- `Obligations.Crc16CompletesWithTheChecksum`. -/
theorem witness_crc16 : ∃ (s : State) (data : List Chr), s.HasString .inbuf data ∧ s.ilen ≤ s.caps.inMax :=
  ⟨ready [] [0x41] [] [], [0x41], by decide, by decide⟩

/-- `Obligations.BuildCompletesWithThePacket`. -/
theorem witness_build : ∃ (s : State) (text key version deviceId : List Chr), s.HasString .inbuf text ∧
    s.HasKey key s.ilen ∧ s.HasString .verbuf version ∧ s.HasString .devbuf deviceId ∧ s.klen ≠ 0 ∧ s.ilen ≤ s.caps.inMax ∧
    s.klen ≤ s.caps.keyMax ∧ s.vlen ≤ s.caps.verMax ∧ s.dlen ≤ s.caps.devMax :=
  ⟨ready keyK [0x41] [] [0x44], [0x41], keyK, [], [0x44], by decide⟩

/-- `Obligations.BuildSCompletesWithThePacket`; its state also meets the first clause of
`Obligations.BuildSDiffersOnlyByTheFieldCheck`. -/
theorem witness_buildS : ∃ (s : State) (text key version deviceId : List Chr), s.HasString .inbuf text ∧
    s.HasKey key s.ilen ∧ s.HasString .verbuf version ∧ s.HasString .devbuf deviceId ∧ s.klen ≠ 0 ∧ s.vlen = 1 ∧ s.dlen = 16 ∧
    s.ilen ≤ s.caps.inMax ∧ s.klen ≤ s.caps.keyMax ∧ s.vlen ≤ s.caps.verMax ∧ s.dlen ≤ s.caps.devMax :=
  ⟨ready keyK [0x41] [0x31] refdev, [0x41], keyK, [0x31], refdev, by decide⟩

/-- `Obligations.BuildSDiffersOnlyByTheFieldCheck`, second clause. -/
theorem witness_buildS_ok : ∃ s t : State, exec .buildS s = .next t ∧ t.st = stDoneOk := by
  obtain ⟨t, ht, hp⟩ := exists_of_nextAnd (p := fun t => t.st == stDoneOk)
    (o := exec .buildS (ready keyW [0x41] [0x31] refdev)) (by decide +kernel)
  exact ⟨_, t, ht, by simpa using hp⟩

/-- `Obligations.ParseCompletesOnAGoodPacket` and `Obligations.ParseFollowsParsePacket`, at the minimum length (P9v). -/
theorem witness_parse : ∃ (s : State) (packet key : List Chr), s.HasString .inbuf packet ∧ s.HasKey key ((s.ilen - 24) / 2) ∧
    s.klen ≠ 0 ∧ s.ilen ≤ s.caps.inMax ∧ s.klen ≤ s.caps.keyMax ∧ 26 ≤ s.ilen ∧ slice packet 0 3 = [0x57, 0x49, 0x4D] ∧
    (slice packet (s.ilen - 4) s.ilen).map fold = toHex4 (crc16 (slice packet 0 (s.ilen - 4))) ∧ s.ilen % 2 = 0 ∧
    (∀ c ∈ slice packet 20 (s.ilen - 4), hexval c ≠ none) :=
  ⟨ready keyW packet26 [] [], packet26, keyW, by decide +kernel⟩

/-- `Obligations.ParseOutcomeTable`, rows 1 to 4: 25 characters; a header `XIM`; a changed payload character; no key. -/
theorem witness_parse_table_1 :
    (packet26.take 25).length = 25 ∧
    (packet26.set 0 0x58).length = 26 ∧ slice (packet26.set 0 0x58) 0 3 ≠ [0x57, 0x49, 0x4D] ∧
    slice (packet26.set 20 0x32) 0 3 = [0x57, 0x49, 0x4D] ∧
    (slice (packet26.set 20 0x32) 22 26).map fold ≠ toHex4 (crc16 (slice (packet26.set 20 0x32) 0 22)) ∧
    (slice packet26 22 26).map fold = toHex4 (crc16 (slice packet26 0 22)) := by decide +kernel

/-- The packet of P10v, 27 characters with a good checksum. -/
def packet27 : List Chr :=
  [0x57, 0x49, 0x4D, 0x31, 0x49, 0x4D, 0x45, 0x5F, 0x33, 0x34, 0x35, 0x46, 0x34] ++
  [0x35, 0x41, 0x41, 0x43, 0x42, 0x43, 0x43, 0x31, 0x36, 0x44, 0x34, 0x44, 0x31, 0x34]

/-- The packet of P16v, whose payload holds a `G`. -/
def packetG : List Chr :=
  [0x57, 0x49, 0x4D, 0x31, 0x49, 0x4D, 0x45, 0x5F, 0x33, 0x34, 0x35, 0x46, 0x34] ++
  [0x35, 0x41, 0x41, 0x43, 0x42, 0x43, 0x43, 0x31, 0x47, 0x46, 0x30, 0x36, 0x39]

/-- `Obligations.ParseOutcomeTable`, rows 5 to 7: P10v, P16v, P9v. -/
theorem witness_parse_table_2 :
    packet27.length = 27 ∧ slice packet27 0 3 = [0x57, 0x49, 0x4D] ∧
    (slice packet27 23 27).map fold = toHex4 (crc16 (slice packet27 0 23)) ∧
    packetG.length = 26 ∧ slice packetG 0 3 = [0x57, 0x49, 0x4D] ∧
    (slice packetG 22 26).map fold = toHex4 (crc16 (slice packetG 0 22)) ∧ (∃ c ∈ slice packetG 20 22, hexval c = none) ∧
    (∀ c ∈ slice packet26 20 22, hexval c ≠ none) := by decide +kernel

/-- `Obligations.LengthRangeCheckComesFirst`: each length at its capacity and one above it. -/
theorem witness_length_range :
    (∃ s : State, s.ilen = s.caps.inMax ∧ s.klen = s.caps.keyMax ∧ s.vlen = s.caps.verMax ∧ s.dlen = s.caps.devMax) ∧
    (∃ s : State, s.caps.inMax < s.ilen) ∧ (∃ s : State, s.caps.keyMax < s.klen) ∧ (∃ s : State, s.caps.verMax < s.vlen) ∧
    (∃ s : State, s.caps.devMax < s.dlen) :=
  ⟨⟨{ State.reset with ilen := 256, klen := 64, vlen := 16, dlen := 64 }, by decide⟩,
    ⟨{ State.reset with ilen := 257 }, by decide⟩, ⟨{ State.reset with klen := 65 }, by decide⟩,
    ⟨{ State.reset with vlen := 17 }, by decide⟩, ⟨{ State.reset with dlen := 65 }, by decide⟩⟩

/-- `Obligations.LengthRangeCheckComesFirst`, second clause: a command that completes with its lengths in range. -/
theorem witness_length_range_next : ∃ t, exec .crc16 State.reset = .next t := ⟨_, rfl⟩

/-- `Obligations.EmptyKeyIsInvalidKey`, for each of the four commands. -/
theorem witness_empty_key :
    (∀ i, i = .xenc ∨ i = .xdec ∨ i = .build → lengthsInRange State.reset i = true ∧ State.reset.klen = 0) ∧
    (∃ s : State, s.vlen = 1 ∧ s.dlen = 16 ∧ lengthsInRange s .buildS = true ∧ s.klen = 0) :=
  ⟨by rintro i (rfl | rfl | rfl) <;> decide, ⟨{ State.reset with vlen := 1, dlen := 16 }, by decide⟩⟩

/-- `Obligations.OddHexTextIsMalformed`. -/
theorem witness_odd : lengthsInRange (ready keyK [0x41] [] []) .xdec = true ∧ (ready keyK [0x41] [] []).klen ≠ 0 ∧
    (ready keyK [0x41] [] []).ilen % 2 = 1 := by decide

/-- `Obligations.StrictFieldCheckComesFirst`, with each of the two lengths wrong alone, and with both right. -/
theorem witness_strict :
    (∃ s : State, lengthsInRange s .buildS = true ∧ s.vlen ≠ 1 ∧ s.dlen = 16) ∧
    (∃ s : State, lengthsInRange s .buildS = true ∧ s.vlen = 1 ∧ s.dlen ≠ 16) ∧
    (∃ s t : State, s.vlen = 1 ∧ s.dlen = 16 ∧ exec .buildS s = .next t) :=
  ⟨⟨{ State.reset with vlen := 2, dlen := 16 }, by decide⟩, ⟨{ State.reset with vlen := 1, dlen := 15 }, by decide⟩,
    ⟨{ State.reset with vlen := 1, dlen := 16 }, _, by decide, by decide, rfl⟩⟩

/-- `Obligations.ShortPacketIsTooShort`, at 25 and at 26 characters, the second with a next state. -/
theorem witness_short :
    (∃ s : State, lengthsInRange s .parse = true ∧ s.ilen = 25) ∧
    (∃ s t : State, lengthsInRange s .parse = true ∧ s.ilen = 26 ∧ exec .parse s = .next t) := by
  refine ⟨⟨{ State.reset with ilen := 25 }, by decide⟩, ?_⟩
  obtain ⟨t, ht, -⟩ := exists_of_nextAnd (p := fun _ => true) (o := exec .parse (ready keyW packet26 [] [])) (by decide +kernel)
  exact ⟨_, t, by decide, by decide, ht⟩

/-- `Obligations.WrongHeaderIsBadHeader`, with each of the three characters wrong alone. -/
theorem witness_header :
    (∃ s : State, lengthsInRange s .parse = true ∧ 26 ≤ s.ilen ∧ Memory.read s.inbuf 0 = some 0x58 ∧
      Memory.read s.inbuf 1 = some 0x49 ∧ Memory.read s.inbuf 2 = some 0x4D) ∧
    (∃ s : State, lengthsInRange s .parse = true ∧ 26 ≤ s.ilen ∧ Memory.read s.inbuf 0 = some 0x57 ∧
      Memory.read s.inbuf 1 = some 0x58 ∧ Memory.read s.inbuf 2 = some 0x4D) ∧
    (∃ s : State, lengthsInRange s .parse = true ∧ 26 ≤ s.ilen ∧ Memory.read s.inbuf 0 = some 0x57 ∧
      Memory.read s.inbuf 1 = some 0x49 ∧ Memory.read s.inbuf 2 = some 0x6D) :=
  ⟨⟨{ ready [] [0x58, 0x49, 0x4D] [] [] with ilen := 26 }, by decide⟩,
    ⟨{ ready [] [0x57, 0x58, 0x4D] [] [] with ilen := 26 }, by decide⟩,
    ⟨{ ready [] [0x57, 0x49, 0x6D] [] [] with ilen := 26 }, by decide⟩⟩

/-- `Obligations.ErrorKindsOfEachCommand`: each command ends with an error in some state. -/
theorem witness_error_kinds : ∀ i, ∃ (s t : State) (k : ErrKind), exec i s = .next t ∧ t.EndedErr k := by
  intro i
  refine ⟨{ State.reset with ilen := 257 }, State.raiseError { State.reset with ilen := 257 } .badCommand, .badCommand, ?_,
    ⟨rfl, rfl, rfl, rfl⟩⟩
  cases i <;> rfl

/-- `Obligations.EveryCommandEndsInOneWay` and `Obligations.CommandsKeepTheOperands`: each command completes with success in
some state; with it the premises of `Obligations.ResultLengths` are met for each command. -/
theorem witness_success : ∀ i, ∃ s t : State, s.caps.wellFormed = true ∧ exec i s = .next t ∧ t.st = stDoneOk := by
  intro i
  have h : nextAnd (fun t => t.st == stDoneOk)
      (exec i (if i = .parse then ready keyW packet26 [] [] else ready keyW [] [0x31] refdev)) = true := by
    cases i <;> decide +kernel
  obtain ⟨t, ht, hp⟩ := exists_of_nextAnd h
  exact ⟨_, t, by cases i <;> decide, ht, by simpa using hp⟩

/-- `Obligations.FaultsOnlyOnUnwrittenOperands`, second clause: a declared character nobody wrote. -/
theorem witness_fault : exec .crc16 { State.reset with ilen := 1 } = .fault (.unwrittenChar .inbuf 0) := rfl

/-- `Obligations.WrittenOperandsAlwaysComplete`. -/
theorem witness_written : ∃ s : State, ∀ x, x ≠ .outbuf → s.Written x (s.len x) :=
  ⟨ready keyK [0x41] [0x31] refdev, fun x _ => by cases x <;> decide⟩

/-- `Obligations.OutcomeDependsOnDeclaredOperandsOnly`: two states that differ beyond a length and in `OUTBUF`. -/
theorem witness_declared : ∃ s t : State, s ≠ t ∧ s.caps = t.caps ∧ (∀ x, x ≠ .outbuf → s.len x = t.len x) ∧
    (∀ x j, x ≠ .outbuf → j < s.len x → Memory.read (s.buf x) j = Memory.read (t.buf x) j) := by
  refine ⟨ready keyK [0x41] [] [], { ready keyK [0x41, 0x42] [] [] with ilen := 1, olen := 3 }, by decide, by decide, ?_, ?_⟩
  · intro x hx
    cases x <;> first | decide | exact absurd rfl hx
  · intro x j _
    revert j
    cases x <;> decide

/-- `Obligations.PacketRoundTrip`: B4's packet built, and P9v's block to parse it. -/
theorem witness_packet : ∃ (s t u : State) (text key version deviceId packet : List Chr), s.HasString .inbuf text ∧
    s.HasString .keymem key ∧ s.HasString .verbuf version ∧ s.HasString .devbuf deviceId ∧ s.klen ≠ 0 ∧ s.ilen ≠ 0 ∧
    s.vlen = 1 ∧ s.dlen = 16 ∧ lengthsInRange s .build = true ∧ exec .build s = .next t ∧ t.Output packet ∧
    u.HasString .inbuf packet ∧ u.HasString .keymem key ∧ lengthsInRange u .parse = true := by
  obtain ⟨t, ht, hp⟩ := exists_of_nextAnd (p := fun t => t.olen == 26 && t.outbuf == Memory.ofString packet26)
    (o := exec .build (ready keyW [0x41] [0x31] refdev)) (by decide +kernel)
  simp only [Bool.and_eq_true, beq_iff_eq] at hp
  refine ⟨_, t, ready keyW packet26 [] [], [0x41], keyW, [0x31], refdev, packet26, by decide, by decide, by decide, by decide,
    by decide, by decide, by decide, by decide, by decide, ht, ⟨hp.1, ?_⟩, ⟨rfl, Memory.holds_ofString _⟩, by decide, by decide⟩
  rw [hp.2]
  exact Memory.holds_ofString _

/-- `Obligations.OneChangedCharacterIsDetected`: a packet that parses, with a position for each clause at its bounds (2; 3
and 21; 22 with another digit; 22 with the same letter in the other case). -/
theorem witness_one_changed :
    parsePacket packet26 keyW = .ok { deviceId := refdev, decryptedMessage := [0x41] } ∧
    packet26[2]? = some 0x4D ∧ packet26[3]? = some 0x31 ∧ packet26[21]? = some 0x36 ∧ packet26[22]? = some 0x44 ∧
    packet26.length - 4 = 22 ∧ fold 0x45 ≠ fold 0x44 ∧ fold 0x64 = fold 0x44 ∧ (0x64 : Chr) ≠ 0x44 := by decide +kernel

/-- `Obligations.WrongKeyIsNotDetected`. -/
theorem witness_wrong_key :
    parsePacket packet26 keyW = .ok { deviceId := refdev, decryptedMessage := [0x41] } ∧ keyK ≠ [] ∧
    [(0x41 : Chr)][0]? = some 0x41 ∧ keyW[0 % keyW.length]? = some 0x57 ∧ keyK[0 % keyK.length]? = some 0x4B := by decide +kernel

/-- `Obligations.ResetMeetsTheInvariant`: legal capacities other than the model's own. -/
theorem witness_caps :
    ({ keyMax := 1, inMax := 26, verMax := 1, devMax := 16, outMax := 76, lenW := 7 } : Caps).wellFormed = true := by decide

/-- `Obligations.EveryStepKeepsTheInvariant` and `Obligations.CapacitiesNeverChange`: a state that meets the invariant and
takes a step. -/
theorem witness_invariant : ∃ s t : State, s.Inv ∧ step s = .next t := ⟨busyBlock, _, busyBlock_inv, rfl⟩

/-- `Obligations.SequencerMovesForwardOnly`: a tick that moves the sequencer. -/
theorem witness_sequencer : ∃ s t : State, tick s = .next t ∧ s.seq ≠ t.seq :=
  ⟨{ State.reset with seq := .p2 }, _, rfl, by decide⟩

/-- A block at the start of the sequencer step `q`, with everything that step reads written. -/
def atStep (q : Seq) : State :=
  { ready keyW packet26 [] [] with seq := q, outbuf := Memory.ofString packet26 }

/-- `Obligations.TicksKeepTheWorkingRegisters`: in every state of the sequencer a state that meets the invariant and takes a
tick. -/
theorem witness_ticks : ∀ q, ∃ s t : State, s.seq = q ∧ s.WorkingInv ∧ tick s = .next t := by
  intro q
  have h : nextAnd (fun _ => true) (tick (atStep q)) = true := by cases q <;> decide +kernel
  obtain ⟨t, ht, -⟩ := exists_of_nextAnd h
  refine ⟨atStep q, t, rfl, ?_, ht⟩
  cases q <;> first | exact trivial | exact ⟨by decide, by decide⟩

/-- `Obligations.StepLevelReachesTheCommandLevel`, for each command. -/
theorem witness_step_level : ∀ i, (running i State.reset).seq = .start ∧ decode (running i State.reset).cmd = .ok i := by
  intro i; cases i <;> decide

end Sys2Proof.Tests
end

section
/-!
SUPPORT. The step level against the command level (00_scope.md R15): the relation `EndsAs` between the step level's run and
the answer of a command's operation, its rules, one lemma per loop of the units, and one per step of the sequencer
(42_framer.md R153), from the last to the first.
-/

namespace Sys2Proof.Machine

/-! ### The relation between a run of ticks and an operation -/

/-- State `t` shows the end of command `i` with result `r`, in everything the spec fixes (43_command_interface.md R176). -/
structure State.Shows (t : State) (i : Instr) (r : Result) : Prop where
  ended : t.EndedOk r.csok
  output : t.Output r.out
  olen : r.olen = t.olen
  crc : producesCrc i = true → r.crc = some t.crc
  rdev : i = .parse → r.rdev = some t.rdev

/-- From `x`, what a tick of command `i` answered, the ticks that follow end the command as `r` says: with the same stop, or
in a state that shows the result. -/
inductive EndsAs (i : Instr) : Except Stop State → Except Stop Result → Prop
  | stop (e : Stop) : EndsAs i (.error e) (.error e)
  | done {t : State} {r : Result} (h : t.Shows i r) : EndsAs i (.ok t) (.ok r)
  | next {s : State} {x : Except Stop State} {r : Except Stop Result} (ht : tickBody s = x) (h : EndsAs i x r) :
    EndsAs i (.ok s) r

/-- What shows a result agrees with the completion of the command level. -/
theorem State.Shows.specifiedAgree {t : State} {i : Instr} {r : Result} (h : t.Shows i r) (u : State) :
    t.SpecifiedAgree i (u.complete r) where
  status := h.ended.status
  err := h.ended.err
  olen := h.olen.symm
  seq := h.ended.seq
  outbuf _ j hj := by simpa using h.output.outbuf j (h.output.olen ▸ hj)
  crc _ hc := by simp [h.crc hc]
  rdev _ hp := by simp [h.rdev hp]

theorem ticks_succ_of_next {s t : State} (n : Nat) (h : tick s = .next t) : ticks (n + 1) s = ticks n t := by
  simp only [ticks, h]

/-- The relation is about the ticks of Machine/Micro.lean and about how the command level concludes. -/
theorem EndsAs.outcomesAgree {i : Instr} {s : State} {x : Except Stop State} {r : Except Stop Result}
    (hx : tickBody s = x) (h : EndsAs i x r) (u : State) : ∃ n, OutcomesAgree i (ticks n s) (u.conclude r) := by
  induction h generalizing s with
  | stop e =>
    refine ⟨1, ?_⟩
    cases e with
    | raise k => simp only [ticks, tick, hx]; exact ⟨rfl, rfl, rfl, rfl, nofun, nofun, nofun⟩
    | fault f => simp only [ticks, tick, hx]; rfl
  | @done t r h =>
    refine ⟨1, ?_⟩
    simp only [ticks, tick, hx]
    exact h.specifiedAgree u
  | @next t x r ht h ih =>
    obtain ⟨n, hn⟩ := ih ht
    refine ⟨n + 1, ?_⟩
    rw [ticks_succ_of_next n (show tick s = .next t by simp only [tick, hx])]
    exact hn

/-- Both levels make the same move first. -/
theorem EndsAs.bind {α : Type} {i : Instr} {x : Except Stop α} {f : α → Except Stop State} {g : α → Except Stop Result}
    (h : ∀ a, EndsAs i (f a) (g a)) : EndsAs i (x >>= f) (x >>= g) := by
  cases x with
  | error e => exact .stop e
  | ok a => exact h a

/-- A check that stands at the head of every tick of a loop, and once in the operation. -/
theorem EndsAs.check {i : Instr} {s : State} {c : Except Stop Unit} {f : Unit → Except Stop State} {r : Except Stop Result}
    (ht : tickBody s = c >>= f) (h : c = .ok () → tickBody s = f () → EndsAs i (.ok s) r) :
    EndsAs i (.ok s) (c >>= fun _ => r) := by
  cases c with
  | error e => exact .next ht (.stop e)
  | ok _ => exact h rfl ht

/-! ### The working registers -/

/-- What the ticks before the last one of a command change: the working registers (10_state.md R23 to R25), `CRC` and
`OUTBUF`. -/
structure Work where
  seq : Seq
  pos : Nat
  kidx : Nat
  bitcnt : BitVec 3
  hnib : Nibble
  crc : CrcWord
  outbuf : Memory

/-- The command started in `u`, with `w` in the working registers. -/
def State.work (u : State) (w : Work) : State :=
  { u with seq := w.seq, pos := w.pos, kidx := w.kidx, bitcnt := w.bitcnt, hnib := w.hnib, crc := w.crc, outbuf := w.outbuf }

/-- The working registers of a state. -/
def State.ownWork (u : State) : Work :=
  { seq := u.seq, pos := u.pos, kidx := u.kidx, bitcnt := u.bitcnt, hnib := u.hnib, crc := u.crc, outbuf := u.outbuf }

/-- The working registers where the sequencer enters a step. -/
def Work.enter (w : Work) (q : Seq) : Work := { w with seq := q, pos := 0, kidx := 0, bitcnt := 0 }

/-- The working registers where the sequencer enters a checksum step (41_checksum.md R126). -/
def Work.enterCrc (w : Work) (q : Seq) : Work := { w.enter q with crc := crcInit }

section
variable (u : State) (w : Work)

/-- Every state is its own working registers over its operands. -/
theorem State.work_ownWork : u.work u.ownWork = u := rfl
@[simp] theorem State.work_seq : (u.work w).seq = w.seq := rfl
@[simp] theorem State.work_pos : (u.work w).pos = w.pos := rfl
@[simp] theorem State.work_crc : (u.work w).crc = w.crc := rfl
@[simp] theorem State.work_ilen : (u.work w).ilen = u.ilen := rfl
@[simp] theorem State.work_vlen : (u.work w).vlen = u.vlen := rfl
@[simp] theorem enter_work (q : Seq) : enter (u.work w) q = u.work (w.enter q) := rfl
@[simp] theorem buildPayloadOff_work : buildPayloadOff (u.work w) = buildPayloadOff u := rfl
@[simp] theorem buildFrontLen_work : buildFrontLen (u.work w) = buildFrontLen u := rfl
@[simp] theorem keychk_work : keychk (u.work w) = keychk u := rfl

/-- No tick changes an operand (20_memory.md R56). -/
theorem readChar_work {x : Space} (i : Nat) (hx : x ≠ .outbuf) : (u.work w).readChar x i = u.readChar x i := by
  cases x <;> first | rfl | exact absurd rfl hx

theorem compareChars_work (f : Chr → Chr) (k : ErrKind) (i : Nat) (es : List Chr) :
    compareChars (u.work w) f k i es = compareChars u f k i es := by
  induction es generalizing i with
  | nil => rfl
  | cons e es ih => simp only [compareChars, readChar_work u w _ (show Space.inbuf ≠ .outbuf by decide), ih]

@[simp] theorem hdrchk_work : hdrchk (u.work w) = hdrchk u := compareChars_work ..

@[simp] theorem cschk_work (v : CrcWord) : cschk (u.work w) v = cschk u v := compareChars_work ..

theorem readSpan_work {x : Space} (n i : Nat) (hx : x ≠ .outbuf) : readSpan (u.work w) x n i = readSpan u x n i := by
  induction n generalizing i with
  | zero => rfl
  | succ n ih => simp only [readSpan, readChar_work u w _ hx, ih]

@[simp] theorem parseDeviceId_work : parseDeviceId (u.work w) = parseDeviceId u := by
  simp only [parseDeviceId, readSpan_work u w _ _ (show Space.inbuf ≠ .outbuf by decide)]

/-- An encode step, with the reads of the command's start. -/
theorem encStep_work (j o : Nat) :
    encStep (u.work w) j o = (do
      let t ← u.readChar .inbuf j
      let k ← u.readChar .keymem w.kidx
      return u.work { w with
        outbuf := Memory.write (Memory.write w.outbuf o (hexdig (hiNibble (xorb t k)))) (o + 1)
          (hexdig (loNibble (xorb t k)))
        kidx := nextKidx u.klen w.kidx }) := rfl

/-- A decode step, with the reads of the command's start. -/
theorem decStep_work (p o : Nat) :
    decStep (u.work w) p o = (do
      let c0 ← u.readChar .inbuf p
      let c1 ← u.readChar .inbuf (p + 1)
      let h ← digchk c0
      let l ← digchk c1
      let k ← u.readChar .keymem w.kidx
      return u.work { w with
        hnib := h
        outbuf := Memory.write w.outbuf o (xorb (h ++ l) k)
        kidx := nextKidx u.klen w.kidx }) := rfl

end

/-! ### Strings written to `OUTBUF` one character at a time -/

/-- A character written behind a string is a string longer by one. -/
theorem Memory.Holds.write {m : Memory} {str : List Chr} {o : Nat} (h : Memory.Holds m str) (ho : o = str.length) (c : Chr) :
    Memory.Holds (Memory.write m o c) (str ++ [c]) := by
  subst ho
  intro j hj
  rw [Memory.read_write]
  split
  · next e => simp [e]
  · next e =>
    have hj : j < str.length := by simp only [List.length_append, List.length_singleton] at hj; omega
    rw [h j hj, List.getElem?_append_left hj]

theorem Memory.holds_nil (m : Memory) : Memory.Holds m [] := fun _ h => absurd h (Nat.not_lt_zero _)

@[simp] theorem writeString_crc (s : State) (o : Nat) (cs : List Chr) : (writeString s o cs).crc = s.crc := by
  induction cs generalizing s o with
  | nil => rfl
  | cons c cs ih => exact ih ..

theorem writeString_holds {s : State} {str : List Chr} {o : Nat} (h : Memory.Holds s.outbuf str) (ho : o = str.length)
    (cs : List Chr) : Memory.Holds (writeString s o cs).outbuf (str ++ cs) := by
  induction cs generalizing s str o with
  | nil => simpa only [writeString, List.append_nil] using h
  | cons c cs ih =>
    rw [List.append_cons]
    exact ih (h.write ho c) (by simp [ho])

/-- The end of a command with success, where `OUTBUF` holds the result. -/
theorem EndsAs.of_microDone {i : Instr} {t : State} {out : List Chr} {olen : Nat} {crc : Option CrcWord}
    {rdev : Option (Vector Chr 16)} {csok : Bool} (hl : olen = out.length) (ho : Memory.Holds t.outbuf out)
    (hc : producesCrc i = true → crc = some t.crc) (hr : i = .parse → rdev = some t.rdev) :
    EndsAs i (.ok (microDone t olen csok)) (.ok ⟨out, olen, crc, rdev, csok⟩) :=
  .done ⟨⟨rfl, rfl, rfl⟩, ⟨hl, ho⟩, rfl, hc, hr⟩

/-! ### The loops of the units -/

section
variable {i : Instr} {u : State} {w : Work}

/-- The encode loop of unit `CIPH` (40_cipher.md R105, R111), for a sequencer step whose position at text character `j` is
`posAt j` and that writes from `OUTBUF + base` on. -/
theorem encLoop {posAt : Nat → Nat} {base : Nat} {k : List Chr → Except Stop Result}
    (ht : ∀ j κ m, j < u.ilen → tickBody (u.work { w with pos := posAt j, kidx := κ, outbuf := m }) = (do
      let t ← encStep (u.work { w with pos := posAt j, kidx := κ, outbuf := m }) j (base + 2 * j)
      return { t with pos := posAt (j + 1) }))
    (hk : ∀ κ m out, Memory.Holds m out → out.length = base + 2 * u.ilen →
      EndsAs i (.ok (u.work { w with pos := posAt u.ilen, kidx := κ, outbuf := m })) (k out))
    (n j κ : Nat) {m : Memory} {pre : List Chr} (hn : j + n = u.ilen) (hm : Memory.Holds m pre)
    (hl : pre.length = base + 2 * j) :
    EndsAs i (.ok (u.work { w with pos := posAt j, kidx := κ, outbuf := m }))
      (encPass u n j κ >>= fun out => k (pre ++ out)) := by
  induction n generalizing j κ m pre with
  | zero =>
    obtain rfl : j = u.ilen := hn
    change EndsAs i _ (k (pre ++ []))
    rw [List.append_nil]
    exact hk κ m pre hm hl
  | succ n ih =>
    refine .next (ht j κ m (by omega)) ?_
    simp only [encStep_work, encPass, bind_assoc, pure_bind]
    refine EndsAs.bind fun t => EndsAs.bind fun c => ?_
    have hm2 := (hm.write hl.symm (hexdig (hiNibble (xorb t c)))).write (o := base + 2 * j + 1) (by simp [hl])
      (hexdig (loNibble (xorb t c)))
    have h := ih (j + 1) (nextKidx u.klen κ) (by omega) hm2 (by simp [hl]; omega)
    simp only [List.append_assoc] at h
    exact h

/-- The decode loop of unit `CIPH` (40_cipher.md R106, R111) over `len` pairs from `INBUF + base` on. -/
theorem decLoop {base len : Nat} {k : List Chr → Except Stop Result}
    (ht : ∀ j κ h m, j < len → tickBody (u.work { w with pos := j, kidx := κ, hnib := h, outbuf := m }) = (do
      let t ← decStep (u.work { w with pos := j, kidx := κ, hnib := h, outbuf := m }) (base + 2 * j) j
      return { t with pos := j + 1 }))
    (hk : ∀ κ h m out, Memory.Holds m out → out.length = len →
      EndsAs i (.ok (u.work { w with pos := len, kidx := κ, hnib := h, outbuf := m })) (k out))
    (n j κ : Nat) {h : Nibble} {m : Memory} {pre : List Chr} (hn : j + n = len) (hm : Memory.Holds m pre)
    (hl : pre.length = j) :
    EndsAs i (.ok (u.work { w with pos := j, kidx := κ, hnib := h, outbuf := m }))
      (decPass u n (base + 2 * j) κ >>= fun out => k (pre ++ out)) := by
  induction n generalizing j κ h m pre with
  | zero =>
    obtain rfl : j = len := hn
    change EndsAs i _ (k (pre ++ []))
    rw [List.append_nil]
    exact hk κ h m pre hm hl
  | succ n ih =>
    refine .next (ht j κ h m (by omega)) ?_
    simp only [decStep_work, decPass, hexdec, bind_assoc, pure_bind]
    refine EndsAs.bind fun c0 => EndsAs.bind fun c1 => EndsAs.bind fun a => EndsAs.bind fun b =>
      EndsAs.bind fun c => ?_
    have h := ih (j + 1) (nextKidx u.klen κ) (h := a) (by omega) (hm.write hl.symm (xorb (a ++ b) c)) (by simp [hl])
    simp only [List.append_assoc] at h
    exact h

theorem crcStep_of_ne {s : State} {x : Space} (h : s.bitcnt ≠ 0) : crcStep s x = .ok (crcShift s) := by
  rw [crcStep, if_neg h]

theorem crcShift_of_ne {s : State} (h : s.bitcnt ≠ 7) :
    crcShift s = { s with crc := crcBit s.crc, bitcnt := s.bitcnt + 1 } := by
  rw [crcShift, if_neg h]

theorem crcShift_of_eq {s : State} (h : s.bitcnt = 7) :
    crcShift s = { s with crc := crcBit s.crc, bitcnt := 0, pos := s.pos + 1 } := by
  rw [crcShift, if_pos h, h]; rfl

/-- The ticks of one character after its first: `n + 1` applications of `CRCBIT` are left, and with the last one `BITCNT`
wraps to 0 and the position moves on (41_checksum.md R123). -/
theorem crcShifts {x : Space} {p : Nat} {r : Except Stop Result}
    (ht : ∀ c b, tickBody (u.work { w with pos := p, crc := c, bitcnt := b }) =
      crcStep (u.work { w with pos := p, crc := c, bitcnt := b }) x)
    (n : Nat) {c : CrcWord} {b : BitVec 3} (hb : b ≠ 0) (hn : b.toNat + n = 7)
    (h : EndsAs i (.ok (u.work { w with pos := p + 1, crc := crcBits (n + 1) c, bitcnt := 0 })) r) :
    EndsAs i (.ok (u.work { w with pos := p, crc := c, bitcnt := b })) r := by
  induction n generalizing c b with
  | zero =>
    refine .next (ht c b) ?_
    rw [crcStep_of_ne hb, crcShift_of_eq (BitVec.eq_of_toNat_eq hn)]
    exact h
  | succ n ih =>
    have h7 : b ≠ 7 := by rintro rfl; simp at hn
    refine .next (ht c b) ?_
    rw [crcStep_of_ne hb, crcShift_of_ne h7]
    exact ih (b := b + 1) (by bv_omega) (by bv_omega) h

/-- The loop of unit `CSUM` (41_checksum.md R123) over the characters of space `x` below `len`. -/
theorem crcLoop {x : Space} {len : Nat} {k : CrcWord → Except Stop Result}
    (ht : ∀ p c b, p < len → tickBody (u.work { w with pos := p, crc := c, bitcnt := b }) =
      crcStep (u.work { w with pos := p, crc := c, bitcnt := b }) x)
    (hk : ∀ c, EndsAs i (.ok (u.work { w with pos := len, crc := c, bitcnt := 0 })) (k c))
    (n p : Nat) {c : CrcWord} (hn : p + n = len) :
    EndsAs i (.ok (u.work { w with pos := p, crc := c, bitcnt := 0 }))
      (readSpan (u.work w) x n p >>= fun str => k (str.foldl crcByte c)) := by
  induction n generalizing p c with
  | zero =>
    obtain rfl : p = len := hn
    exact hk c
  | succ n ih =>
    have hp : p < len := by omega
    have hs : crcStep (u.work { w with pos := p, crc := c, bitcnt := 0 }) x = (do
        let a ← (u.work w).readChar x p
        return u.work { w with pos := p, crc := crcBit (c ^^^ a.setWidth 16), bitcnt := 1 }) := by
      cases x <;> rfl
    refine .next ((ht p c 0 hp).trans hs) ?_
    simp only [readSpan, bind_assoc, pure_bind]
    refine EndsAs.bind fun a => ?_
    exact crcShifts (fun c b => ht p c b hp) 6 (by decide) (by decide) (ih (p + 1) (by omega))

/-- The copy loop of `BUILD`'s assembly (42_framer.md R148): `len` characters of operand space `x` to `OUTBUF + base`. -/
theorem copyLoop {x : Space} {base len : Nat} {k : List Chr → Except Stop Result}
    (ht : ∀ j m, j < len → tickBody (u.work { w with pos := base + j, outbuf := m }) = (do
      let c ← u.readChar x j
      return u.work { w with pos := base + j + 1, outbuf := Memory.write m (base + j) c }))
    (hk : ∀ m str, Memory.Holds m str → str.length = base + len →
      EndsAs i (.ok (u.work { w with pos := base + len, outbuf := m })) (k str))
    (n j : Nat) {m : Memory} {pre : List Chr} (hn : j + n = len) (hm : Memory.Holds m pre) (hl : pre.length = base + j) :
    EndsAs i (.ok (u.work { w with pos := base + j, outbuf := m })) (readSpan u x n j >>= fun str => k (pre ++ str)) := by
  induction n generalizing j m pre with
  | zero =>
    obtain rfl : j = len := hn
    change EndsAs i _ (k (pre ++ []))
    rw [List.append_nil]
    exact hk m pre hm hl
  | succ n ih =>
    refine .next (ht j m (by omega)) ?_
    simp only [readSpan, bind_assoc, pure_bind]
    refine EndsAs.bind fun c => ?_
    have h := ih (j + 1) (by omega) (hm.write hl.symm c) (by simp [hl]; omega)
    simp only [List.append_assoc] at h
    exact h

end

/-- The checksum pass of the command level folds over the span it reads. -/
theorem crcPass_eq_readSpan (s : State) (n i : Nat) (x : CrcWord) :
    crcPass s n i x = (readSpan s .inbuf n i >>= fun str => .ok (str.foldl crcByte x)) := by
  induction n generalizing i x with
  | zero => rfl
  | succ n ih =>
    simp only [crcPass, readSpan, ih, bind_assoc, pure_bind, List.foldl_cons]

/-! ### The ticks of the sequencer's steps -/

section
variable {u : State} {w : Work}

/-- A tick of `XENC` with a key (40_cipher.md R105). -/
theorem tickBody_xenc (hq : w.seq = .xenc) (hk : keychk u = .ok ()) :
    tickBody (u.work w) = if w.pos < u.ilen then (do
        let t ← encStep (u.work w) w.pos (2 * w.pos)
        return { t with pos := w.pos + 1 })
      else .ok (microDone (u.work w) (2 * u.ilen) false) := by
  simp only [tickBody, State.work_seq, hq, keychk_work, hk]; rfl

/-- A tick of `XDEC` with a key and an even length (40_cipher.md R106). -/
theorem tickBody_xdec (hq : w.seq = .xdec) (hk : keychk u = .ok ()) (hp : pairchk u.ilen = .ok ()) :
    tickBody (u.work w) = if w.pos < u.ilen / 2 then (do
        let t ← decStep (u.work w) (2 * w.pos) w.pos
        return { t with pos := w.pos + 1 })
      else .ok (microDone (u.work w) (u.ilen / 2) false) := by
  simp only [tickBody, State.work_seq, hq, keychk_work, hk, State.work_ilen, hp]; rfl

/-- A tick of `PARSE`'s decode loop with a key and an even length (42_framer.md R152 step 6). -/
theorem tickBody_p6 (hq : w.seq = .p6) (hk : keychk u = .ok ()) (hp : pairchk (u.ilen - framing) = .ok ()) :
    tickBody (u.work w) = if w.pos < (u.ilen - framing) / 2 then (do
        let t ← decStep (u.work w) (payloadOff + 2 * w.pos) w.pos
        return { t with pos := w.pos + 1 })
      else .ok (u.work (w.enter .p7)) := by
  simp only [tickBody, State.work_seq, hq, keychk_work, hk, State.work_ilen, hp]; rfl

/-- The tick that ends `PARSE`'s checksum pass with the comparison (42_framer.md R152 step 4). -/
theorem tickBody_p5_end (hq : w.seq = .p5) (hp : w.pos = u.ilen - chkLen) :
    tickBody (u.work w) = (do cschk u w.crc; return u.work (w.enter .p6)) := by
  simp only [tickBody, State.work_seq, hq, State.work_pos, hp, State.work_ilen, Nat.lt_irrefl, if_false, cschk_work,
    State.work_crc, enter_work]

theorem assembleStep_header (hp : w.pos < hdrLen) :
    assembleStep (u.work w) =
      .ok (u.work { w with outbuf := Memory.write w.outbuf w.pos (hdr.getD w.pos 0), pos := w.pos + 1 }) := if_pos hp

theorem assembleStep_version {j : Nat} (hp : w.pos = hdrLen + j) (hj : j < u.vlen) :
    assembleStep (u.work w) = (do
      let c ← u.readChar .verbuf j
      return u.work { w with pos := w.pos + 1, outbuf := Memory.write w.outbuf w.pos c }) := by
  have h1 : ¬ (u.work w).pos < hdrLen := by rw [State.work_pos]; omega
  have h2 : (u.work w).pos < hdrLen + (u.work w).vlen := by rw [State.work_pos, State.work_vlen]; omega
  obtain rfl : j = w.pos - hdrLen := by omega
  rw [assembleStep, if_neg h1, if_pos h2]
  rfl

theorem assembleStep_device {j : Nat} (hp : w.pos = hdrLen + u.vlen + j) (hj : j < u.dlen) :
    assembleStep (u.work w) = (do
      let c ← u.readChar .devbuf j
      return u.work { w with pos := w.pos + 1, outbuf := Memory.write w.outbuf w.pos c }) := by
  have h1 : ¬ (u.work w).pos < hdrLen := by rw [State.work_pos]; omega
  have h2 : ¬ (u.work w).pos < hdrLen + (u.work w).vlen := by rw [State.work_pos, State.work_vlen]; omega
  have h3 : (u.work w).pos < buildPayloadOff (u.work w) := by
    rw [State.work_pos, buildPayloadOff_work, buildPayloadOff]; omega
  obtain rfl : j = w.pos - (hdrLen + u.vlen) := by omega
  rw [assembleStep, if_neg h1, if_neg h2, if_pos h3]
  rfl

theorem assembleStep_payload {j : Nat} (hp : w.pos = buildPayloadOff u + 2 * j) :
    assembleStep (u.work w) = (do
      let t ← encStep (u.work w) j w.pos
      return { t with pos := w.pos + 2 }) := by
  have hP : buildPayloadOff u = hdrLen + u.vlen + u.dlen := rfl
  have h1 : ¬ (u.work w).pos < hdrLen := by rw [State.work_pos]; omega
  have h2 : ¬ (u.work w).pos < hdrLen + (u.work w).vlen := by rw [State.work_pos, State.work_vlen]; omega
  have h3 : ¬ (u.work w).pos < buildPayloadOff (u.work w) := by rw [State.work_pos, buildPayloadOff_work]; omega
  obtain rfl : j = (w.pos - buildPayloadOff u) / 2 := by omega
  rw [assembleStep, if_neg h1, if_neg h2, if_neg h3]
  rfl

/-- A tick of `BUILD`'s assembly. -/
theorem tickBody_b2 (hq : w.seq = .b2) (hp : w.pos < buildFrontLen u) : tickBody (u.work w) = assembleStep (u.work w) := by
  simp only [tickBody, State.work_seq, hq, State.work_pos, buildFrontLen_work, hp, if_true]

end

section
variable (u : State) (w : Work)

theorem tickBody_b0 : tickBody (u.work (w.enter .b0)) = (do fldchk u; return u.work (w.enter .b1)) := rfl
theorem tickBody_b1 : tickBody (u.work (w.enter .b1)) = (do keychk u; return u.work (w.enter .b2)) := rfl
theorem tickBody_p1 : tickBody (u.work (w.enter .p1)) = (do lenchk u; return u.work (w.enter .p2)) := rfl
theorem tickBody_p2 : tickBody (u.work (w.enter .p2)) = .ok (u.work (w.enter .p3)) := rfl
theorem tickBody_p3 : tickBody (u.work (w.enter .p3)) = (do hdrchk u; return u.work (w.enter .p4)) := by
  rw [← hdrchk_work u (w.enter .p3)]; rfl
theorem tickBody_p4 : tickBody (u.work (w.enter .p4)) = .ok (u.work (w.enterCrc .p5)) := rfl
theorem tickBody_p7 : tickBody (u.work (w.enter .p7)) = (do
    let d ← parseDeviceId u
    return microDone { u.work (w.enter .p7) with rdev := d } ((u.ilen - framing) / 2) true) := by
  rw [← parseDeviceId_work u (w.enter .p7)]; rfl

theorem buildFrontLen_add_chkLen : buildFrontLen u + chkLen = 7 + u.vlen + u.dlen + 2 * u.ilen := by
  simp only [buildFrontLen, buildPayloadOff, hdrLen, chkLen]; omega

theorem tickBody_b4 : tickBody (u.work (w.enter .b4)) =
    .ok (microDone (writeString (u.work (w.enter .b4)) (buildFrontLen u) (toHex4 w.crc)) (7 + u.vlen + u.dlen + 2 * u.ilen)
      false) := by
  rw [← buildFrontLen_add_chkLen]; rfl

end

/-! ### The steps of the sequencer, each from its entry to the end of the command -/

section
variable {i : Instr} (u : State) (w : Work)

/-- The checksum steps over `INBUF`. -/
theorem crcLoop_inbuf {q : Seq} {len : Nat} {k : CrcWord → Except Stop Result}
    (ht : ∀ p c b, p < len → tickBody (u.work { w.enter q with pos := p, crc := c, bitcnt := b }) =
      crcStep (u.work { w.enter q with pos := p, crc := c, bitcnt := b }) .inbuf)
    (hk : ∀ c, EndsAs i (.ok (u.work { w.enter q with pos := len, crc := c, bitcnt := 0 })) (k c)) :
    EndsAs i (.ok (u.work (w.enterCrc q))) (crcPass u len 0 crcInit >>= k) := by
  rw [crcPass_eq_readSpan, bind_assoc, ← readSpan_work u (w.enter q) _ _ (show Space.inbuf ≠ .outbuf by decide)]
  exact crcLoop ht hk len 0 (Nat.zero_add len)

theorem xenc_endsAs : EndsAs .xenc (.ok (u.work (w.enter .xenc))) (xencOperation u) := by
  refine EndsAs.check rfl fun hk _ => ?_
  refine encLoop (w := w.enter .xenc) (posAt := id) (base := 0) (k := fun out => .ok ⟨out, 2 * u.ilen, none, none, false⟩)
    (fun j κ m hj => ?_) (fun κ m out hm hl => ?_) u.ilen 0 0 (pre := []) (Nat.zero_add _) (Memory.holds_nil _) rfl
  · rw [Nat.zero_add]
    exact (tickBody_xenc rfl hk).trans (if_pos hj)
  · exact .next ((tickBody_xenc rfl hk).trans (if_neg (Nat.lt_irrefl _))) (.of_microDone (by omega) hm nofun nofun)

theorem xdec_endsAs : EndsAs .xdec (.ok (u.work (w.enter .xdec))) (xdecOperation u) := by
  refine EndsAs.check rfl fun hk ht => EndsAs.check ht fun hp _ => ?_
  refine decLoop (w := w.enter .xdec) (base := 0) (len := u.ilen / 2)
    (k := fun out => .ok ⟨out, u.ilen / 2, none, none, false⟩) (fun j κ h m hj => ?_) (fun κ h m out hm hl => ?_)
    (u.ilen / 2) 0 0 (pre := []) (Nat.zero_add _) (Memory.holds_nil _) rfl
  · rw [Nat.zero_add]
    exact (tickBody_xdec rfl hk hp).trans (if_pos hj)
  · exact .next ((tickBody_xdec rfl hk hp).trans (if_neg (Nat.lt_irrefl _))) (.of_microDone hl.symm hm nofun nofun)

theorem crc16_endsAs : EndsAs .crc16 (.ok (u.work (w.enterCrc .crc16))) (crc16Operation u) :=
  crcLoop_inbuf u w (fun _ _ _ hp => if_pos hp) fun _ => .next (if_neg (Nat.lt_irrefl _))
    (.of_microDone rfl (Memory.holds_nil _) (fun _ => rfl) nofun)

/-! #### `BUILD`, from its last step to its first -/

/-- The result of a `BUILD` with the front part `front` and the checksum `v` (42_framer.md R150). -/
def buildResult (front : List Chr) (v : CrcWord) : Result :=
  { out := front ++ toHex4 v, olen := 7 + u.vlen + u.dlen + 2 * u.ilen, crc := some v, rdev := none, csok := false }

theorem b4_endsAs (hi : i ≠ .parse) {front : List Chr} (hm : Memory.Holds w.outbuf front)
    (hl : front.length = buildFrontLen u) :
    EndsAs i (.ok (u.work (w.enter .b4))) (.ok (buildResult u front w.crc)) := by
  refine .next (tickBody_b4 u w) (.of_microDone ?_ (writeString_holds hm hl.symm _) (fun _ => ?_) (fun h => absurd h hi))
  · rw [← buildFrontLen_add_chkLen, List.length_append, hl, toHex4_length]; rfl
  · rw [writeString_crc]; rfl

theorem b3_endsAs (hi : i ≠ .parse) {front : List Chr} (hm : Memory.Holds w.outbuf front)
    (hl : front.length = buildFrontLen u) :
    EndsAs i (.ok (u.work (w.enterCrc .b3))) (.ok (buildResult u front (crcStr front))) := by
  have hm' : ∀ j, 0 ≤ j → j < 0 + buildFrontLen u → Memory.read ((u.work (w.enter .b3)).buf .outbuf) j = front[j]? :=
    fun j _ hj => hm j (by omega)
  have hr : readSpan (u.work (w.enter .b3)) .outbuf (buildFrontLen u) 0 = .ok front := by
    rw [readSpan_of_stored _ _ hm' (by omega), List.drop_zero, List.take_of_length_le (by omega)]
  have h := crcLoop (i := i) (w := w.enter .b3) (x := .outbuf) (len := buildFrontLen u)
    (k := fun c => .ok (buildResult u front c)) (fun p c b hp => if_pos hp)
    (fun c => .next (if_neg (Nat.lt_irrefl _)) (b4_endsAs u _ hi hm hl)) (buildFrontLen u) 0 (c := crcInit) (Nat.zero_add _)
  rw [hr] at h
  exact h

/-- The payload of the packet, behind `front`. -/
theorem b2_payload_endsAs (hi : i ≠ .parse) {m : Memory} {front : List Chr} (hm : Memory.Holds m front)
    (hl : front.length = buildPayloadOff u) :
    EndsAs i (.ok (u.work { w.enter .b2 with pos := buildPayloadOff u, outbuf := m })) (do
      let payload ← encPass u u.ilen 0 0
      return buildResult u (front ++ payload) (crcStr (front ++ payload))) := by
  refine encLoop (w := w.enter .b2) (posAt := fun j => buildPayloadOff u + 2 * j) (base := buildPayloadOff u)
    (k := fun front => .ok (buildResult u front (crcStr front))) (fun j κ m hj => ?_) (fun κ m out hm hl => ?_) u.ilen 0 0
    (Nat.zero_add _) hm hl
  · have hp : buildPayloadOff u + 2 * j < buildFrontLen u := by rw [buildFrontLen]; omega
    exact (tickBody_b2 rfl hp).trans (assembleStep_payload rfl)
  · exact .next (if_neg (Nat.lt_irrefl _)) (b3_endsAs u _ hi hm hl)

/-- The device id, behind `front`, and what follows. -/
theorem b2_device_endsAs (hi : i ≠ .parse) {m : Memory} {front : List Chr} (hm : Memory.Holds m front)
    (hl : front.length = hdrLen + u.vlen) :
    EndsAs i (.ok (u.work { w.enter .b2 with pos := hdrLen + u.vlen, outbuf := m })) (do
      let deviceId ← readSpan u .devbuf u.dlen 0
      let payload ← encPass u u.ilen 0 0
      return buildResult u (front ++ deviceId ++ payload) (crcStr (front ++ deviceId ++ payload))) := by
  refine copyLoop (w := w.enter .b2) (base := hdrLen + u.vlen) (k := fun front => do
    let payload ← encPass u u.ilen 0 0
    return buildResult u (front ++ payload) (crcStr (front ++ payload))) (fun j m hj => ?_)
    (fun m str hm hl => b2_payload_endsAs u w hi hm hl) u.dlen 0 (Nat.zero_add _) hm hl
  have hp : hdrLen + u.vlen + j < buildFrontLen u := by rw [buildFrontLen, buildPayloadOff]; omega
  exact (tickBody_b2 rfl hp).trans (assembleStep_device rfl hj)

/-- The version, behind the header, and what follows. -/
theorem b2_version_endsAs (hi : i ≠ .parse) {m : Memory} (hm : Memory.Holds m hdr) :
    EndsAs i (.ok (u.work { w.enter .b2 with pos := hdrLen, outbuf := m })) (do
      let version ← readSpan u .verbuf u.vlen 0
      let deviceId ← readSpan u .devbuf u.dlen 0
      let payload ← encPass u u.ilen 0 0
      return buildResult u (hdr ++ version ++ deviceId ++ payload) (crcStr (hdr ++ version ++ deviceId ++ payload))) := by
  refine copyLoop (w := w.enter .b2) (base := hdrLen) (k := fun front => do
    let deviceId ← readSpan u .devbuf u.dlen 0
    let payload ← encPass u u.ilen 0 0
    return buildResult u (front ++ deviceId ++ payload) (crcStr (front ++ deviceId ++ payload))) (fun j m hj => ?_)
    (fun m str hm hl => b2_device_endsAs u w hi hm hl) u.vlen 0 (Nat.zero_add _) hm rfl
  have hp : hdrLen + j < buildFrontLen u := by rw [buildFrontLen, buildPayloadOff]; omega
  exact (tickBody_b2 rfl hp).trans (assembleStep_version rfl hj)

/-- A tick that writes a header character. -/
theorem b2_header_next {j : Nat} {m : Memory} {r : Except Stop Result} (hj : j < hdrLen)
    (h : EndsAs i (.ok (u.work { w.enter .b2 with pos := j + 1, outbuf := Memory.write m j (hdr.getD j 0) })) r) :
    EndsAs i (.ok (u.work { w.enter .b2 with pos := j, outbuf := m })) r := by
  have hp : j < buildFrontLen u := by rw [buildFrontLen, buildPayloadOff]; omega
  exact .next ((tickBody_b2 rfl hp).trans (assembleStep_header hj)) h

theorem b1_endsAs (hi : i ≠ .parse) : EndsAs i (.ok (u.work (w.enter .b1))) (buildOperation u) := by
  refine .next (tickBody_b1 u w) (EndsAs.bind fun _ => ?_)
  have hm := (((Memory.holds_nil w.outbuf).write rfl 0x57).write rfl 0x49).write rfl 0x4D
  have h := b2_version_endsAs (i := i) u w hi hm
  exact b2_header_next (j := 0) u w (by decide) (b2_header_next u w (by decide) (b2_header_next u w (by decide) h))

theorem b0_endsAs (hi : i ≠ .parse) : EndsAs i (.ok (u.work (w.enter .b0))) (buildSOperation u) :=
  .next (tickBody_b0 u w) (EndsAs.bind fun _ => b1_endsAs u w hi)

/-! #### `PARSE`, from its last step to its first -/

/-- The result of a `PARSE` (42_framer.md R152). -/
def parseResult (v : CrcWord) (message : List Chr) (deviceId : Vector Chr 16) : Result :=
  { out := message, olen := (u.ilen - framing) / 2, crc := some v, rdev := some deviceId, csok := true }

theorem p7_endsAs {message : List Chr} (hm : Memory.Holds w.outbuf message) (hl : message.length = (u.ilen - framing) / 2) :
    EndsAs i (.ok (u.work (w.enter .p7))) (do
      let deviceId ← parseDeviceId u
      return parseResult u w.crc message deviceId) :=
  .next (tickBody_p7 u w) (EndsAs.bind fun _ => .of_microDone hl.symm hm (fun _ => rfl) (fun _ => rfl))

theorem p6_endsAs : EndsAs i (.ok (u.work (w.enter .p6))) (do
    keychk u
    pairchk (u.ilen - framing)
    let message ← decPass u ((u.ilen - framing) / 2) payloadOff 0
    let deviceId ← parseDeviceId u
    return parseResult u w.crc message deviceId) := by
  refine EndsAs.check rfl fun hk ht => EndsAs.check ht fun hp _ => ?_
  exact decLoop (w := w.enter .p6) (base := payloadOff) (len := (u.ilen - framing) / 2)
    (k := fun out => do
      let deviceId ← parseDeviceId u
      return parseResult u w.crc out deviceId)
    (fun j κ h m hj => (tickBody_p6 rfl hk hp).trans (if_pos hj))
    (fun κ h m out hm hl => .next ((tickBody_p6 rfl hk hp).trans (if_neg (Nat.lt_irrefl _))) (p7_endsAs u _ hm hl))
    ((u.ilen - framing) / 2) 0 0 (pre := []) (Nat.zero_add _) (Memory.holds_nil _) rfl

theorem p1_endsAs : EndsAs i (.ok (u.work (w.enter .p1))) (parseOperation u) := by
  refine .next (tickBody_p1 u w) (EndsAs.bind fun _ => .next (tickBody_p2 u w) (.next (tickBody_p3 u w) ?_))
  refine EndsAs.bind fun _ => .next (tickBody_p4 u w) (crcLoop_inbuf u w (fun _ _ _ hp => if_pos hp) fun c => ?_)
  exact .next (tickBody_p5_end rfl rfl) (EndsAs.bind fun _ => p6_endsAs u { w with crc := c })

end

/-! ### The whole command -/

/-- From its first step each command ends as its operation says. -/
theorem enterCommand_endsAs (i : Instr) (s : State) : EndsAs i (.ok (enterCommand s i)) (operation i s) := by
  cases i with
  | xenc => exact xenc_endsAs s s.ownWork
  | xdec => exact xdec_endsAs s s.ownWork
  | crc16 => exact crc16_endsAs s s.ownWork
  | build => exact b1_endsAs s s.ownWork nofun
  | buildS => exact b0_endsAs s s.ownWork nofun
  | parse => exact p1_endsAs s s.ownWork

/-- The tick of the state `start`: the word check and the length check (43_command_interface.md R173, R174). -/
theorem tickBody_start {s : State} {i : Instr} (hq : s.seq = .start) (hd : decode s.cmd = .ok i) :
    tickBody s = if lengthsInRange s i then .ok (enterCommand s i) else .error (.raise .badCommand) := by
  simp only [tickBody, hq, State.commandWord, hd]

/-- Settles O59: the tick of `start` makes the length check, and from a command's first step the ticks end as its operation
says, by one lemma per step of the sequencer. -/
theorem stepLevelReachesTheCommandLevel : Obligations.StepLevelReachesTheCommandLevel := by
  intro s i hq hd
  have ht := tickBody_start hq hd
  rw [exec_eq, runCommand]
  cases hl : lengthsInRange s i with
  | true => exact EndsAs.outcomesAgree (ht.trans (if_pos hl)) (enterCommand_endsAs i s) s
  | false => exact EndsAs.outcomesAgree (ht.trans (if_neg (by simp [hl]))) (.stop (.raise .badCommand)) s

end Sys2Proof.Machine
end

section
/-!
SUPPORT. What serving one input does to the state, the invariant of the block's states (Safety.lean) kept by every named
operation and so by every step, and the statements of 10_state.md about the registers.
-/

namespace Sys2Proof.Machine

/-! ### The command word and the result length -/

/-- The decoder reads a word as the command whose word it is (30_encoding.md R72). -/
theorem encode_of_decode {w : BitVec 8} {i : Instr} (h : decode w = .ok i) : encode i = w := by
  unfold decode at h
  split at h
  · next r hr =>
    cases h
    have hp : w &&& r.mask = r.pattern := by simpa using List.find?_some hr
    have hm : r.mask = BitVec.allOnes 8 ∧ encode r.instr = r.pattern :=
      (show ∀ r ∈ opcodeTable, r.mask = BitVec.allOnes 8 ∧ encode r.instr = r.pattern by decide) r
        (List.mem_of_find?_eq_some hr)
    rw [hm.2, ← hp, hm.1, BitVec.and_allOnes]
  · cases h

/-- No two commands have the same word. -/
theorem encode_injective {i j : Instr} (h : encode i = encode j) : i = j := by
  have := decode_encode i
  rw [h, decode_encode] at this
  cases this
  rfl

/-- With legal capacities and lengths no result overflows `OUTBUF` (00_scope.md R9, 10_state.md R33). -/
theorem resultLen_le_outMax {i : Instr} {s : State} (hc : s.caps.wellFormed = true) (hl : lengthsInRange s i = true) :
    resultLen i s ≤ s.caps.outMax := by
  have ho : 7 + s.caps.verMax + s.caps.devMax + 2 * s.caps.inMax ≤ s.caps.outMax := by
    simp only [Caps.wellFormed, Caps.outMaxOk, Bool.and_eq_true, decide_eq_true_eq] at hc
    obtain ⟨⟨-, h⟩, -⟩ := hc
    exact h
  cases i <;> simp only [lengthsInRange, resultLen, Bool.and_eq_true, decide_eq_true_eq] at hl ⊢ <;> omega

/-! ### What serving one input does -/

/-- What a register write can do (10_state.md R31): nothing, start a command, or store a length. -/
theorem writeRegister_cases (s : State) (n v : Nat) :
    s.writeRegister n v = s ∨ s.writeRegister n v = s.startCommand (BitVec.ofNat 8 v) ∨
    s.writeRegister n v = { s with klen := s.lengthValue v } ∨ s.writeRegister n v = { s with ilen := s.lengthValue v } ∨
    s.writeRegister n v = { s with vlen := s.lengthValue v } ∨ s.writeRegister n v = { s with dlen := s.lengthValue v } := by
  unfold State.writeRegister
  split_ifs <;> simp

/-- What a character write can do (20_memory.md R50): nothing, or store below the capacity of an operand space. -/
theorem writeCharacter_cases (s : State) (x : Space) (i : Nat) (v : Chr) :
    s.writeCharacter x i v = s ∨
    (x ≠ .outbuf ∧ i < s.caps.capacity x ∧ s.writeCharacter x i v = s.writeBuf x i v) := by
  unfold State.writeCharacter
  split_ifs with hb hx
  · exact .inl rfl
  · exact .inl rfl
  · rw [not_or, Nat.not_le] at hx
    exact .inr ⟨hx.1, hx.2, rfl⟩

/-! ### The capacities (10_state.md R21, R37) -/

@[simp] theorem writeRegister_caps (s : State) (n v : Nat) : (s.writeRegister n v).caps = s.caps := by
  rcases writeRegister_cases s n v with h | h | h | h | h | h <;> simp [h]

@[simp] theorem writeCharacter_caps (s : State) (x : Space) (i : Nat) (v : Chr) : (s.writeCharacter x i v).caps = s.caps := by
  rcases writeCharacter_cases s x i v with h | ⟨-, -, h⟩ <;> simp [h]

@[simp] theorem serve_caps (s : State) (a : Input) : (serve s a).caps = s.caps := by
  cases a <;> simp [serve]

/-- Settles O56: none of a step's cases changes the capacities, and none is a refusal. -/
theorem capacitiesNeverChange : Obligations.CapacitiesNeverChange := by
  intro s
  rcases step_cases s with ⟨-, h⟩ | ⟨n, a, rest, -, -, -, h⟩ | ⟨-, -, h⟩ | ⟨a, rest, -, -, h⟩ <;> rw [h]
  · rcases engineStep_cases s with ⟨i, r, -, -, -, he⟩ | ⟨k, he, -⟩ | ⟨x, j, he⟩ <;> rw [he]
    · exact ⟨by rintro t ⟨⟩; simp, nofun⟩
    · exact ⟨by rintro t ⟨⟩; simp, nofun⟩
    · exact ⟨nofun, nofun⟩
  · exact ⟨by rintro t ⟨⟩; simp, nofun⟩
  · exact ⟨by rintro t ⟨⟩; rfl, nofun⟩
  · exact ⟨by rintro t ⟨⟩; simp, nofun⟩

/-! ### The invariant, at reset -/

/-- The reset state meets the invariant, with any legal capacities. -/
theorem resetWith_inv {c : Caps} (hc : c.wellFormed = true) : (State.resetWith c).Inv where
  caps := hc
  klen := Nat.two_pow_pos _
  ilen := Nat.two_pow_pos _
  vlen := Nat.two_pow_pos _
  dlen := Nat.two_pow_pos _
  keymem := Memory.fits_nil _
  inbuf := Memory.fits_nil _
  verbuf := Memory.fits_nil _
  devbuf := Memory.fits_nil _
  outbuf := Memory.fits_nil _
  result := rfl
  olen := Nat.zero_le _
  olenZero _ := rfl
  err := iff_of_true rfl (show stIdle ≠ stDoneErr by decide)
  csok := iff_of_false (show ¬ (0 : BitVec 3).getLsbD 2 = true by decide)
    (fun h => absurd h.1 (show stIdle ≠ stDoneOk by decide))
  seq := iff_of_true rfl (show stIdle ≠ stBusy by decide)
  idleCmd _ := rfl
  legal h := absurd h (show stIdle ≠ stDoneOk by decide)
  illegal h := absurd h (show stIdle ≠ stDoneErr by decide)
  observed h := absurd h Bool.false_ne_true

/-- Settles O54: the reset state lists nothing, has length 0 everywhere and runs no command. -/
theorem resetMeetsTheInvariant : Obligations.ResetMeetsTheInvariant :=
  ⟨fun _ => resetWith_inv, resetWith_inv (by decide)⟩

/-! ### The invariant, kept by the named operations -/

section
variable {s : State} (h : s.Inv)
include h

/-- The reset event (70_reset_and_hazards.md R220). -/
theorem State.Inv.resetEvent : s.resetEvent.Inv :=
  { resetWith_inv h.caps with
    olenZero := fun _ => rfl
    err := by simp [stIdle, stDoneErr]
    csok := by simp [stIdle, stDoneOk]
    seq := by simp [stIdle, stBusy]
    idleCmd := fun _ => rfl
    legal := by simp [stIdle, stDoneOk]
    illegal := by simp [stIdle, stDoneErr]
    observed := by simp }

/-- The invariant says nothing of the pending inputs and of how many are still served. -/
theorem State.Inv.pending (l : List Input) (n : Nat) : ({ s with inputs := l, busyLeft := n } : State).Inv := { h with }

/-- Starting a command (43_command_interface.md R171). -/
theorem State.Inv.startCommand (w : BitVec 8) : (s.startCommand w).Inv :=
  { h with
    outbuf := Memory.fits_nil _
    result := rfl
    olen := Nat.zero_le _
    olenZero := fun _ => rfl
    err := by simp [stBusy, stDoneErr]
    csok := by simp [stBusy, stDoneOk]
    seq := by simp
    idleCmd := by simp [stBusy, stIdle]
    legal := by simp [stBusy, stDoneOk]
    illegal := by simp [stBusy, stDoneErr]
    observed := by simp }

/-- Completion with success of the command whose word `CMD` holds (43_command_interface.md R172). -/
theorem State.Inv.complete {i : Instr} {r : Result} (hd : decode s.cmd = .ok i) (hl : lengthsInRange s i = true)
    (hf : r.Fits i s) : (s.complete r).Inv :=
  have hlen : r.out.length = r.olen := hf.out.trans hf.olen.symm
  have hmax : r.olen ≤ s.caps.outMax := hf.olen ▸ resultLen_le_outMax h.caps hl
  have hcmd : encode i = s.cmd := encode_of_decode hd
  { h with
    outbuf := Memory.fits_ofString (hlen ▸ hmax)
    result := (Memory.ofString_indexes r.out).trans (congrArg List.range hlen)
    olen := hmax
    olenZero := by simp
    err := by simp [stDoneOk, stDoneErr]
    csok := by simpa [hf.csok, ← hcmd] using ⟨congrArg encode, encode_injective⟩
    seq := by simp [stDoneOk, stBusy]
    idleCmd := by simp [stDoneOk, stIdle]
    legal := fun _ => ⟨i, hcmd.symm⟩
    illegal := by simp [stDoneOk, stDoneErr]
    observed := by simp }

/-- The error entry (60_exceptions.md R200), with `BadCommand` for an illegal word. -/
theorem State.Inv.raiseError {k : ErrKind} (hk : (∀ i, decode s.cmd ≠ .ok i) → k = .badCommand) : (s.raiseError k).Inv :=
  { h with
    outbuf := Memory.fits_nil _
    result := rfl
    olen := Nat.zero_le _
    olenZero := fun _ => rfl
    err := iff_of_false k.code_ne_zero (not_not.2 (State.raiseError_st s k))
    csok := by simp [stDoneErr, stDoneOk]
    seq := by simp [stDoneErr, stBusy]
    idleCmd := by simp [stDoneErr, stIdle]
    legal := by simp [stDoneErr, stDoneOk]
    illegal := fun _ hw => by
      rw [State.raiseError_err, hk fun i hd => hw i (encode_of_decode hd).symm]
    observed := by simp }

/-- A host read (20_memory.md R62) tells of the end of a command only where one has ended. -/
theorem State.Inv.hostRead (v : Nat) (b : Bool) : (s.hostRead v b).Inv :=
  { h with
    observed := by
      simp only [State.hostRead_observed, State.hostRead_done, Bool.or_eq_true, Bool.and_eq_true]
      rintro (ho | ⟨-, hd⟩)
      · exact h.observed ho
      · exact hd }

theorem State.Inv.writeRegister (n v : Nat) : (s.writeRegister n v).Inv := by
  have hv : s.lengthValue v < 2 ^ s.caps.lenW := Nat.mod_lt _ (Nat.two_pow_pos _)
  rcases writeRegister_cases s n v with e | e | e | e | e | e <;> rw [e]
  · exact h
  · exact h.startCommand _
  · exact { h with klen := hv }
  · exact { h with ilen := hv }
  · exact { h with vlen := hv }
  · exact { h with dlen := hv }

theorem State.Inv.writeCharacter (x : Space) (i : Nat) (v : Chr) : (s.writeCharacter x i v).Inv := by
  rcases writeCharacter_cases s x i v with e | ⟨hx, hi, e⟩ <;> rw [e]
  · exact h
  · cases x with
    | keymem => exact { h with keymem := Memory.fits_write v h.keymem hi }
    | inbuf => exact { h with inbuf := Memory.fits_write v h.inbuf hi }
    | verbuf => exact { h with verbuf := Memory.fits_write v h.verbuf hi }
    | devbuf => exact { h with devbuf := Memory.fits_write v h.devbuf hi }
    | outbuf => exact absurd rfl hx

theorem State.Inv.serve (a : Input) : (serve s a).Inv := by
  cases a with
  | hwr n v => exact h.writeRegister n v
  | hrd n => exact h.hostRead _ _
  | bwr x i v => exact h.writeCharacter x i v
  | brd x i => exact h.hostRead _ _
  | wait => exact h.hostRead _ _
  | movoi => exact { h with }
  | watchDone => exact h.hostRead _ _
  | rst => exact h.resetEvent

end

/-- Settles O55: a step serves one input or completes the command, and each of these operations keeps the invariant. -/
theorem everyStepKeepsTheInvariant : Obligations.EveryStepKeepsTheInvariant := by
  intro s t h ht
  rcases step_cases s with ⟨-, e⟩ | ⟨n, a, rest, -, -, -, e⟩ | ⟨-, -, e⟩ | ⟨a, rest, -, -, e⟩ <;> rw [e] at ht
  · rcases engineStep_cases s with ⟨i, r, hd, hl, hf, he⟩ | ⟨k, he, hk⟩ | ⟨x, j, he⟩ <;> rw [he] at ht <;> cases ht
    · exact h.complete hd hl hf
    · exact h.raiseError hk
  · cases ht; exact (h.pending rest n).serve a
  · cases ht; exact h
  · cases ht; exact (h.pending rest s.busyLeft).serve a

end Sys2Proof.Machine
end

section
/-!
SUPPORT. How a command ends, its result length, the register map, and the reset values (10_state.md R29 to R33, R38).
-/

namespace Sys2Proof.Machine

/-! ### How a command ends -/

/-- An error entry is exactly one error kind's (60_exceptions.md R199). -/
theorem raiseError_endedErr (s : State) (k : ErrKind) :
    (s.raiseError k).EndedErr k ∧ ∀ k', (s.raiseError k).EndedErr k' → k' = k :=
  ⟨⟨rfl, rfl, rfl, rfl⟩, fun _ h => (ErrKind.code_injective h.err).symm⟩

/-- Settles O45: a command completes its operation's result, whose `CSOK` is `PARSE`'s, or takes one error entry. -/
theorem everyCommandEndsInOneWay : Obligations.EveryCommandEndsInOneWay := by
  intro i s t ht
  rcases exec_cases i s with ⟨r, -, -, hf, he⟩ | ⟨k, -, -, -, he⟩ | ⟨-, he⟩ | ⟨x, j, -, he, -⟩ <;> rw [he] at ht <;>
    cases ht
  · exact .inl ⟨by rw [← hf.csok, State.complete_status], rfl, rfl⟩
  · exact .inr ⟨k, raiseError_endedErr s k⟩
  · exact .inr ⟨.badCommand, raiseError_endedErr s .badCommand⟩

/-- A command that ends with success completed a result of its shape, with its lengths in range. -/
theorem exec_doneOk {i : Instr} {s t : State} (ht : exec i s = .next t) (hs : t.st = stDoneOk) :
    ∃ r, lengthsInRange s i = true ∧ r.Fits i s ∧ t = s.complete r := by
  have hne (k : ErrKind) : (s.raiseError k).st ≠ stDoneOk := by simp [stDoneErr, stDoneOk]
  rcases exec_cases i s with ⟨r, hl, -, hf, he⟩ | ⟨k, -, -, -, he⟩ | ⟨-, he⟩ | ⟨x, j, -, he, -⟩ <;> rw [he] at ht <;>
    cases ht
  · exact ⟨r, hl, hf, rfl⟩
  · exact absurd hs (hne k)
  · exact absurd hs (hne _)

/-- Settles O47: a success leaves a result of its command's shape, and lengths in range bound the result length. -/
theorem resultLengths : Obligations.ResultLengths := by
  intro i s t hc ht hs
  obtain ⟨r, hl, hf, rfl⟩ := exec_doneOk ht hs
  have hlen : (s.complete r).olen = resultLen i s := hf.olen
  refine ⟨hlen.trans (by cases i <;> rfl), hlen ▸ resultLen_le_outMax hc hl, fun a => ?_⟩
  rw [hlen, ← hf.out, State.complete_outbuf, Memory.read_ofString]
  simp

/-! ### The register map (10_state.md R31) -/

/-- Register `16 + j` is `RDEV[j]`. -/
theorem regValue_rdev (s : State) {j : Nat} (hj : j < 16) : s.regValue (16 + j) = some (s.rdev[j]'hj).toNat := by
  have hne {m : Nat} (hm : m < 16) : 16 + j ≠ m := by omega
  simp [State.regValue, hne, regCmd, regStatus, regErr, regKlen, regIlen, regVlen, regDlen, regOlen, regCrc, regRdev, hj]

/-- What `HRD(n)` leaves in `rdata`, where the map has `v` at number `n`. -/
theorem serve_hrd_rdata {s : State} {n v : Nat} (hb : s.busy = false) (ho : isResultReg n = true → s.unobserved = false)
    (hv : s.regValue n = some v) : (serve s (.hrd n)).rdata = v := readRegister_map hb ho hv

/-- Settles O10: the read is served, and returns what the map has at the number; a result register's only once observed. -/
theorem registerReadsFollowTheMap : Obligations.RegisterReadsFollowTheMap := by
  intro s n rest hb hi
  have hown {m v : Nat} (hm : isResultReg m = false) (hv : State.regValue { s with inputs := rest } m = some v) (hn : n = m) :
      (serve { s with inputs := rest } (.hrd n)).rdata = v := hn ▸ serve_hrd_rdata hb (fun hr => absurd hr (by simp [hm])) hv
  have hres (hu : s.unobserved = false) {m v : Nat} (hv : State.regValue { s with inputs := rest } m = some v) (hn : n = m) :
      (serve { s with inputs := rest } (.hrd n)).rdata = v := hn ▸ serve_hrd_rdata hb (fun _ => hu) hv
  exact ⟨_, step_free hb hi, hown rfl rfl, hown rfl rfl, hown rfl rfl, hown rfl rfl, hown rfl rfl, hown rfl rfl, hown rfl rfl,
    fun hu => ⟨hres hu rfl, hres hu rfl, fun _ hj => hres hu (regValue_rdev _ hj)⟩⟩

/-- A value of `LEN_W` bits is stored as it is (10_state.md R27). -/
theorem lengthValue_of_lt {s : State} {v : Nat} (hv : v < 2 ^ s.caps.lenW) : s.lengthValue v = v := Nat.mod_eq_of_lt hv

/-- Register 3, 4, 5 or 6 stores a value of its width, also one above the capacity. -/
theorem writeRegister_length {s : State} {v : Nat} (hb : s.busy = false) (hv : v < 2 ^ s.caps.lenW) :
    s.writeRegister 3 v = { s with klen := v } ∧ s.writeRegister 4 v = { s with ilen := v } ∧
    s.writeRegister 5 v = { s with vlen := v } ∧ s.writeRegister 6 v = { s with dlen := v } := by
  simp [State.writeRegister, hb, lengthValue_of_lt hv, regCmd, regKlen, regIlen, regVlen, regDlen]

/-- A write to a read-only register, or to a number no register has, is ignored (10_state.md R31). -/
theorem writeRegister_ignored (s : State) {n : Nat} (v : Nat) (hn : n = 1 ∨ n = 2 ∨ 7 ≤ n) : s.writeRegister n v = s := by
  have h : n ≠ regCmd ∧ n ≠ regKlen ∧ n ≠ regIlen ∧ n ≠ regVlen ∧ n ≠ regDlen := by
    unfold regCmd regKlen regIlen regVlen regDlen; omega
  obtain ⟨h0, h3, h4, h5, h6⟩ := h
  simp [State.writeRegister, h0, h3, h4, h5, h6]

/-- Settles O11: the write is served, and stores in a length register or is ignored. -/
theorem registerWritesFollowTheMap : Obligations.RegisterWritesFollowTheMap := by
  intro s n v rest hb hi
  have hs {t : State} (hw : State.writeRegister { s with inputs := rest } n v = t) : step s = .next t :=
    (step_free hb hi).trans (congrArg _ hw)
  have hlen (hv : v < 2 ^ s.caps.lenW) := writeRegister_length (s := { s with inputs := rest }) hb hv
  refine ⟨?_, ?_, ?_, ?_, fun hn => hs (writeRegister_ignored _ v hn)⟩
  · rintro rfl hv; obtain ⟨h, -, -, -⟩ := hlen hv; exact hs h
  · rintro rfl hv; obtain ⟨-, h, -, -⟩ := hlen hv; exact hs h
  · rintro rfl hv; obtain ⟨-, -, h, -⟩ := hlen hv; exact hs h
  · rintro rfl hv; obtain ⟨-, -, -, h⟩ := hlen hv; exact hs h

/-! ### Reset -/

/-- Settles O17: the reset state is written with these values. -/
theorem resetValues : Obligations.ResetValues :=
  ⟨fun c => ⟨rfl, rfl, by simp [State.csok, State.resetWith], rfl, rfl, rfl, rfl, rfl, rfl, rfl, rfl⟩, rfl⟩

end Sys2Proof.Machine
end

section
/-!
SUPPORT. The working registers (10_state.md R23 to R25) at every tick of the step level: what each unit's step leaves in
them, and one lemma per walking step of the sequencer (42_framer.md R153).
-/

namespace Sys2Proof.Machine

/-! ### What the units' steps leave in the working registers -/

/-- A computation that answers made its first move and then the rest. -/
theorem exists_of_bind_eq_ok {ε α β : Type} {x : Except ε α} {f : α → Except ε β} {b : β} (h : x >>= f = .ok b) :
    ∃ a, x = .ok a ∧ f a = .ok b := by
  cases x with
  | error e => cases h
  | ok a => exact ⟨a, rfl, h⟩

/-- A cipher step writes `OUTBUF`, may load `HNIB`, and moves `KIDX` on (40_cipher.md R105, R106). -/
theorem encStep_ok {s t : State} {i o : Nat} (h : encStep s i o = .ok t) :
    ∃ d m, t = { s with hnib := d, outbuf := m, kidx := nextKidx s.klen s.kidx } := by
  obtain ⟨c, -, h⟩ := exists_of_bind_eq_ok h
  obtain ⟨k, -, h⟩ := exists_of_bind_eq_ok h
  cases h
  exact ⟨s.hnib, _, rfl⟩

theorem decStep_ok {s t : State} {p o : Nat} (h : decStep s p o = .ok t) :
    ∃ d m, t = { s with hnib := d, outbuf := m, kidx := nextKidx s.klen s.kidx } := by
  obtain ⟨c0, -, h⟩ := exists_of_bind_eq_ok h
  obtain ⟨c1, -, h⟩ := exists_of_bind_eq_ok h
  obtain ⟨d, -, h⟩ := exists_of_bind_eq_ok h
  obtain ⟨l, -, h⟩ := exists_of_bind_eq_ok h
  obtain ⟨k, -, h⟩ := exists_of_bind_eq_ok h
  cases h
  exact ⟨d, _, rfl⟩

/-- A step of `BUILD`'s assembly copies one character before the payload, and writes one pair in it (42_framer.md R148). -/
theorem assembleStep_ok {s t : State} (h : assembleStep s = .ok t) :
    (s.pos < buildPayloadOff s ∧ ∃ m, t = { s with outbuf := m, pos := s.pos + 1 }) ∨
    (buildPayloadOff s ≤ s.pos ∧
      ∃ d m, t = { s with hnib := d, outbuf := m, kidx := nextKidx s.klen s.kidx, pos := s.pos + 2 }) := by
  have hP : buildPayloadOff s = hdrLen + s.vlen + s.dlen := rfl
  unfold assembleStep at h
  split_ifs at h with h1 h2 h3
  · cases h
    exact .inl ⟨by omega, _, rfl⟩
  · obtain ⟨c, -, h⟩ := exists_of_bind_eq_ok h
    cases h
    exact .inl ⟨by omega, _, rfl⟩
  · obtain ⟨c, -, h⟩ := exists_of_bind_eq_ok h
    cases h
    exact .inl ⟨h3, _, rfl⟩
  · obtain ⟨t', hs, h⟩ := exists_of_bind_eq_ok h
    obtain ⟨d, m, rfl⟩ := encStep_ok hs
    cases h
    exact .inr ⟨Nat.le_of_not_lt h3, d, m, rfl⟩

/-- A checksum step is `CRCBIT` with its counter, of whatever stood in `CRC` (41_checksum.md R123). -/
theorem crcStep_ok {s t : State} {x : Space} (h : crcStep s x = .ok t) : ∃ c, t = crcShift { s with crc := c } := by
  unfold crcStep at h
  split at h
  · obtain ⟨c, -, h⟩ := exists_of_bind_eq_ok h
    cases h
    exact ⟨_, rfl⟩
  · cases h
    exact ⟨s.crc, rfl⟩

/-- `POS` stays within a string of `len` characters, and below its end while `BITCNT` counts a character's bits, with every
`CRCBIT`. -/
theorem crcShift_within {s : State} {len : Nat} (hp : s.pos < len) :
    (crcShift s).pos ≤ len ∧ ((crcShift s).bitcnt ≠ 0 → (crcShift s).pos < len) := by
  by_cases h7 : s.bitcnt = 7
  · rw [crcShift_of_eq h7]
    exact ⟨hp, fun h => absurd rfl h⟩
  · rw [crcShift_of_ne h7]
    exact ⟨hp.le, fun _ => hp⟩

theorem klen_ne_zero_of_keychk {s : State} {u : Unit} (hk : keychk s = .ok u) : s.klen ≠ 0 := by
  rcases keychk_cases s with ⟨hne, -⟩ | ⟨-, he⟩
  · exact hne
  · rw [hk] at he; cases he

/-- After a tick of a cipher loop both `POS` and `KIDX` have moved to the next position of the key stream
(10_state.md R23). -/
theorem cipherTick_ok {s t : State} {x : Except Stop State}
    (hx : ∀ t', x = .ok t' → ∃ d m, t' = { s with hnib := d, outbuf := m, kidx := nextKidx s.klen s.kidx })
    (hk : s.klen ≠ 0) (h : s.kidx = s.pos % s.klen) (ht : (do let t' ← x; return { t' with pos := s.pos + 1 }) = .ok t) :
    ∃ d m, t = { s with hnib := d, outbuf := m, kidx := (s.pos + 1) % s.klen, pos := s.pos + 1 } := by
  obtain ⟨t', hs, ht⟩ := exists_of_bind_eq_ok ht
  obtain ⟨d, m, rfl⟩ := hx t' hs
  cases ht
  exact ⟨d, m, by rw [h, nextKidx_mod hk]⟩

/-! ### The invariant at each step of the sequencer -/

section
variable {s : State}

theorem workingInv_xenc (hq : s.seq = .xenc) : s.WorkingInv ↔ s.pos ≤ s.ilen ∧ s.kidx = s.pos % s.klen := by
  simp only [State.WorkingInv, hq]

theorem workingInv_xdec (hq : s.seq = .xdec) : s.WorkingInv ↔ s.pos ≤ s.ilen / 2 ∧ s.kidx = s.pos % s.klen := by
  simp only [State.WorkingInv, hq]

theorem workingInv_crc16 (hq : s.seq = .crc16) : s.WorkingInv ↔ s.pos ≤ s.ilen ∧ (s.bitcnt ≠ 0 → s.pos < s.ilen) := by
  simp only [State.WorkingInv, hq]

theorem workingInv_b2 (hq : s.seq = .b2) :
    s.WorkingInv ↔ s.pos ≤ buildFrontLen s ∧ s.kidx = ((s.pos - buildPayloadOff s) / 2) % s.klen ∧
      (s.pos - buildPayloadOff s) % 2 = 0 ∧ s.klen ≠ 0 := by
  simp only [State.WorkingInv, hq]

theorem workingInv_b3 (hq : s.seq = .b3) :
    s.WorkingInv ↔ s.pos ≤ buildFrontLen s ∧ (s.bitcnt ≠ 0 → s.pos < buildFrontLen s) := by
  simp only [State.WorkingInv, hq]

theorem workingInv_p5 (hq : s.seq = .p5) :
    s.WorkingInv ↔ s.pos ≤ s.ilen - chkLen ∧ (s.bitcnt ≠ 0 → s.pos < s.ilen - chkLen) := by
  simp only [State.WorkingInv, hq]

theorem workingInv_p6 (hq : s.seq = .p6) :
    s.WorkingInv ↔ s.pos ≤ (s.ilen - framing) / 2 ∧ s.kidx = s.pos % s.klen := by
  simp only [State.WorkingInv, hq]

end

theorem workingInv_of_idle {s : State} (hq : s.seq = .idle) : s.WorkingInv := by
  simp only [State.WorkingInv, hq]

/-- Every step but `B2` can be entered at any time; `B2` needs the key check. -/
theorem enter_workingInv (s : State) {q : Seq} (hq : q = .b2 → s.klen ≠ 0) : (enter s q).WorkingInv := by
  cases q with
  | b2 => simp [State.WorkingInv, enter, hq rfl]
  | _ => simp [State.WorkingInv, enter]

theorem enterCrc_workingInv (s : State) {q : Seq} (hq : q ≠ .b2) : (enterCrc s q).WorkingInv := by
  cases q with
  | b2 => exact absurd rfl hq
  | _ => simp [State.WorkingInv, enterCrc, enter]

theorem enterCommand_workingInv (s : State) (i : Instr) : (enterCommand s i).WorkingInv := by
  cases i with
  | crc16 => exact enterCrc_workingInv s nofun
  | xenc | xdec | build | buildS | parse => exact enter_workingInv s nofun

/-! ### The walking steps -/

section
variable {s t : State} (h : s.WorkingInv) (ht : tickBody s = .ok t)
include h ht

theorem xenc_workingInv (hq : s.seq = .xenc) : t.WorkingInv := by
  obtain ⟨-, hx⟩ := (workingInv_xenc hq).1 h
  simp only [tickBody, hq] at ht
  obtain ⟨_, hk, ht⟩ := exists_of_bind_eq_ok ht
  split at ht
  · next hp =>
    obtain ⟨d, m, rfl⟩ := cipherTick_ok (fun _ => encStep_ok) (klen_ne_zero_of_keychk hk) hx ht
    exact (workingInv_xenc (by exact hq)).2 ⟨hp, rfl⟩
  · cases ht
    exact workingInv_of_idle rfl

theorem xdec_workingInv (hq : s.seq = .xdec) : t.WorkingInv := by
  obtain ⟨-, hx⟩ := (workingInv_xdec hq).1 h
  simp only [tickBody, hq] at ht
  obtain ⟨_, hk, ht⟩ := exists_of_bind_eq_ok ht
  obtain ⟨_, -, ht⟩ := exists_of_bind_eq_ok ht
  split at ht
  · next hp =>
    obtain ⟨d, m, rfl⟩ := cipherTick_ok (fun _ => decStep_ok) (klen_ne_zero_of_keychk hk) hx ht
    exact (workingInv_xdec (by exact hq)).2 ⟨hp, rfl⟩
  · cases ht
    exact workingInv_of_idle rfl

theorem p6_workingInv (hq : s.seq = .p6) : t.WorkingInv := by
  obtain ⟨-, hx⟩ := (workingInv_p6 hq).1 h
  simp only [tickBody, hq] at ht
  obtain ⟨_, hk, ht⟩ := exists_of_bind_eq_ok ht
  obtain ⟨_, -, ht⟩ := exists_of_bind_eq_ok ht
  split at ht
  · next hp =>
    obtain ⟨d, m, rfl⟩ := cipherTick_ok (fun _ => decStep_ok) (klen_ne_zero_of_keychk hk) hx ht
    exact (workingInv_p6 (by exact hq)).2 ⟨hp, rfl⟩
  · cases ht
    exact enter_workingInv s nofun

theorem b2_workingInv (hq : s.seq = .b2) : t.WorkingInv := by
  obtain ⟨-, hx, heven, hk⟩ := (workingInv_b2 hq).1 h
  simp only [tickBody, hq] at ht
  split at ht
  · next hp =>
    have hQ : buildFrontLen s = buildPayloadOff s + 2 * s.ilen := rfl
    rcases assembleStep_ok ht with ⟨hb, m, rfl⟩ | ⟨hb, d, m, rfl⟩
    · have hx' : s.kidx = (s.pos + 1 - buildPayloadOff s) / 2 % s.klen := by
        rw [hx, Nat.sub_eq_zero_of_le hb.le, Nat.sub_eq_zero_of_le hb]
      have heven' : (s.pos + 1 - buildPayloadOff s) % 2 = 0 := by omega
      exact (workingInv_b2 (by exact hq)).2 ⟨hp, hx', heven', hk⟩
    · have hx' : nextKidx s.klen s.kidx = (s.pos + 2 - buildPayloadOff s) / 2 % s.klen := by
        rw [Nat.sub_add_comm hb, Nat.add_div_right _ (by decide), hx, nextKidx_mod hk]
      have hp' : s.pos + 2 ≤ buildFrontLen s := by omega
      have heven' : (s.pos + 2 - buildPayloadOff s) % 2 = 0 := by omega
      exact (workingInv_b2 (by exact hq)).2 ⟨hp', hx', heven', hk⟩
  · cases ht
    exact enterCrc_workingInv s nofun

end

section
variable {s t : State} (ht : tickBody s = .ok t)
include ht

theorem crc16_workingInv (hq : s.seq = .crc16) : t.WorkingInv := by
  simp only [tickBody, hq] at ht
  split at ht
  · next hp =>
    obtain ⟨c, rfl⟩ := crcStep_ok ht
    exact (workingInv_crc16 (by exact hq)).2 (crcShift_within hp)
  · cases ht
    exact workingInv_of_idle rfl

theorem b3_workingInv (hq : s.seq = .b3) : t.WorkingInv := by
  simp only [tickBody, hq] at ht
  split at ht
  · next hp =>
    obtain ⟨c, rfl⟩ := crcStep_ok ht
    exact (workingInv_b3 (by exact hq)).2 (crcShift_within hp)
  · cases ht
    exact enter_workingInv s nofun

theorem p5_workingInv (hq : s.seq = .p5) : t.WorkingInv := by
  simp only [tickBody, hq] at ht
  split at ht
  · next hp =>
    obtain ⟨c, rfl⟩ := crcStep_ok ht
    exact (workingInv_p5 (by exact hq)).2 (crcShift_within hp)
  · obtain ⟨_, -, ht⟩ := exists_of_bind_eq_ok ht
    cases ht
    exact enter_workingInv s nofun

end

/-- A tick that answers keeps the working registers' invariant: at the steps that walk nothing it enters the next step or
ends the command. -/
theorem tickBody_workingInv {s t : State} (h : s.WorkingInv) (ht : tickBody s = .ok t) : t.WorkingInv := by
  cases hq : s.seq with
  | xenc => exact xenc_workingInv h ht hq
  | xdec => exact xdec_workingInv h ht hq
  | crc16 => exact crc16_workingInv ht hq
  | b2 => exact b2_workingInv h ht hq
  | b3 => exact b3_workingInv ht hq
  | p5 => exact p5_workingInv ht hq
  | p6 => exact p6_workingInv h ht hq
  | idle =>
    simp only [tickBody, hq] at ht
    cases ht
    exact h
  | start =>
    simp only [tickBody, hq] at ht
    split at ht
    · cases ht
    · split at ht
      · cases ht; exact enterCommand_workingInv ..
      · cases ht
  | b0 | p1 | p3 =>
    simp only [tickBody, hq] at ht
    obtain ⟨_, -, ht⟩ := exists_of_bind_eq_ok ht
    cases ht
    exact enter_workingInv s nofun
  | b1 =>
    simp only [tickBody, hq] at ht
    obtain ⟨_, hk, ht⟩ := exists_of_bind_eq_ok ht
    cases ht
    exact enter_workingInv s fun _ => klen_ne_zero_of_keychk hk
  | p2 =>
    simp only [tickBody, hq] at ht
    cases ht
    exact enter_workingInv s nofun
  | p4 =>
    simp only [tickBody, hq] at ht
    cases ht
    exact enterCrc_workingInv s nofun
  | b4 =>
    simp only [tickBody, hq] at ht
    cases ht
    exact workingInv_of_idle rfl
  | p7 =>
    simp only [tickBody, hq] at ht
    obtain ⟨_, -, ht⟩ := exists_of_bind_eq_ok ht
    cases ht
    exact workingInv_of_idle rfl

/-- Settles O58: a tick makes the sequencer's move, or takes the error entry, after which nothing is walked. -/
theorem ticksKeepTheWorkingRegisters : Obligations.TicksKeepTheWorkingRegisters := by
  intro s t h ht
  unfold tick at ht
  split at ht
  · next hb => cases ht; exact tickBody_workingInv h hb
  · cases ht; exact workingInv_of_idle rfl
  · cases ht

end Sys2Proof.Machine
end

section
/-!
SUPPORT. The buffer spaces (20_memory.md): what serving a host read or a character write leaves, and what a command leaves of
its operands.
-/

namespace Sys2Proof.Machine

/-! ### Host reads and character writes -/

/-- A pending input other than `WAIT` is served where it is not the engine's move; while a command runs, one input fewer is
then served before its completion. -/
theorem step_serves {s : State} {a : Input} {rest : List Input} (hi : s.inputs = a :: rest) (ha : a ≠ .wait)
    (hl : s.busy = true → s.busyLeft ≠ 0) :
    step s =
      .next (serve { s with inputs := rest, busyLeft := if s.busy then s.busyLeft - 1 else s.busyLeft } a) := by
  cases hb : s.busy with
  | false => exact step_free hb hi
  | true => exact step_busy hb (Nat.succ_pred_eq_of_ne_zero (hl hb)).symm hi ha

/-- Every read the host makes leaves its value, and a `STATUS` read or a look at `done` may tell the end of a command
(20_memory.md R62, 43_command_interface.md R177). -/
theorem serve_read (s : State) {a : Input} (ha : (∃ r, a = .hrd r) ∨ (∃ x i, a = .brd x i) ∨ a = .watchDone) :
    ∃ v, serve s a = s.hostRead v (decide (a = .hrd 1 ∨ a = .watchDone)) := by
  rcases ha with ⟨r, rfl⟩ | ⟨x, i, rfl⟩ | rfl
  · have hr : (r == regStatus) = decide (Input.hrd r = .hrd 1 ∨ Input.hrd r = .watchDone) := by
      simp [regStatus, Bool.beq_eq_decide_eq]
    exact ⟨_, congrArg (s.hostRead _) hr⟩
  · exact ⟨_, rfl⟩
  · exact ⟨_, rfl⟩

/-- Settles O9: the read is served, and a host read writes only the model's own fields. -/
theorem hostReadsChangeNothing : Obligations.HostReadsChangeNothing := by
  intro s a rest hi ha hl
  have hw : a ≠ .wait := by rintro rfl; simp at ha
  obtain ⟨v, hv⟩ := serve_read _ ha
  exact ⟨v, (step_serves hi hw hl).trans (congrArg _ hv)⟩

/-- A character write is ignored at or above the capacity, and in `OUTBUF` (20_memory.md R50). -/
theorem writeCharacter_ignored {s : State} {x : Space} {i : Nat} (v : Chr) (h : x = .outbuf ∨ s.caps.capacity x ≤ i) :
    s.writeCharacter x i v = s := by
  simp only [State.writeCharacter, h, if_true, ite_self]

/-- A character write below the capacity of an operand space stores (20_memory.md R50). -/
theorem writeCharacter_stores {s : State} {x : Space} {i : Nat} (v : Chr) (hb : s.busy = false)
    (h : ¬ (x = .outbuf ∨ s.caps.capacity x ≤ i)) : s.writeCharacter x i v = s.writeBuf x i v := by
  simp [State.writeCharacter, hb, h]

/-- Settles O12: the write is served, and stores at its index or is ignored. -/
theorem characterWritesStore : Obligations.CharacterWritesStore := by
  intro s x i v rest hb hi
  have hstep {t : State} (h : State.writeCharacter { s with inputs := rest } x i v = t) : step s = .next t :=
    (step_free hb hi).trans (congrArg _ h)
  by_cases h : x = .outbuf ∨ s.caps.capacity x ≤ i
  · have hno (hx : x ≠ .outbuf) (hlt : i < s.caps.capacity x) : False := h.elim hx (Nat.not_le_of_lt hlt)
    exact ⟨_, hstep (writeCharacter_ignored v h), fun hx hlt => (hno hx hlt).elim, fun _ => rfl, fun _ _ => rfl,
      fun _ _ => rfl, by simp⟩
  · refine ⟨_, hstep (writeCharacter_stores v hb h), fun _ _ => ?_, fun h' => absurd h' h, fun j hj => ?_,
      fun y hy => State.writeBuf_buf_other _ i v hy, by simp⟩
    · rw [State.writeBuf_buf_self, Memory.read_write_same]
    · rw [State.writeBuf_buf_self]; exact Memory.read_write_other _ v hj

/-! ### What a command leaves of its operands -/

/-- A command that ends completes a result of its shape, or takes the error entry. -/
theorem exec_next_cases {i : Instr} {s t : State} (ht : exec i s = .next t) :
    (∃ r, r.Fits i s ∧ t = s.complete r) ∨ (∃ k, t = s.raiseError k) := by
  rcases exec_cases i s with ⟨r, -, -, hf, he⟩ | ⟨k, -, -, -, he⟩ | ⟨-, he⟩ | ⟨x, j, -, he, -⟩ <;> rw [he] at ht <;>
    cases ht
  · exact .inl ⟨r, hf, rfl⟩
  · exact .inr ⟨k, rfl⟩
  · exact .inr ⟨.badCommand, rfl⟩

theorem complete_sameOperands (s : State) (r : Result) : s.SameOperands (s.complete r) := by constructor <;> rfl

theorem raiseError_sameOperands (s : State) (k : ErrKind) : s.SameOperands (s.raiseError k) := by constructor <;> rfl

theorem State.SameOperands.buf {s t : State} (h : s.SameOperands t) {x : Space} (hx : x ≠ .outbuf) : t.buf x = s.buf x := by
  cases x with
  | keymem => exact h.keymem
  | inbuf => exact h.inbuf
  | verbuf => exact h.verbuf
  | devbuf => exact h.devbuf
  | outbuf => exact absurd rfl hx

/-- A command keeps its operands, however it ends (20_memory.md R56). -/
theorem exec_sameOperands {i : Instr} {s t : State} (ht : exec i s = .next t) : s.SameOperands t := by
  rcases exec_next_cases ht with ⟨r, -, rfl⟩ | ⟨k, rfl⟩
  · exact complete_sameOperands s r
  · exact raiseError_sameOperands s k

/-- A command lists nothing in `OUTBUF` at or beyond `OLEN` (20_memory.md R55). -/
theorem exec_outbuf_none {i : Instr} {s t : State} (ht : exec i s = .next t) {a : Nat} (ha : t.olen ≤ a) :
    Memory.read t.outbuf a = none := by
  rcases exec_next_cases ht with ⟨r, hf, rfl⟩ | ⟨k, rfl⟩
  · have hlen : r.out.length = r.olen := hf.out.trans hf.olen.symm
    rw [State.complete_outbuf, Memory.read_ofString]
    exact List.getElem?_eq_none (hlen.trans_le ha)
  · rfl

/-- Settles O46: neither end of a command touches an operand, and its result fills `OUTBUF` up to `OLEN` only. -/
theorem commandsKeepTheOperands : Obligations.CommandsKeepTheOperands := by
  intro i s t ht
  have hs := exec_sameOperands ht
  exact ⟨hs, fun x a hx => by rw [hs.buf hx], fun a ha => exec_outbuf_none ht ha⟩

/-- Settles O48: of what a command can do nothing is a refusal, and its one fault names an unwritten declared character. -/
theorem faultsOnlyOnUnwrittenOperands : Obligations.FaultsOnlyOnUnwrittenOperands := by
  intro i s
  rcases exec_cases i s with ⟨r, -, -, -, he⟩ | ⟨k, -, -, -, he⟩ | ⟨-, he⟩ | ⟨x, j, -, he, hr, hx, hj⟩ <;> rw [he]
  · exact ⟨nofun, nofun⟩
  · exact ⟨nofun, nofun⟩
  · exact ⟨nofun, nofun⟩
  · exact ⟨nofun, by rintro _ _ ⟨⟩; exact ⟨hx, hj, hr⟩⟩

end Sys2Proof.Machine
end

section
/-!
SUPPORT. The encodings (30_encoding.md): the command word, the hex digits and the hex text, and the host programs that store
a string in an operand space.
-/

namespace Sys2Proof.Machine

/-! ### The command word (30_encoding.md R71 to R73) -/

/-- Settles O1: each of the words is its command's encoding, which the decoder reads back. -/
theorem decodeReadsEachTableWord : Obligations.DecodeReadsEachTableWord :=
  ⟨decode_encode .xenc, decode_encode .xdec, decode_encode .crc16, decode_encode .build, decode_encode .buildS,
    decode_encode .parse⟩

/-- Settles O3: the two directions are the decoder's two laws. -/
theorem decodeEncodeAgree : Obligations.DecodeEncodeAgree :=
  ⟨fun i _ => decode_encode i, fun _ _ => encode_of_decode⟩

/-- The words that decode are the words of the six commands. -/
theorem exists_decode_iff (w : BitVec 8) :
    (∃ i, decode w = .ok i) ↔ w = 0x01 ∨ w = 0x02 ∨ w = 0x03 ∨ w = 0x04 ∨ w = 0x0C ∨ w = 0x05 := by
  constructor
  · rintro ⟨i, hi⟩
    rw [← encode_of_decode hi]
    cases i <;> decide
  · rintro (rfl | rfl | rfl | rfl | rfl | rfl)
    · exact ⟨_, decode_encode .xenc⟩
    · exact ⟨_, decode_encode .xdec⟩
    · exact ⟨_, decode_encode .crc16⟩
    · exact ⟨_, decode_encode .build⟩
    · exact ⟨_, decode_encode .buildS⟩
    · exact ⟨_, decode_encode .parse⟩

/-- Of the 256 words the six of R72 are exactly those that none of the three reasons of R73 rules out. -/
theorem not_legalWord_iff_fields : ∀ w : BitVec 8,
    (¬ (w = 0x01 ∨ w = 0x02 ∨ w = 0x03 ∨ w = 0x04 ∨ w = 0x0C ∨ w = 0x05)) ↔
      (w.extractLsb' 0 3 = 0 ∨ w.extractLsb' 0 3 = 6 ∨ w.extractLsb' 0 3 = 7) ∨
      (w.getLsbD 3 = true ∧ w.extractLsb' 0 3 ≠ 4) ∨
      w.extractLsb' 4 4 ≠ 0 := by decide

/-- Settles O2: a word decodes when it is some command's, and the fields tell the other words. -/
theorem illegalWordsByTheirFields : Obligations.IllegalWordsByTheirFields := fun w =>
  ⟨exists_decode_iff w, by rw [← not_exists, exists_decode_iff]; exact not_legalWord_iff_fields w⟩

/-! ### Hex digits and hex text (30_encoding.md R76 to R80) -/

/-- The digits of 0 to 9 are the decimal ones, from `0x30` on. -/
theorem hexdig_toNat_of_le {n : Nibble} (h : n.toNat ≤ 9) : (hexdig n).toNat = 0x30 + n.toNat := by
  have hn : n ≤ 9 := h
  rw [hexdig, if_pos hn]
  bv_omega

/-- The digits of 10 to 15 are the capitals, from `0x41` on. -/
theorem hexdig_toNat_of_ge {n : Nibble} (h : 10 ≤ n.toNat) : (hexdig n).toNat = 0x41 + (n.toNat - 10) := by
  have hn : ¬ n ≤ 9 := by bv_omega
  rw [hexdig, if_neg hn]
  bv_omega

/-- The decimal digits' values. -/
theorem hexval_decimal {c : Chr} (h0 : 0x30 ≤ c.toNat) (h1 : c.toNat ≤ 0x39) :
    (hexval c).map BitVec.toNat = some (c.toNat - 0x30) := by
  have h : 0x30 ≤ c ∧ c ≤ 0x39 := ⟨h0, h1⟩
  rw [hexval, if_pos h, Option.map_some, Option.some.injEq]
  bv_omega

/-- The capitals' values. -/
theorem hexval_capital {c : Chr} (h0 : 0x41 ≤ c.toNat) (h1 : c.toNat ≤ 0x46) :
    (hexval c).map BitVec.toNat = some (c.toNat - 0x41 + 10) := by
  have hd : ¬ (0x30 ≤ c ∧ c ≤ 0x39) := by bv_omega
  have h : 0x41 ≤ c ∧ c ≤ 0x46 := ⟨h0, h1⟩
  rw [hexval, if_neg hd, if_pos h, Option.map_some, Option.some.injEq]
  bv_omega

/-- The lowercase letters' values (decision D10). -/
theorem hexval_lowercase {c : Chr} (h0 : 0x61 ≤ c.toNat) (h1 : c.toNat ≤ 0x66) :
    (hexval c).map BitVec.toNat = some (c.toNat - 0x61 + 10) := by
  have hd : ¬ (0x30 ≤ c ∧ c ≤ 0x39) := by bv_omega
  have hu : ¬ (0x41 ≤ c ∧ c ≤ 0x46) := by bv_omega
  have h : 0x61 ≤ c ∧ c ≤ 0x66 := ⟨h0, h1⟩
  rw [hexval, if_neg hd, if_neg hu, if_pos h, Option.map_some, Option.some.injEq]
  bv_omega

/-- Every other character is invalid (decision D9). -/
theorem hexval_invalid {c : Chr}
    (h : c.toNat < 0x30 ∨ (0x39 < c.toNat ∧ c.toNat < 0x41) ∨ (0x46 < c.toNat ∧ c.toNat < 0x61) ∨ 0x66 < c.toNat) :
    hexval c = none := by
  have hd : ¬ (0x30 ≤ c ∧ c ≤ 0x39) := by bv_omega
  have hu : ¬ (0x41 ≤ c ∧ c ≤ 0x46) := by bv_omega
  have hl : ¬ (0x61 ≤ c ∧ c ≤ 0x66) := by bv_omega
  rw [hexval, if_neg hd, if_neg hu, if_neg hl]

/-- Settles O19: one case for each branch of `hexdig` and of `hexval`. -/
theorem hexDigitTables : Obligations.HexDigitTables :=
  ⟨fun _ => ⟨hexdig_toNat_of_le, hexdig_toNat_of_ge⟩,
    fun _ => ⟨hexval_decimal, hexval_capital, hexval_lowercase, hexval_invalid⟩, hexval_hexdig⟩

/-- Settles O20: every digit decodes to its nibble, and the nibbles make the byte. -/
theorem hexTextSpellsItsValue : Obligations.HexTextSpellsItsValue :=
  ⟨fun b => ⟨_, _, rfl, hexval_hexdig _, hexval_hexdig _, hexByte_pair b⟩, fun _ _ _ => pair_of_hexByte,
    fun _ => ⟨_, _, _, _, rfl, hexval_hexdig _, hexval_hexdig _, hexval_hexdig _, hexval_hexdig _,
      by simp [toHex4, fold_hexdig]⟩⟩

/-! ### Loading a string (30_encoding.md R88, R89) -/

/-- The number of a space's length register (10_state.md R27, R31). -/
def lengthReg : Space → Nat
  | .keymem => regKlen
  | .inbuf => regIlen
  | .verbuf => regVlen
  | .devbuf => regDlen
  | .outbuf => regOlen

/-- `t` is `s` but for what space `x`, its length register and the host's side hold. -/
structure State.SameOutside (s : State) (x : Space) (t : State) : Prop where
  caps : t.caps = s.caps
  status : t.status = s.status
  cmd : t.cmd = s.cmd
  err : t.err = s.err
  other : ∀ y, y ≠ x → t.buf y = s.buf y ∧ t.len y = s.len y

theorem State.SameOutside.busy {s t : State} {x : Space} (h : s.SameOutside x t) : t.busy = s.busy := by
  rw [State.busy, State.st, h.status]; rfl

theorem State.SameOutside.trans {s t u : State} {x : Space} (h : s.SameOutside x t) (h' : t.SameOutside x u) :
    s.SameOutside x u where
  caps := h'.caps.trans h.caps
  status := h'.status.trans h.status
  cmd := h'.cmd.trans h.cmd
  err := h'.err.trans h.err
  other y hy := by
    obtain ⟨hb, hl⟩ := h.other y hy
    obtain ⟨hb', hl'⟩ := h'.other y hy
    exact ⟨hb'.trans hb, hl'.trans hl⟩

@[simp] theorem State.writeBuf_len (s : State) (x : Space) (i : Nat) (v : Chr) (y : Space) :
    (s.writeBuf x i v).len y = s.len y := by cases y <;> simp

theorem writeBuf_sameOutside (s : State) (x : Space) (i : Nat) (v : Chr) : s.SameOutside x (s.writeBuf x i v) :=
  ⟨by simp, by simp, by simp, by simp, fun _ hy => ⟨State.writeBuf_buf_other s i v hy, State.writeBuf_len ..⟩⟩

/-- `s` with the length register of space `x` at `n`. -/
def State.setLen (s : State) (x : Space) (n : Nat) : State :=
  match x with
  | .keymem => { s with klen := n }
  | .inbuf => { s with ilen := n }
  | .verbuf => { s with vlen := n }
  | .devbuf => { s with dlen := n }
  | .outbuf => { s with olen := n }

theorem State.setLen_len (s : State) (x : Space) (n : Nat) (y : Space) :
    (s.setLen x n).len y = if y = x then n else s.len y := by cases x <;> cases y <;> rfl

@[simp] theorem State.setLen_buf (s : State) (x : Space) (n : Nat) (y : Space) : (s.setLen x n).buf y = s.buf y := by
  cases x <;> cases y <;> rfl

@[simp] theorem State.setLen_inputs (s : State) (x : Space) (n : Nat) : (s.setLen x n).inputs = s.inputs := by
  cases x <;> rfl

theorem setLen_sameOutside (s : State) (x : Space) (n : Nat) : s.SameOutside x (s.setLen x n) where
  caps := by cases x <;> rfl
  status := by cases x <;> rfl
  cmd := by cases x <;> rfl
  err := by cases x <;> rfl
  other _ hy := ⟨State.setLen_buf .., by rw [State.setLen_len, if_neg hy]⟩

/-- The pending inputs are the host's side. -/
theorem State.pending_sameOutside (s : State) (x : Space) (l : List Input) :
    s.SameOutside x { s with inputs := l } := ⟨rfl, rfl, rfl, rfl, fun y _ => by cases y <;> exact ⟨rfl, rfl⟩⟩

/-- A write to an operand space's length register sets that length. -/
theorem writeRegister_lengthReg {s : State} {x : Space} {v : Nat} (hx : x ≠ .outbuf) (hb : s.busy = false)
    (hv : v < 2 ^ s.caps.lenW) : s.writeRegister (lengthReg x) v = s.setLen x v := by
  obtain ⟨hklen, hilen, hvlen, hdlen⟩ := writeRegister_length hb hv
  cases x with
  | keymem => exact hklen
  | inbuf => exact hilen
  | verbuf => exact hvlen
  | devbuf => exact hdlen
  | outbuf => exact absurd rfl hx

/-- The step of a length-register write that ends the loading of a stored string. -/
theorem step_declares {s : State} {x : Space} {str : List Chr} {rest : List Input} (hx : x ≠ .outbuf) (hb : s.busy = false)
    (hw : str.length < 2 ^ s.caps.lenW) (hm : Memory.Holds (s.buf x) str)
    (hi : s.inputs = .hwr (lengthReg x) str.length :: rest) :
    ∃ t, step s = .next t ∧ t.HasString x str ∧ t.inputs = rest ∧ s.SameOutside x t := by
  refine ⟨State.setLen { s with inputs := rest } x str.length,
    (step_free hb hi).trans (congrArg _ (writeRegister_lengthReg hx hb hw)), ⟨?_, ?_⟩, ?_, ?_⟩
  · rw [State.setLen_len, if_pos rfl]
  · rw [State.setLen_buf]; exact hm
  · rw [State.setLen_inputs]
  · exact State.SameOutside.trans (State.pending_sameOutside s x rest) (setLen_sameOutside _ x _)

/-- The step that stores the character behind a stored string. -/
theorem step_appends {s : State} {x : Space} {pre : List Chr} {c : Chr} {rest : List Input} (hx : x ≠ .outbuf)
    (hb : s.busy = false) (hc : pre.length < s.caps.capacity x) (hm : Memory.Holds (s.buf x) pre)
    (hi : s.inputs = .bwr x pre.length c :: rest) :
    ∃ t, step s = .next t ∧ Memory.Holds (t.buf x) (pre ++ [c]) ∧ t.inputs = rest ∧ s.SameOutside x t := by
  have hin : ¬ (x = .outbuf ∨ s.caps.capacity x ≤ pre.length) := not_or.2 ⟨hx, Nat.not_le_of_lt hc⟩
  refine ⟨State.writeBuf { s with inputs := rest } x pre.length c,
    (step_free hb hi).trans (congrArg _ (writeCharacter_stores c hb hin)), ?_, ?_, ?_⟩
  · rw [State.writeBuf_buf_self]; exact hm.write rfl c
  · rw [State.writeBuf_inputs]
  · exact State.SameOutside.trans (State.pending_sameOutside s x rest) (writeBuf_sameOutside _ x _ c)

/-- The actions that load the rest `str` of a string whose first characters `pre` are stored: one step a character and one
for the length. -/
theorem run_load {s : State} {x : Space} {pre str : List Chr} {rest : List Input} (hx : x ≠ .outbuf) (hb : s.busy = false)
    (hc : (pre ++ str).length ≤ s.caps.capacity x) (hw : (pre ++ str).length < 2 ^ s.caps.lenW)
    (hm : Memory.Holds (s.buf x) pre)
    (hi : s.inputs = storeString x pre.length str ++ .hwr (lengthReg x) (pre ++ str).length :: rest) :
    ∃ t, core.run (str.length + 1) s = .next t ∧ t.HasString x (pre ++ str) ∧ t.inputs = rest ∧ s.SameOutside x t := by
  induction str generalizing s pre with
  | nil =>
    rw [List.append_nil] at hw hi ⊢
    obtain ⟨t, ht, h⟩ := step_declares hx hb hw hm hi
    exact ⟨t, run_next 0 ht, h⟩
  | cons c cs ih =>
    have hlt : pre.length < s.caps.capacity x := by rw [List.length_append, List.length_cons] at hc; omega
    obtain ⟨u, hu, hmu, hiu, hsu⟩ := step_appends hx hb hlt hm hi
    rw [List.append_cons] at hc hw hiu ⊢
    rw [← hsu.caps] at hc hw
    obtain ⟨t, ht, hstr, hit, hst⟩ := ih (hsu.busy.trans hb) hc hw hmu (by rw [hiu, List.length_append (as := pre)]; rfl)
    exact ⟨t, (run_next _ hu).trans ht, hstr, hit, hsu.trans hst⟩

/-- Loading a string into an operand space with nothing of it stored yet. -/
theorem run_loadString {s : State} {x : Space} {str : List Chr} {rest : List Input} (hx : x ≠ .outbuf)
    (hb : s.busy = false) (hc : str.length ≤ s.caps.capacity x) (hw : str.length < 2 ^ s.caps.lenW)
    (hi : s.inputs = storeString x 0 str ++ .hwr (lengthReg x) str.length :: rest) :
    ∃ t, core.run (str.length + 1) s = .next t ∧ t.HasString x str ∧ t.inputs = rest ∧ s.SameOutside x t :=
  run_load (pre := []) hx hb hc hw (Memory.holds_nil _) hi

/-- Settles O14: each of the four loads is the loading of its own space. -/
theorem loadingAStringStoresIt : Obligations.LoadingAStringStoresIt := by
  intro s str rest hb hw x load hload hc hi
  obtain ⟨hx, hl⟩ : x ≠ .outbuf ∧ load str = storeString x 0 str ++ [.hwr (lengthReg x) str.length] := by
    rcases hload with ⟨rfl, rfl⟩ | ⟨rfl, rfl⟩ | ⟨rfl, rfl⟩ | ⟨rfl, rfl⟩ <;> exact ⟨nofun, rfl⟩
  rw [hl, List.append_assoc] at hi
  obtain ⟨t, ht, hstr, hit, hst⟩ := run_loadString hx hb hc hw hi
  exact ⟨t, ht, hstr, hit, hst.caps, hst.status, hst.cmd, hst.other⟩

/-- The characters `MOVOI` reads are those of a string that `OUTBUF` holds from index `i` on. -/
theorem movoiRead_eq {s : State} {str : List Chr} {i : Nat} (hb : s.busy = false) (hu : s.unobserved = false)
    (hc : i + str.length ≤ s.caps.outMax) (hm : ∀ j, j < str.length → Memory.read s.outbuf (i + j) = str[j]?) :
    movoiRead s str.length i = str := by
  induction str generalizing i with
  | nil => rfl
  | cons c cs ih =>
    rw [List.length_cons] at hc hm
    have hhead : s.readCharacter (s.draws + i) .outbuf i = c :=
      readCharacter_stored _ hb (show i < s.caps.outMax by omega) (fun _ => hu) (hm 0 (Nat.succ_pos _))
    have htail : movoiRead s cs.length (i + 1) = cs :=
      ih (by omega) fun j hj => by rw [Nat.add_right_comm]; exact hm (j + 1) (Nat.succ_lt_succ hj)
    rw [List.length_cons, movoiRead, hhead, htail]

/-- With the end of the command observed, `MOVOI` makes the writes that load the result into `INBUF`. -/
theorem movoiWrites_eq {s : State} {out : List Chr} (hb : s.busy = false) (hu : s.unobserved = false)
    (hc : s.olen ≤ s.caps.outMax) (ho : s.Output out) :
    movoiWrites s = storeString .inbuf 0 out ++ [.hwr regIlen out.length] := by
  have hlen : s.readRegister regOlen = out.length :=
    readRegister_map hb (fun _ => hu) (congrArg some ho.olen)
  have hread : movoiRead s out.length 0 = out :=
    movoiRead_eq hb hu (by rw [Nat.zero_add, ← ho.olen]; exact hc) fun j hj => by rw [Nat.zero_add]; exact ho.outbuf j hj
  rw [movoiWrites, hlen, hread]

/-- A result's length fits a length register (00_scope.md R9, 10_state.md R33). -/
theorem State.Inv.olen_lt {s : State} (h : s.Inv) : s.olen < 2 ^ s.caps.lenW := by
  have hc := h.caps
  simp only [Caps.wellFormed, Caps.lenWOk, Bool.and_eq_true, decide_eq_true_eq] at hc
  exact Nat.lt_of_le_of_lt h.olen hc.2

/-- Settles O15: after the step of the reads, what is left is the loading of the result into `INBUF`. -/
theorem movoiCopiesTheResult : Obligations.MovoiCopiesTheResult := by
  intro s out rest hinv hb hu ho hc hi
  have hfits := hinv.olen_lt
  rw [ho.olen] at hc hfits
  have hw := movoiWrites_eq (s := { s with inputs := rest }) hb hu hinv.olen ⟨ho.olen, ho.outbuf⟩
  obtain ⟨t, ht, hstr, hit, hst⟩ := run_loadString (s := serve { s with inputs := rest } .movoi) (x := .inbuf) nofun hb
    hc hfits (by simp only [serve, hw, List.append_assoc]; rfl)
  rw [ho.olen]
  exact ⟨t, (run_next _ (step_free hb hi)).trans ht, hstr, hit, hst.caps, hst.status, hst.cmd, hst.err, hst.other⟩

end Sys2Proof.Machine
end

section
/-!
SUPPORT. Unit `CIPH` (40_cipher.md): what the cipher functions answer position by position and in sequence, and the commands
`XENC` and `XDEC` as runs of these functions.
-/

namespace Sys2Proof.Machine

/-! ### The cipher functions -/

theorem encryptToHex_of_eq {text key : List Chr} (h : key.length = 0) : encryptToHex text key = .error .invalidKey :=
  dif_pos h

theorem decryptFromHex_of_eq {hex key : List Chr} (h : key.length = 0) : decryptFromHex hex key = .error .invalidKey :=
  dif_pos h

/-- `encryptToHex` has a value under a non-empty key only. -/
theorem encryptToHex_ok {text key out : List Chr} (h : encryptToHex text key = .ok out) :
    ∃ hk : key.length ≠ 0, out = hexText (xorWithKey text key hk) := by
  by_cases hk : key.length = 0
  · rw [encryptToHex_of_eq hk] at h
    cases h
  · rw [encryptToHex_of_ne hk] at h
    cases h
    exact ⟨hk, rfl⟩

/-- `decryptFromHex` has a value under a non-empty key, on a string that spells bytes, only. -/
theorem decryptFromHex_ok {hex key text : List Chr} (h : decryptFromHex hex key = .ok text) :
    ∃ (hk : key.length ≠ 0) (d : List Chr), unhexText hex = some d ∧ text = xorWithKey d key hk := by
  by_cases hk : key.length = 0
  · rw [decryptFromHex_of_eq hk] at h
    cases h
  · rw [decryptFromHex_of_ne hk] at h
    cases hd : unhexText hex with
    | none => rw [hd] at h; cases h
    | some d => rw [hd] at h; cases h; exact ⟨hk, d, rfl, rfl⟩

/-- Character `i` is combined with `key[i mod keyLength]` (40_cipher.md R111). -/
theorem getElem?_xorWithKey {text key : List Chr} (h : key.length ≠ 0) {i : Nat} {t k : Chr} (ht : text[i]? = some t)
    (hk : key[i % key.length]? = some k) : (xorWithKey text key h)[i]? = some (t ^^^ k) := by
  obtain ⟨_, rfl⟩ := List.getElem?_eq_some_iff.1 hk
  simp [xorWithKey, ht, xorb]

/-- The digits of byte `i` stand at `2i` and `2i + 1` (30_encoding.md R79). -/
theorem getElem?_hexText {d : List Chr} {i : Nat} {b : Chr} (h : d[i]? = some b) :
    (hexText d)[2 * i]? = some (hexdig (hiNibble b)) ∧ (hexText d)[2 * i + 1]? = some (hexdig (loNibble b)) := by
  induction d generalizing i with
  | nil => simp at h
  | cons c d ih =>
    cases i with
    | zero => cases h; exact ⟨rfl, rfl⟩
    | succ i => exact ih h

theorem exists_hexdig_of_mem_hexText {d : List Chr} {c : Chr} (h : c ∈ hexText d) : ∃ n, c = hexdig n := by
  obtain ⟨b, -, hc⟩ := List.mem_flatMap.1 h
  rcases List.mem_pair.1 hc with rfl | rfl <;> exact ⟨_, rfl⟩

/-- A digit the block writes is a decimal one or a capital (30_encoding.md R76). -/
theorem hexdig_range (n : Nibble) :
    (0x30 ≤ (hexdig n).toNat ∧ (hexdig n).toNat ≤ 0x39) ∨ (0x41 ≤ (hexdig n).toNat ∧ (hexdig n).toNat ≤ 0x46) := by
  rcases Nat.lt_or_ge n.toNat 10 with h | h
  · rw [hexdig_toNat_of_le (Nat.le_of_lt_succ h)]; omega
  · rw [hexdig_toNat_of_ge h]; omega

/-- Settles O26: the cipher text is the hex text of the XOR stage's bytes, and both are known position by position. -/
theorem encryptByPosition : Obligations.EncryptByPosition := by
  intro text key out h
  obtain ⟨hk, rfl⟩ := encryptToHex_ok h
  refine ⟨by simp, fun i t k hti hki => getElem?_hexText (getElem?_xorWithKey hk hti hki), fun c hc => ?_⟩
  obtain ⟨n, rfl⟩ := exists_hexdig_of_mem_hexText hc
  exact hexdig_range n

/-- Settles O27: both stages undo themselves, the hex text up to the case of its letters. -/
theorem cipherRoundTrips : Obligations.CipherRoundTrips := by
  constructor
  · intro text key hne
    have hk : key.length ≠ 0 := mt List.length_eq_zero_iff.1 hne
    exact ⟨_, encryptToHex_of_ne hk, by simp [decryptFromHex_of_ne hk, xorWithKey_xorWithKey]⟩
  · intro hex key text h
    obtain ⟨hk, d, hd, rfl⟩ := decryptFromHex_ok h
    rw [encryptToHex_of_ne hk, xorWithKey_xorWithKey, hexText_of_unhexText hd]

/-- Byte `j` of what a hex string spells is the byte of pair `j` (20_memory.md R60). -/
theorem getElem?_of_unhexText {hex d : List Chr} (h : unhexText hex = some d) {j : Nat} {c0 c1 : Chr}
    (h0 : hex[2 * j]? = some c0) (h1 : hex[2 * j + 1]? = some c1) : ∃ b, hexByte c0 c1 = some b ∧ d[j]? = some b := by
  induction hex using unhexText.induct generalizing d j with
  | case1 => simp at h0
  | case2 => simp [unhexText] at h
  | case3 x0 x1 rest b bs hbs hb ih =>
    simp only [unhexText, hb, hbs, Option.some.injEq] at h
    subst h
    cases j with
    | zero => cases h0; cases h1; exact ⟨b, hb, rfl⟩
    | succ j => exact ih hbs h0 h1
  | case4 x0 x1 rest hn ih =>
    simp only [unhexText] at h
    cases h

/-! ### A command that runs a function of strings -/

/-- The result of a command that produces a string and nothing else (43_command_interface.md R176). -/
def stringResult (out : List Chr) : Result := { out := out, olen := out.length, crc := none, rdev := none, csok := false }

/-- How a command's operation ends when it computes the function value `f` (00_scope.md R15). -/
def functionResult (f : Except ErrKind (List Chr)) : Except Stop Result := (f.mapError .raise).map stringResult

theorem complete_endedOk (s : State) (r : Result) : (s.complete r).EndedOk r.csok := ⟨rfl, rfl, rfl⟩

theorem complete_output {s : State} {r : Result} (h : r.olen = r.out.length) : (s.complete r).Output r.out :=
  ⟨h, Memory.holds_ofString r.out⟩

theorem exec_of_ok {i : Instr} {s : State} {r : Result} (hl : lengthsInRange s i = true) (ho : operation i s = .ok r) :
    exec i s = .next (s.complete r) := by simp [exec_eq, runCommand, hl, ho, State.conclude]

/-- With lengths in range, the error kind an operation raises is the one its command ends with. -/
theorem exec_of_raise {i : Instr} {s : State} {k : ErrKind} (hl : lengthsInRange s i = true)
    (ho : operation i s = .error (.raise k)) : ∃ t, exec i s = .next t ∧ t.EndedErr k :=
  ⟨s.raiseError k, by simp [exec_eq, runCommand, hl, ho, State.conclude], (raiseError_endedErr s k).1⟩

/-- A command whose operation computes a function value completes with that value. -/
theorem exec_of_function_ok {i : Instr} {s : State} {f : Except ErrKind (List Chr)} {out : List Chr}
    (hl : lengthsInRange s i = true) (ho : operation i s = functionResult f) (hf : f = .ok out) :
    ∃ t, exec i s = .next t ∧ t.EndedOk false ∧ t.Output out :=
  ⟨_, exec_of_ok hl (r := stringResult out) (by rw [ho, hf]; rfl), complete_endedOk s _, complete_output rfl⟩

/-- A command whose operation computes a function that fails ends with the function's error kind. -/
theorem exec_of_function_error {i : Instr} {s : State} {f : Except ErrKind (List Chr)} {k : ErrKind}
    (hl : lengthsInRange s i = true) (ho : operation i s = functionResult f) (hf : f = .error k) :
    ∃ t, exec i s = .next t ∧ t.EndedErr k :=
  exec_of_raise hl (by rw [ho, hf]; rfl)

/-! ### The checks of a cipher pass -/

theorem keychk_of_ne {s : State} (h : s.klen ≠ 0) : keychk s = .ok () := if_neg h

theorem keychk_of_eq {s : State} (h : s.klen = 0) : keychk s = .error (.raise .invalidKey) := if_pos h

theorem pairchk_of_even {n : Nat} (h : n % 2 = 0) : pairchk n = .ok () := if_neg (by omega)

theorem pairchk_of_odd {n : Nat} (h : n % 2 = 1) : pairchk n = .error (.raise .malformedInput) := if_pos h

/-- Settles O39: in each of the four operations nothing that can fail stands before the key check. -/
theorem emptyKeyIsInvalidKey : Obligations.EmptyKeyIsInvalidKey := by
  intro s i hi hl hk
  have hkey := keychk_of_eq hk
  have hbuild : buildOperation s = .error (.raise .invalidKey) := by rw [buildOperation, hkey]; rfl
  refine exec_of_raise hl ?_
  rcases hi with rfl | rfl | rfl | ⟨rfl, hv, hd⟩
  · rw [operation, xencOperation, hkey]; rfl
  · rw [operation, xdecOperation, hkey]; rfl
  · exact hbuild
  · have hfld : fldchk s = .ok () := if_neg (by simp [hv, hd, verLen, devLen])
    rw [operation, buildSOperation, hfld]
    exact hbuild

/-- `XDEC`'s operation on an odd number of characters reads none of them (40_cipher.md R107). -/
theorem xdecOperation_of_odd {s : State} (hk : s.klen ≠ 0) (hodd : s.ilen % 2 = 1) :
    xdecOperation s = .error (.raise .malformedInput) := by
  rw [xdecOperation, keychk_of_ne hk, pairchk_of_odd hodd]; rfl

/-- Settles O40: the pair check fails before the first read. -/
theorem oddHexTextIsMalformed : Obligations.OddHexTextIsMalformed :=
  fun _ hl hk hodd => exec_of_raise hl (xdecOperation_of_odd hk hodd)

/-! ### The cipher commands run the cipher functions -/

/-- `XENC`'s operation on a stored text and key is `encryptToHex` (40_cipher.md R105). -/
theorem xencOperation_eq {s : State} {text key : List Chr} (ht : s.HasString .inbuf text) (hk : s.HasKey key s.ilen) :
    xencOperation s = functionResult (encryptToHex text key) := by
  obtain ⟨htl, htm⟩ := ht
  obtain ⟨hkl, hkm⟩ := hk
  rw [State.len_inbuf] at htl
  by_cases hz : s.klen = 0
  · rw [xencOperation, keychk_of_eq hz, encryptToHex_of_eq (hkl.trans hz)]; rfl
  · have hne : key.length ≠ 0 := hkl ▸ hz
    have hpass := encPass_of_stored hne hkl s.ilen 0 (fun j _ hj => htm j (by omega)) (by omega)
      (fun j hj => hkm j (by omega))
    rw [Nat.zero_mod, List.drop_zero, List.take_of_length_le (Nat.le_of_eq htl), xorFrom_zero] at hpass
    have holen : 2 * s.ilen = (hexText (xorWithKey text key hne)).length := by simp [htl]
    rw [xencOperation, keychk_of_ne hz, encryptToHex_of_ne hne, hpass, holen]; rfl

/-- `XDEC`'s operation on a stored string and key is `decryptFromHex` (40_cipher.md R106, R108). -/
theorem xdecOperation_eq {s : State} {hex key : List Chr} (hh : s.HasString .inbuf hex) (hk : s.HasKey key (s.ilen / 2)) :
    xdecOperation s = functionResult (decryptFromHex hex key) := by
  obtain ⟨hhl, hhm⟩ := hh
  obtain ⟨hkl, hkm⟩ := hk
  rw [State.len_inbuf] at hhl
  by_cases hz : s.klen = 0
  · rw [xdecOperation, keychk_of_eq hz, decryptFromHex_of_eq (hkl.trans hz)]; rfl
  have hne : key.length ≠ 0 := hkl ▸ hz
  rcases Nat.mod_two_eq_zero_or_one s.ilen with heven | hodd
  · have hpairs : 2 * (s.ilen / 2) = hex.length := by omega
    have hpass := decPass_of_stored 0 hne hkl (s.ilen / 2) 0
      (fun j _ hj => by rw [Nat.zero_add]; exact hhm j (by omega)) (by omega) (fun j hj => hkm j (by omega))
    simp only [Nat.zero_mod, Nat.mul_zero, Nat.add_zero, List.drop_zero, hpairs, List.take_length, xorFrom_zero] at hpass
    rw [xdecOperation, keychk_of_ne hz, pairchk_of_even heven, decryptFromHex_of_ne hne, hpass]
    cases hd : unhexText hex with
    | none => rfl
    | some d =>
      have holen : s.ilen / 2 = (xorWithKey d key hne).length := by
        have := length_of_unhexText hd
        rw [xorWithKey_length]; omega
      rw [holen]; rfl
  · rw [xdecOperation_of_odd hz hodd, decryptFromHex_of_ne hne, unhexText_of_odd (hhl ▸ hodd)]
    rfl

/-- Settles O28: with a key the function has a value, which the operation computes. -/
theorem xencCompletesWithTheCipherText : Obligations.XencCompletesWithTheCipherText := by
  intro s text key ht hk hz hi hkm
  have hne : key.length ≠ 0 := hk.1 ▸ hz
  have hf := encryptToHex_of_ne (text := text) hne
  have hl : lengthsInRange s .xenc = true := by simp [lengthsInRange, hi, hkm]
  obtain ⟨t, he, hok, hout⟩ := exec_of_function_ok (i := .xenc) hl (xencOperation_eq ht hk) hf
  exact ⟨t, _, he, hf, hok, hout, by simp [hout.olen, ht.1]⟩

/-- Settles O30: the operation is the function on every stored string, its errors included. -/
theorem xdecFollowsDecryptFromHex : Obligations.XdecFollowsDecryptFromHex := by
  intro s hex key hh hk hi hkm
  have hl : lengthsInRange s .xdec = true := by simp [lengthsInRange, hi, hkm]
  have hop := xdecOperation_eq hh hk
  cases hf : decryptFromHex hex key with
  | ok out =>
    obtain ⟨t, he, hend⟩ := exec_of_function_ok (i := .xdec) hl hop hf
    exact ⟨t, he, by rintro _ ⟨⟩; exact hend, nofun⟩
  | error k =>
    obtain ⟨t, he, hend⟩ := exec_of_function_error (i := .xdec) hl hop hf
    exact ⟨t, he, nofun, by rintro _ ⟨⟩; exact hend⟩

/-- Settles O29: an even number of digits spells bytes, so the function has a value, known position by position. -/
theorem xdecCompletesWithThePlainText : Obligations.XdecCompletesWithThePlainText := by
  intro s hex key hh hk hz hi hkm heven hdig
  have hne : key.length ≠ 0 := hk.1 ▸ hz
  have hlen : hex.length = s.ilen := hh.1
  obtain ⟨d, hd⟩ := unhexText_isSome (hlen ▸ heven) hdig
  have hf : decryptFromHex hex key = .ok (xorWithKey d key hne) := by simp [decryptFromHex_of_ne hne, hd]
  obtain ⟨t, he, hends, -⟩ := xdecFollowsDecryptFromHex s hex key hh hk hi hkm
  obtain ⟨hok, hout⟩ := hends _ hf
  refine ⟨t, _, he, hf, hok, hout, ?_, fun j c0 c1 k h0 h1 hkj => ?_⟩
  · have := length_of_unhexText hd
    rw [hout.olen, xorWithKey_length]; omega
  · obtain ⟨b, hb, hdj⟩ := getElem?_of_unhexText hd h0 h1
    exact ⟨b, hb, getElem?_xorWithKey hne hdj (hk.1 ▸ hkj)⟩

end Sys2Proof.Machine
end

section
/-!
SUPPORT. Unit `CSUM` (41_checksum.md): `CRCBIT` bit by bit and as a linear bijection, the other two forms of `CRCBYTE`, the
checksum as a function of strings, and the command `CRC16` as a run of that function.
-/

namespace Sys2Proof.Machine

/-! ### `CRCBIT` (41_checksum.md R121, R122) -/

/-- `CRCBIT` shifts, and feeds the old bit 0 back through `POLY`. -/
theorem crcBit_eq (x : CrcWord) : crcBit x = (x >>> 1) ^^^ (if x.getLsbD 0 = true then 0xA001 else 0x0000) := by
  unfold crcBit
  split
  · rfl
  · exact BitVec.xor_zero.symm

theorem crcBit_of_low_zero {x : CrcWord} (h : x.getLsbD 0 = false) : crcBit x = x >>> 1 := by rw [crcBit, h]; rfl

/-- A bit of `CRCBIT`'s result is its upper neighbour, with the feedback where `POLY` has a 1. -/
theorem getLsbD_crcBit (x : CrcWord) (k : Nat) :
    (crcBit x).getLsbD k = (x.getLsbD (k + 1) ^^ (x.getLsbD 0 && poly.getLsbD k)) := by
  rw [crcBit_eq, BitVec.getLsbD_xor, BitVec.getLsbD_ushiftRight, Nat.add_comm 1 k]
  cases x.getLsbD 0 with
  | false => simp
  | true => rfl

theorem getLsbD_crcBit_of_poly_true {k : Nat} (h : poly.getLsbD k = true) (x : CrcWord) :
    (crcBit x).getLsbD k = (x.getLsbD (k + 1) ^^ x.getLsbD 0) := by rw [getLsbD_crcBit, h, Bool.and_true]

theorem getLsbD_crcBit_of_poly_false {k : Nat} (h : poly.getLsbD k = false) (x : CrcWord) :
    (crcBit x).getLsbD k = x.getLsbD (k + 1) := by rw [getLsbD_crcBit, h, Bool.and_false, Bool.xor_false]

/-- Bit 15 is the feedback alone, because the shift fills it with 0. -/
theorem getLsbD_crcBit_top (x : CrcWord) : (crcBit x).getLsbD 15 = x.getLsbD 0 := by
  rw [getLsbD_crcBit_of_poly_true (by decide), BitVec.getLsbD_of_ge x 16 (Nat.le_refl 16), Bool.false_xor]

/-- `POLY` has no bit set but 15, 13 and 0. -/
theorem getLsbD_poly_eq_false {k : Nat} (h : (1 ≤ k ∧ k ≤ 12) ∨ k = 14) : poly.getLsbD k = false := by
  have hpoly : ∀ j < 16, (1 ≤ j ∧ j ≤ 12) ∨ j = 14 → poly.getLsbD j = false := by decide
  exact hpoly k (by omega) h

/-- Settles O21: the function is the shift with its feedback, and the wiring is that function bit by bit. -/
theorem crcBitShiftsAndFeedsBack : Obligations.CrcBitShiftsAndFeedsBack :=
  ⟨crcBit_eq, by decide, by decide, by decide, by decide, by decide, fun x =>
    ⟨getLsbD_crcBit_top x, getLsbD_crcBit_of_poly_true (by decide) x, getLsbD_crcBit_of_poly_true (by decide) x,
      fun _ hk => getLsbD_crcBit_of_poly_false (getLsbD_poly_eq_false hk) x⟩⟩

/-! ### Linearity and bijection (41_checksum.md R129) -/

theorem crcWord_xor_cancel (x y : CrcWord) : x ^^^ y ^^^ y = x := by
  rw [BitVec.xor_assoc, BitVec.xor_self, BitVec.xor_zero]

theorem crcBit_xor (x y : CrcWord) : crcBit (x ^^^ y) = crcBit x ^^^ crcBit y := by
  apply BitVec.eq_of_getLsbD_eq
  intro k _
  simp only [getLsbD_crcBit, BitVec.getLsbD_xor, Bool.and_xor_distrib_right, Bool.xor_assoc, Bool.xor_left_comm]

/-- Bit 15 of the result is bit 0 of the argument, and taking the feedback off shows the other bits. -/
theorem crcBit_injective : Function.Injective crcBit := by
  intro x y h
  have h0 : x.getLsbD 0 = y.getLsbD 0 := by rw [← getLsbD_crcBit_top, h, getLsbD_crcBit_top]
  apply BitVec.eq_of_getLsbD_eq
  intro k _
  cases k with
  | zero => exact h0
  | succ k =>
    have hk : (crcBit x).getLsbD k = (crcBit y).getLsbD k := by rw [h]
    rw [getLsbD_crcBit, getLsbD_crcBit, h0] at hk
    exact Bool.xor_left_inj.1 hk

theorem crcBit_bijective : Function.Bijective crcBit := by
  have : Finite CrcWord := Finite.of_injective _ BitVec.equivFin.injective
  exact Finite.injective_iff_bijective.1 crcBit_injective

theorem crcBits_eq_iterate (n : Nat) : crcBits n = crcBit^[n] := by
  induction n with
  | zero => rfl
  | succ n ih => funext x; exact congrFun ih (crcBit x)

/-- The last of `n + 1` shifts. -/
theorem crcBits_succ_last (n : Nat) (x : CrcWord) : crcBits (n + 1) x = crcBit (crcBits n x) := by
  rw [crcBits_eq_iterate, crcBits_eq_iterate, Function.iterate_succ_apply']

theorem crcBits_xor (n : Nat) (x y : CrcWord) : crcBits n (x ^^^ y) = crcBits n x ^^^ crcBits n y := by
  induction n generalizing x y with
  | zero => rfl
  | succ n ih => simp only [crcBits, crcBit_xor, ih]

theorem crcBits_bijective (n : Nat) : Function.Bijective (crcBits n) := by
  rw [crcBits_eq_iterate]; exact crcBit_bijective.iterate n

/-- `CRCBYTE` of a fixed character: an XOR, then eight shifts. -/
theorem crcByte_bijective (c : Chr) : Function.Bijective fun x => crcByte x c := by
  have hxor : Function.Involutive fun x : CrcWord => x ^^^ c.setWidth 16 :=
    fun x => crcWord_xor_cancel x _
  exact (crcBits_bijective 8).comp hxor.bijective

/-- Settles O23: linearity bit by bit, the inverse from bit 15, and the bijections shift by shift. -/
theorem crcIsLinearAndBijective : Obligations.CrcIsLinearAndBijective := by
  refine ⟨crcBit_xor, fun x => ⟨(getLsbD_crcBit_top x).symm, ?_⟩, crcBit_bijective, crcByte_bijective⟩
  rw [crcBit_eq, crcWord_xor_cancel]
  apply BitVec.eq_of_getLsbD_eq
  intro k hk
  simp [hk]

/-! ### The other two forms of `CRCBYTE` (41_checksum.md R124, R131) -/

/-- The serial form's shift, with the data bit in its feedback. -/
theorem crcSerialBit_eq (x : CrcWord) (d : Bool) :
    crcSerialBit x d = (x >>> 1) ^^^ (if (x.getLsbD 0 ^^ d) = true then 0xA001 else 0x0000) := by
  unfold crcSerialBit
  split
  · rfl
  · exact BitVec.xor_zero.symm

/-- A shift of the register with `d` in its low bits takes bit 0 of `d` as the serial form's data bit, and only shifts the
others. -/
theorem crcBit_xor_chr (x : CrcWord) (d : Chr) :
    crcBit (x ^^^ d.setWidth 16) = crcSerialBit x (d.getLsbD 0) ^^^ (d >>> 1).setWidth 16 := by
  have h0 : (x ^^^ d.setWidth 16).getLsbD 0 = (x.getLsbD 0 ^^ d.getLsbD 0) := by
    rw [BitVec.getLsbD_xor, BitVec.getLsbD_setWidth]; rfl
  rw [crcBit_eq, h0, crcSerialBit_eq, BitVec.ushiftRight_xor_distrib, BitVec.setWidth_ushiftRight (by decide)]
  ac_rfl

/-- A character is in the low byte. -/
theorem setWidth_chr_shiftRight (c : Chr) : c.setWidth 16 >>> 8 = 0#16 := by
  rw [← BitVec.setWidth_ushiftRight (by decide), BitVec.ushiftRight_eq_zero (Nat.le_refl 8)]
  rfl

/-- After `n` data bits the serial form's register differs from the up-front form's by the bits not yet taken. -/
theorem crcBits_xor_chr (n : Nat) (x : CrcWord) (c : Chr) :
    crcBits n (x ^^^ c.setWidth 16) =
      ((List.range n).map c.getLsbD).foldl crcSerialBit x ^^^ (c >>> n).setWidth 16 := by
  induction n with
  | zero => simp [crcBits]
  | succ n ih =>
    rw [crcBits_succ_last, ih, crcBit_xor_chr, List.range_succ, List.map_append, List.foldl_append, BitVec.shiftRight_add]
    simp

theorem crcSerialByte_eq (x : CrcWord) (c : Chr) : crcSerialByte x c = crcByte x c := by
  rw [crcByte, crcBits_xor_chr, BitVec.setWidth_ushiftRight (by decide), setWidth_chr_shiftRight, BitVec.xor_zero]
  rfl

/-- Low bits that are 0 are shifted out without feedback. -/
theorem crcBits_of_low_zero {n : Nat} {x : CrcWord} (h : ∀ k < n, x.getLsbD k = false) : crcBits n x = x >>> n := by
  induction n generalizing x with
  | zero => simp [crcBits]
  | succ n ih =>
    have hx : crcBit x = x >>> 1 := crcBit_of_low_zero (h 0 n.succ_pos)
    have hlow : ∀ k < n, (x >>> 1).getLsbD k = false := fun k hk => by
      rw [BitVec.getLsbD_ushiftRight, Nat.add_comm]; exact h _ (Nat.succ_lt_succ hk)
    rw [crcBits, hx, ih hlow, ← BitVec.shiftRight_add, Nat.add_comm]

theorem crcTable_eq (n : Chr) : crcTable n = crcBits 8 (n.setWidth 16) := congrArg (crcBits 8) BitVec.zero_xor

/-- Eight shifts move the high byte down and leave the table's entry for the low byte. -/
theorem crcBits_eight (y : CrcWord) : crcBits 8 y = (y >>> 8) ^^^ crcTable (y.extractLsb' 0 8) := by
  generalize hlo : y.extractLsb' 0 8 = lo
  have hlow : ∀ k < 8, (y ^^^ lo.setWidth 16).getLsbD k = false := fun k hk => by
    have : k < 16 := by omega
    subst hlo
    simp [hk, this]
  calc crcBits 8 y
      = crcBits 8 ((y ^^^ lo.setWidth 16) ^^^ lo.setWidth 16) := by rw [crcWord_xor_cancel]
    _ = (y ^^^ lo.setWidth 16) >>> 8 ^^^ crcBits 8 (lo.setWidth 16) := by rw [crcBits_xor, crcBits_of_low_zero hlow]
    _ = y >>> 8 ^^^ crcTable lo := by
      rw [BitVec.ushiftRight_xor_distrib, setWidth_chr_shiftRight, BitVec.xor_zero, crcTable_eq]

theorem crcTableByte_eq (x : CrcWord) (c : Chr) : crcTableByte x c = crcByte x c := by
  rw [crcByte, crcBits_eight, BitVec.ushiftRight_xor_distrib, setWidth_chr_shiftRight, BitVec.xor_zero]
  rfl

/-- Settles O22: the serial form takes the character's bits as they come down to bit 0, and the table form is `crcbit^8` of
the two bytes apart. -/
theorem crcFormsAgree : Obligations.CrcFormsAgree := fun x c => ⟨crcSerialByte_eq x c, crcTableByte_eq x c⟩

/-! ### The checksum of a string (41_checksum.md R125, R126, R130) -/

theorem crc16_append (front back : List Chr) : crc16 (front ++ back) = back.foldl crcByte (crc16 front) :=
  List.foldl_append

theorem crc16_replicate_zero (n : Nat) : crc16 (List.replicate n 0x00) = crcInit := by
  induction n with
  | zero => rfl
  | succ n ih =>
    rw [List.replicate_succ', crc16_append, ih]
    decide

/-- Settles O25: the checksum folds from the left, and from 0 a character `0x00` leaves 0. -/
theorem crcOfStrings : Obligations.CrcOfStrings := by
  refine ⟨rfl, fun str c => crc16_append str [c], fun n str => ?_⟩
  rw [crc16_append, crc16_replicate_zero]
  rfl

/-- The register before a string can be told from the register after it. -/
theorem foldl_crcByte_injective (str : List Chr) : Function.Injective fun x => str.foldl crcByte x := by
  induction str with
  | nil => exact fun _ _ h => h
  | cons c str ih => exact ih.comp (crcByte_bijective c).injective

/-- From one register value different characters lead to different ones. -/
theorem crcByte_chr_injective (x : CrcWord) : Function.Injective (crcByte x) := by
  intro c d h
  have hx : c.setWidth 16 = d.setWidth 16 := (BitVec.xor_right_inj x).1 ((crcBits_bijective 8).injective h)
  simpa using congrArg (BitVec.setWidth 8) hx

/-- Settles O24: the changed character gives another register value, and the characters after it keep the two apart. -/
theorem crcDetectsOneChangedCharacter : Obligations.CrcDetectsOneChangedCharacter := by
  intro front back c d hne h
  rw [crc16_append, crc16_append] at h
  exact hne (crcByte_chr_injective _ (foldl_crcByte_injective back h))

/-! ### The command `CRC16` (41_checksum.md R125) -/

/-- The operation on a stored string is `crc16`; it looks at neither the key nor `KLEN`. -/
theorem crc16Operation_eq {s : State} {data : List Chr} (h : s.HasString .inbuf data) :
    crc16Operation s = .ok { out := [], olen := 0, crc := some (crc16 data), rdev := none, csok := false } := by
  obtain ⟨hlen, hmem⟩ := h
  rw [State.len_inbuf] at hlen
  have hpass := crcPass_of_stored s.ilen 0 crcInit (fun j _ hj => hmem j (by omega)) (by omega)
  rw [List.drop_zero, List.take_of_length_le (Nat.le_of_eq hlen)] at hpass
  rw [crc16Operation, hpass]
  rfl

/-- Settles O31: with `ILEN` in range the command completes its operation's result. -/
theorem crc16CompletesWithTheChecksum : Obligations.Crc16CompletesWithTheChecksum := by
  intro s data hs hi
  have hl : lengthsInRange s .crc16 = true := decide_eq_true hi
  exact ⟨_, exec_of_ok hl (crc16Operation_eq hs), rfl, rfl, complete_endedOk s _⟩

end Sys2Proof.Machine
end

section
/-!
SUPPORT. Packets at the function level (42_framer.md R152 to R156): the slices of a packet, what `parsePacket` answers check by
check, and what a changed character or another key does to its answer.
-/

namespace Sys2Proof.Machine

/-! ### Slices (00_scope.md R12) -/

@[simp] theorem slice_length (str : List Chr) (a b : Nat) : (slice str a b).length = min b str.length - a := by
  simp [slice]

/-- A slice of a string in which one character was set. -/
theorem slice_set (str : List Chr) (p a b : Nat) (d : Chr) :
    slice (str.set p d) a b = if p < a then slice str a b else (slice str a b).set (p - a) d := by
  rw [slice, List.take_set, List.drop_set]; rfl

theorem slice_set_of_lt {p a : Nat} (h : p < a) (str : List Chr) (b : Nat) (d : Chr) :
    slice (str.set p d) a b = slice str a b := by rw [slice_set, if_pos h]

theorem slice_set_of_le {p b : Nat} (h : b ≤ p) (str : List Chr) (a : Nat) (d : Chr) :
    slice (str.set p d) a b = slice str a b := by
  rw [slice, List.take_set_of_le h]; rfl

theorem slice_set_of_mem {p a : Nat} (h : a ≤ p) (str : List Chr) (b : Nat) (d : Chr) :
    slice (str.set p d) a b = (slice str a b).set (p - a) d := by rw [slice_set, if_neg (Nat.not_lt.2 h)]

theorem getElem?_slice {str : List Chr} {p a b : Nat} (ha : a ≤ p) (hb : p < b) : (slice str a b)[p - a]? = str[p]? := by
  rw [slice, List.getElem?_drop, Nat.add_sub_cancel' ha, List.getElem?_take_of_lt hb]

/-- A part of a string is the slice from where it begins to where it ends. -/
theorem slice_of_append {str pre mid post : List Chr} {a b : Nat} (h : str = pre ++ mid ++ post) (ha : a = pre.length)
    (hb : b = a + mid.length) : slice str a b = mid := by
  subst h ha hb
  rw [slice, List.take_left' List.length_append, List.drop_left]

/-! ### One changed character -/

/-- Setting a character to a different one changes the string. -/
theorem set_ne_of_getElem? {α : Type} {l : List α} {q : Nat} {c d : α} (h : l[q]? = some c) (hd : d ≠ c) : l.set q d ≠ l := by
  intro he
  obtain ⟨hq, -⟩ := List.getElem?_eq_some_iff.1 h
  have hset := List.getElem?_set_self (a := d) hq
  rw [he, h] at hset
  exact hd (Option.some.inj hset).symm

/-- The checksum tells a string from the string with one character changed (41_checksum.md R130). -/
theorem crc16_set_ne {str : List Chr} {q : Nat} {c d : Chr} (h : str[q]? = some c) (hd : d ≠ c) :
    crc16 (str.set q d) ≠ crc16 str := by
  obtain ⟨hq, rfl⟩ := List.getElem?_eq_some_iff.1 h
  have hs := crcDetectsOneChangedCharacter (str.take q) (str.drop (q + 1)) d str[q] hd
  rw [← List.drop_eq_getElem_cons hq, List.take_append_drop] at hs
  rwa [List.set_eq_take_append_cons_drop, if_pos hq]

theorem hexdig_injective {m n : Nibble} (h : hexdig m = hexdig n) : m = n := by
  have := congrArg hexval h
  rwa [hexval_hexdig, hexval_hexdig, Option.some.injEq] at this

/-- The checksum's text tells the checksums apart (30_encoding.md R80). -/
theorem toHex4_injective {v w : CrcWord} (h : toHex4 v = toHex4 w) : v = w := by
  simp only [toHex4, List.cons.injEq, and_true] at h
  obtain ⟨h3, h2, h1, h0⟩ := h
  have e3 := congrArg BitVec.toNat (hexdig_injective h3)
  have e2 := congrArg BitVec.toNat (hexdig_injective h2)
  have e1 := congrArg BitVec.toNat (hexdig_injective h1)
  have e0 := congrArg BitVec.toNat (hexdig_injective h0)
  simp only [BitVec.extractLsb'_toNat, Nat.shiftRight_eq_div_pow] at e3 e2 e1 e0
  apply BitVec.eq_of_toNat_eq
  omega

@[simp] theorem map_fold_toHex4 (v : CrcWord) : (toHex4 v).map fold = toHex4 v := by simp [toHex4, fold_hexdig]

/-! ### What `parsePacket` answers (42_framer.md R152, R154) -/

/-- A packet that passes the checks made before the cipher pass (42_framer.md R141, R143, R146). -/
structure Framed (packet : List Chr) : Prop where
  long : 26 ≤ packet.length
  header : slice packet 0 3 = hdr
  checksum : (slice packet (packet.length - 4) packet.length).map fold =
    toHex4 (crc16 (slice packet 0 (packet.length - 4)))

section
variable {packet : List Chr} (key : List Chr)

theorem parsePacket_of_short (h : packet.length < 26) : parsePacket packet key = .error .tooShort := if_pos h

theorem parsePacket_of_header (hl : 26 ≤ packet.length) (hh : slice packet 0 3 ≠ hdr) :
    parsePacket packet key = .error .badHeader := by
  simp only [parsePacket, Nat.not_lt.2 hl, hh, ne_eq, not_false_eq_true, if_true, if_false]

theorem parsePacket_of_checksum (hl : 26 ≤ packet.length) (hh : slice packet 0 3 = hdr)
    (hc : (slice packet (packet.length - 4) packet.length).map fold ≠
      toHex4 (crc16 (slice packet 0 (packet.length - 4)))) :
    parsePacket packet key = .error .checksumMismatch := by
  simp only [parsePacket, Nat.not_lt.2 hl, hh, hc, ne_eq, not_true_eq_false, not_false_eq_true, if_true, if_false]

/-- Behind the checks `parsePacket` is `decryptFromHex` of the payload. -/
theorem parsePacket_of_framed (h : Framed packet) :
    parsePacket packet key =
      (decryptFromHex (slice packet 20 (packet.length - 4)) key).map (ParsedResult.mk (slice packet 4 20)) := by
  simp only [parsePacket, Nat.not_lt.2 h.long, h.header, h.checksum, ne_eq, not_true_eq_false, if_false]
  cases decryptFromHex (slice packet 20 (packet.length - 4)) key <;> rfl

variable {key}

/-- What `parsePacket` has a value for, and which. -/
theorem parsePacket_ok {r : ParsedResult} (h : parsePacket packet key = .ok r) :
    Framed packet ∧ ∃ message, decryptFromHex (slice packet 20 (packet.length - 4)) key = .ok message ∧
      r = { deviceId := slice packet 4 20, decryptedMessage := message } := by
  by_cases hl : packet.length < 26
  · rw [parsePacket_of_short key hl] at h; cases h
  rw [Nat.not_lt] at hl
  by_cases hh : slice packet 0 3 = hdr
  swap
  · rw [parsePacket_of_header key hl hh] at h; cases h
  by_cases hc : (slice packet (packet.length - 4) packet.length).map fold =
      toHex4 (crc16 (slice packet 0 (packet.length - 4)))
  swap
  · rw [parsePacket_of_checksum key hl hh hc] at h; cases h
  have hf : Framed packet := ⟨hl, hh, hc⟩
  rw [parsePacket_of_framed key hf] at h
  cases hd : decryptFromHex (slice packet 20 (packet.length - 4)) key with
  | error k => rw [hd] at h; cases h
  | ok message => rw [hd] at h; cases h; exact ⟨hf, message, rfl, rfl⟩

end

/-- A payload that spells no byte string is malformed under every key (42_framer.md R154, rows 5 and 6). -/
theorem parsePacket_of_malformed {packet key : List Chr} (h : Framed packet) (hk : key.length ≠ 0)
    (hp : unhexText (slice packet 20 (packet.length - 4)) = none) : parsePacket packet key = .error .malformedInput := by
  rw [parsePacket_of_framed key h, decryptFromHex_of_ne hk, hp]; rfl

/-- The payload is what the 24 characters of framing leave (30_encoding.md R82). -/
theorem payload_length (packet : List Chr) :
    (slice packet 20 (packet.length - 4)).length = packet.length - 24 := by
  rw [slice_length]; omega

/-- A value of `decryptFromHex` has a character for each two of the hex text (40_cipher.md R106). -/
theorem length_of_decryptFromHex {hex key text : List Chr} (h : decryptFromHex hex key = .ok text) :
    hex.length = 2 * text.length := by
  obtain ⟨hk, d, hd, rfl⟩ := decryptFromHex_ok h
  rw [xorWithKey_length, length_of_unhexText hd]

section
variable {packet key : List Chr} (h : Framed packet) (hk : key.length ≠ 0)
include h hk

theorem parsePacket_of_odd (hodd : packet.length % 2 = 1) : parsePacket packet key = .error .malformedInput := by
  have hl := h.long
  exact parsePacket_of_malformed h hk (unhexText_of_odd (by rw [payload_length]; omega))

theorem parsePacket_of_bad (hbad : ∃ c ∈ slice packet 20 (packet.length - 4), hexval c = none) :
    parsePacket packet key = .error .malformedInput := by
  obtain ⟨c, hc, hv⟩ := hbad
  exact parsePacket_of_malformed h hk (unhexText_of_bad hc hv)

/-- An even number of digits as the payload decrypts (42_framer.md R154, row 7). -/
theorem parsePacket_of_digits (heven : packet.length % 2 = 0)
    (hv : ∀ c ∈ slice packet 20 (packet.length - 4), hexval c ≠ none) :
    ∃ message, decryptFromHex (slice packet 20 (packet.length - 4)) key = .ok message ∧
      parsePacket packet key = .ok { deviceId := slice packet 4 20, decryptedMessage := message } ∧
      message.length = (packet.length - 24) / 2 := by
  have hl := h.long
  obtain ⟨d, hd⟩ := unhexText_isSome (by rw [payload_length]; omega) hv
  have hm : decryptFromHex (slice packet 20 (packet.length - 4)) key = .ok (xorWithKey d key hk) := by
    rw [decryptFromHex_of_ne hk, hd]
  refine ⟨_, hm, by rw [parsePacket_of_framed key h, hm]; rfl, ?_⟩
  have hlen := length_of_decryptFromHex hm
  rw [payload_length] at hlen
  omega

end

/-- Settles O37: each row is a check of `parsePacket` in its order, and the last three are about what the payload spells. -/
theorem parseOutcomeTable : Obligations.ParseOutcomeTable := by
  intro packet key len payload c1 c2 c3 c4 c5 c6
  have framed (h1 : ¬ c1) (h2 : ¬ c2) (h3 : ¬ c3) : Framed packet := ⟨Nat.not_lt.1 h1, not_not.1 h2, not_not.1 h3⟩
  refine ⟨parsePacket_of_short key, fun h1 => parsePacket_of_header key (Nat.not_lt.1 h1),
    fun h1 h2 => parsePacket_of_checksum key (Nat.not_lt.1 h1) (not_not.1 h2), fun h1 h2 h3 h4 => ?_,
    fun h1 h2 h3 => parsePacket_of_odd (framed h1 h2 h3), fun h1 h2 h3 h4 _ => parsePacket_of_bad (framed h1 h2 h3) h4,
    fun h1 h2 h3 h4 h5 h6 => ?_⟩
  · rw [parsePacket_of_framed key (framed h1 h2 h3), decryptFromHex_of_eq h4]; rfl
  · obtain ⟨message, -, hr, hm⟩ := parsePacket_of_digits (framed h1 h2 h3) h4 (Nat.mod_two_ne_one.1 h5)
      fun c hc hv => h6 ⟨c, hc, hv⟩
    exact ⟨_, hr, rfl, hm⟩

/-! ### A changed character, and another key (42_framer.md R155, R156) -/

section
variable {packet key : List Chr} {p : Nat} {c d : Chr} (hf : Framed packet)
include hf

/-- A changed character behind the header leaves the length and the header as they are; the checksum decides. -/
theorem parsePacket_set_checksum (h : 3 ≤ p)
    (hne : (slice (packet.set p d) (packet.length - 4) packet.length).map fold ≠
      toHex4 (crc16 (slice (packet.set p d) 0 (packet.length - 4)))) :
    parsePacket (packet.set p d) key = .error .checksumMismatch := by
  have hl : (packet.set p d).length = packet.length := List.length_set
  exact parsePacket_of_checksum key (hl ▸ hf.long) ((slice_set_of_le h _ _ _).trans hf.header) (by rwa [hl])

/-- A changed character of the checksum field, by the characters the check compares. -/
theorem map_fold_set_checksum (h : packet.length - 4 ≤ p) :
    (slice (packet.set p d) (packet.length - 4) packet.length).map fold =
      (toHex4 (crc16 (slice packet 0 (packet.length - 4)))).set (p - (packet.length - 4)) (fold d) := by
  rw [slice_set_of_mem h, List.map_set, hf.checksum]

variable (hp : packet[p]? = some c)
include hp

/-- A changed header character (42_framer.md R143). -/
theorem parsePacket_set_header (hd : d ≠ c) (h : p < 3) : parsePacket (packet.set p d) key = .error .badHeader := by
  refine parsePacket_of_header key (by rw [List.length_set]; exact hf.long) ?_
  rw [slice_set_of_mem (Nat.zero_le p), ← hf.header]
  exact set_ne_of_getElem? (by rw [getElem?_slice (Nat.zero_le p) h, hp]) hd

/-- A changed character under the checksum gives another checksum (41_checksum.md R130). -/
theorem parsePacket_set_front (hd : d ≠ c) (h3 : 3 ≤ p) (h : p < packet.length - 4) :
    parsePacket (packet.set p d) key = .error .checksumMismatch := by
  refine parsePacket_set_checksum hf h3 fun he => ?_
  rw [slice_set_of_lt h, hf.checksum, slice_set_of_mem (Nat.zero_le p)] at he
  exact crc16_set_ne (by rw [getElem?_slice (Nat.zero_le p) h, hp]) hd (toHex4_injective he).symm

/-- Another digit in the checksum field (42_framer.md R146). -/
theorem parsePacket_set_digit (hd : fold d ≠ fold c) (h : packet.length - 4 ≤ p) :
    parsePacket (packet.set p d) key = .error .checksumMismatch := by
  have hlt : p < packet.length := (List.getElem?_eq_some_iff.1 hp).1
  have hl := hf.long
  refine parsePacket_set_checksum hf (by omega) ?_
  rw [map_fold_set_checksum hf h, slice_set_of_le h]
  refine set_ne_of_getElem? (c := fold c) ?_ hd
  rw [← hf.checksum, List.getElem?_map, getElem?_slice h hlt, hp]; rfl

/-- The case of a checksum letter is not compared, and no other check or result looks at it (42_framer.md R146). -/
theorem parsePacket_set_case (hd : fold d = fold c) (h : packet.length - 4 ≤ p) :
    parsePacket (packet.set p d) key = parsePacket packet key := by
  have hlt : p < packet.length := (List.getElem?_eq_some_iff.1 hp).1
  have hl : (packet.set p d).length = packet.length := List.length_set
  have hlong := hf.long
  have hfield : (slice (packet.set p d) (packet.length - 4) packet.length).map fold =
      (slice packet (packet.length - 4) packet.length).map fold := by
    obtain ⟨hq, hc⟩ := List.getElem?_eq_some_iff.1 ((getElem?_slice h hlt).trans hp)
    rw [slice_set_of_mem h, List.map_set, hd, ← hc, ← List.map_set, List.set_getElem_self]
  have hf' : Framed (packet.set p d) :=
    ⟨hl ▸ hlong, (slice_set_of_le (by omega) _ _ _).trans hf.header,
      by rw [hl, hfield, hf.checksum, slice_set_of_le h]⟩
  rw [parsePacket_of_framed key hf', parsePacket_of_framed key hf, hl, slice_set_of_le h, slice_set_of_le (by omega)]

end

/-- Settles O52: the header is compared as it is, the checksum of the characters under it, and the checksum field after
folding. -/
theorem oneChangedCharacterIsDetected : Obligations.OneChangedCharacterIsDetected := by
  intro packet key r p c d hr hp hd
  obtain ⟨hf, -⟩ := parsePacket_ok hr
  exact ⟨parsePacket_set_header hf hp hd, parsePacket_set_front hf hp hd, fun h hfold => parsePacket_set_digit hf hp hfold h,
    fun h hfold => (parsePacket_set_case hf hp hfold h).trans hr⟩

/-- Settles O53: no check looks at the key, and both messages come from the same payload bytes. -/
theorem wrongKeyIsNotDetected : Obligations.WrongKeyIsNotDetected := by
  intro packet key other r hr hne
  obtain ⟨hf, message, hm, rfl⟩ := parsePacket_ok hr
  obtain ⟨hk, bytes, hb, rfl⟩ := decryptFromHex_ok hm
  have ho : other.length ≠ 0 := mt List.length_eq_zero_iff.1 hne
  refine ⟨⟨slice packet 4 20, xorWithKey bytes other ho⟩, ?_, rfl, by simp, fun i m k o hmi hki hoi => ?_⟩
  · rw [parsePacket_of_framed other hf, decryptFromHex_of_ne ho, hb]; rfl
  · cases hbi : bytes[i]? with
    | none => simp [xorWithKey, hbi] at hmi
    | some b =>
      obtain rfl : b ^^^ k = m := Option.some.inj ((getElem?_xorWithKey hk hbi hki).symm.trans hmi)
      rw [show b ^^^ k ^^^ k = b from xorb_xorb b k]
      exact getElem?_xorWithKey ho hbi hoi

end Sys2Proof.Machine
end

section
/-!
SUPPORT. `BUILD` and `BUILD.S` (42_framer.md R147 to R151): the operation on stored operands, and the field check.
-/

namespace Sys2Proof.Machine

/-- Everything of a packet before its checksum (42_framer.md R150). -/
def packetFront (version deviceId payload : List Chr) : List Chr := hdr ++ version ++ deviceId ++ payload

theorem packetFront_eq (version deviceId payload : List Chr) :
    packetFront version deviceId payload = [0x57, 0x49, 0x4D] ++ version ++ deviceId ++ payload := rfl

/-- A stored string read as a whole. -/
theorem readSpan_of_hasString {s : State} {x : Space} {str : List Chr} (h : s.HasString x str) :
    readSpan s x (s.len x) 0 = .ok str := by
  obtain ⟨hl, hm⟩ := h
  rw [readSpan_of_stored (s.len x) 0 (fun j _ hj => hm j (by omega)) (by omega), List.drop_zero,
    List.take_of_length_le (Nat.le_of_eq hl)]

/-- An encode pass over the whole stored text is `encryptToHex`. -/
theorem encPass_of_hasString {s : State} {text key : List Chr} (ht : s.HasString .inbuf text) (hk : s.HasKey key s.ilen)
    (hne : key.length ≠ 0) : encPass s s.ilen 0 0 = .ok (hexText (xorWithKey text key hne)) := by
  obtain ⟨htl, htm⟩ := ht
  obtain ⟨hkl, hkm⟩ := hk
  rw [State.len_inbuf] at htl
  have hpass := encPass_of_stored hne hkl s.ilen 0 (fun j _ hj => htm j (by omega)) (by omega)
    (fun j hj => hkm j (by omega))
  rwa [Nat.zero_mod, List.drop_zero, List.take_of_length_le (Nat.le_of_eq htl), xorFrom_zero] at hpass

/-- `BUILD`'s operation on stored operands and a non-empty key. -/
theorem buildOperation_eq {s : State} {text key version deviceId payload : List Chr} (ht : s.HasString .inbuf text)
    (hk : s.HasKey key s.ilen) (hv : s.HasString .verbuf version) (hd : s.HasString .devbuf deviceId)
    (hp : encryptToHex text key = .ok payload) :
    buildOperation s =
      .ok (buildResult s (packetFront version deviceId payload) (crc16 (packetFront version deviceId payload))) := by
  obtain ⟨hne, rfl⟩ := encryptToHex_ok hp
  have hz : s.klen ≠ 0 := hk.1 ▸ hne
  have hver : readSpan s .verbuf s.vlen 0 = .ok version := readSpan_of_hasString hv
  have hdev : readSpan s .devbuf s.dlen 0 = .ok deviceId := readSpan_of_hasString hd
  rw [buildOperation, keychk_of_ne hz, hver, hdev, encPass_of_hasString ht hk hne]
  rfl

/-- The result of `BUILD` has its declared length (42_framer.md R148). -/
theorem buildResult_olen {s : State} {text key version deviceId payload : List Chr} (ht : s.HasString .inbuf text)
    (hv : s.HasString .verbuf version) (hd : s.HasString .devbuf deviceId) (hp : encryptToHex text key = .ok payload)
    (v : CrcWord) : (buildResult s (packetFront version deviceId payload) v).olen =
      (buildResult s (packetFront version deviceId payload) v).out.length := by
  obtain ⟨hne, rfl⟩ := encryptToHex_ok hp
  have htl : text.length = s.ilen := ht.1
  have hvl : version.length = s.vlen := hv.1
  have hdl : deviceId.length = s.dlen := hd.1
  simp only [buildResult, packetFront, hdr, List.length_append, toHex4_length, hexText_length, xorWithKey_length, htl,
    hvl, hdl, List.length_cons, List.length_nil]
  omega

/-- Settles O32: the operation's result is the packet. -/
theorem buildCompletesWithThePacket : Obligations.BuildCompletesWithThePacket := by
  intro s text key version deviceId ht hk hv hd hz hi hkm hvm hdm
  have hne : key.length ≠ 0 := hk.1 ▸ hz
  obtain ⟨payload, hp⟩ : ∃ payload, encryptToHex text key = .ok payload := ⟨_, encryptToHex_of_ne hne⟩
  have hl : lengthsInRange s .build = true := by simp [lengthsInRange, hi, hkm, hvm, hdm]
  have hout := complete_output (s := s) (buildResult_olen ht hv hd hp (crc16 (packetFront version deviceId payload)))
  refine ⟨_, payload, exec_of_ok hl (buildOperation_eq ht hk hv hd hp), hp, complete_endedOk s _, ?_, ?_, rfl⟩
  · rw [State.complete_crc, ← packetFront_eq]; rfl
  · rw [State.complete_crc, ← packetFront_eq]; exact hout

/-! ### The field check (42_framer.md R147, R151) -/

/-- With the right field lengths the strict mode changes nothing. -/
theorem exec_buildS_eq {s : State} (hv : s.vlen = 1) (hd : s.dlen = 16) : exec .buildS s = exec .build s := by
  have hfld : fldchk s = .ok () := if_neg (by simp [hv, hd, verLen, devLen])
  have hop : buildSOperation s = buildOperation s := by rw [buildSOperation, hfld]; rfl
  exact congrArg (runCommand .build s) hop

/-- Settles O33: with the right lengths `BUILD.S` is `BUILD`. -/
theorem buildSCompletesWithThePacket : Obligations.BuildSCompletesWithThePacket := by
  intro s text key version deviceId ht hk hv hd hz hv1 hd16 hi hkm hvm hdm
  obtain ⟨t, payload, he, hp, hok, hcrc, hout, holen⟩ :=
    buildCompletesWithThePacket s text key version deviceId ht hk hv hd hz hi hkm hvm hdm
  exact ⟨t, payload, (exec_buildS_eq hv1 hd16).trans he, hp, hok, hcrc, hout, by omega⟩

/-- Settles O34: the field check passes with the right lengths, and a success has passed it. -/
theorem buildSDiffersOnlyByTheFieldCheck : Obligations.BuildSDiffersOnlyByTheFieldCheck := by
  refine ⟨fun s => exec_buildS_eq, fun s t ht hst => ?_⟩
  obtain ⟨r, -, hf, rfl⟩ := exec_doneOk ht hst
  obtain ⟨hv, hd⟩ := hf.strict rfl
  have holen : (s.complete r).olen = 7 + s.vlen + s.dlen + 2 * s.ilen := hf.olen
  exact ⟨hv, hd, by omega⟩

/-- A command that ends with an error kind raised it in its operation, or failed the length check. -/
theorem exec_endedErr {i : Instr} {s t : State} {k : ErrKind} (ht : exec i s = .next t) (hk : t.EndedErr k) :
    (operation i s = .error (.raise k) ∧ k ∈ operationKinds i) ∨ (lengthsInRange s i = false ∧ k = .badCommand) := by
  rcases exec_cases i s with ⟨r, -, -, -, he⟩ | ⟨k', -, ho, hm, he⟩ | ⟨hl, he⟩ | ⟨x, j, -, he, -⟩ <;> rw [he] at ht <;>
    cases ht
  · exact absurd hk.err.symm k.code_ne_zero
  · obtain rfl := (raiseError_endedErr s k').2 k hk
    exact .inl ⟨ho, hm⟩
  · exact .inr ⟨hl, (raiseError_endedErr s _).2 k hk⟩

/-- Settles O41: `FLDCHK` is the first step of `BUILD.S` and no step of `BUILD`. -/
theorem strictFieldCheckComesFirst : Obligations.StrictFieldCheckComesFirst := by
  refine ⟨fun s hl hne => exec_of_raise hl ?_, fun s t hv hd ht hk => ?_, fun i h => ?_⟩
  · have hfld : fldchk s = .error (.raise .invalidField) := if_pos hne
    rw [operation, buildSOperation, hfld]
    rfl
  · rw [exec_buildS_eq hv hd] at ht
    rcases exec_endedErr ht hk with ⟨-, hm⟩ | ⟨-, hm⟩
    · exact absurd hm (by decide)
    · cases hm
  · have hbad : decode 0b00001101#8 = .error .strictWithoutBuild := by decide
    rw [hbad] at h
    cases h

end Sys2Proof.Machine
end

section
/-!
SUPPORT. `PARSE` (42_framer.md R141 to R146, R152): each step on a stored packet, the operation as a run of `parsePacket`, and
which error kinds it can raise; and the round trip of a packet (R155).
-/

namespace Sys2Proof.Machine

/-! ### The checks -/

theorem lenchk_of_short {s : State} (h : s.ilen < 26) : lenchk s = .error (.raise .tooShort) := if_pos h

theorem lenchk_of_long {s : State} (h : 26 ≤ s.ilen) : lenchk s = .ok () := if_neg (Nat.not_lt.2 h)

/-- `HDRCHK` compares the first three characters, which are all it reads (42_framer.md R143). -/
theorem hdrchk_of_stored {s : State} {str : List Chr} (h : ∀ j, j < 3 → Memory.read s.inbuf j = str[j]?)
    (hl : 3 ≤ str.length) : hdrchk s = if slice str 0 3 = hdr then .ok () else .error (.raise .badHeader) := by
  have hcmp := compareChars_of_stored (fun c => c) .badHeader 0 hdr (fun j _ hj => h j (by simpa [hdr] using hj))
    (by simpa [hdr] using hl)
  rw [List.map_id'] at hcmp
  exact hcmp

/-- `RDEV` with the characters of a device id. -/
def deviceIdVector (deviceId : List Chr) : Vector Chr 16 := Vector.ofFn fun i => deviceId.getD i.val 0

theorem deviceIdVector_toList {deviceId : List Chr} (h : deviceId.length = 16) :
    (deviceIdVector deviceId).toList = deviceId := by
  rw [deviceIdVector, Vector.toList_ofFn]
  exact List.ext_getElem (by rw [List.length_ofFn, h]) fun i _ h2 => by
    rw [List.getElem_ofFn, List.getD_eq_getElem _ _ h2]

section
variable {s : State} {packet : List Chr} (h : s.HasString .inbuf packet)
include h

/-- The checksum pass over a stored packet. -/
theorem crcPass_of_hasString :
    crcPass s (s.ilen - chkLen) 0 crcInit = .ok (crc16 (slice packet 0 (packet.length - 4))) := by
  obtain ⟨hl, hm⟩ := h
  rw [State.len_inbuf] at hl
  rw [← hl]
  exact crcPass_of_stored (packet.length - 4) 0 crcInit (fun j _ hj => hm j (by omega)) (by omega)

/-- `CSCHK` compares the folded checksum field (42_framer.md R146). -/
theorem cschk_of_hasString (hlong : 26 ≤ packet.length) (v : CrcWord) :
    cschk s v = if (slice packet (packet.length - 4) packet.length).map fold = toHex4 v then .ok ()
      else .error (.raise .checksumMismatch) := by
  obtain ⟨hl, hm⟩ := h
  rw [State.len_inbuf] at hl
  have hcmp := compareChars_of_stored (str := packet) fold .checksumMismatch (packet.length - 4) (toHex4 v)
    (fun j _ hj => hm j (by rw [toHex4_length] at hj; omega)) (by rw [toHex4_length]; omega)
  rw [toHex4_length, List.take_of_length_le (by rw [List.length_drop]; omega)] at hcmp
  rw [cschk, ← hl, chkLen, slice, List.take_length]
  exact hcmp

/-- The device id of a stored packet (42_framer.md R152 step 7). -/
theorem parseDeviceId_of_hasString (hlong : 26 ≤ packet.length) :
    parseDeviceId s = .ok (deviceIdVector (slice packet 4 20)) := by
  obtain ⟨-, hm⟩ := h
  have hread : readSpan s .inbuf 16 4 = .ok (slice packet 4 20) := by
    rw [readSpan_of_stored 16 4 (fun j _ hj => hm j (by omega)) (by omega), slice, List.drop_take]
  rw [parseDeviceId, devLen, devOff, hread]
  rfl

end

/-- The steps of a cipher pass over a hex string stored at `INBUF + base`, before what `k` does with the message, are
`decryptFromHex` (42_framer.md R152 step 6). -/
theorem decodeSteps_eq {s : State} {hex key : List Chr} {base n : Nat} (hn : hex.length = n)
    (hm : ∀ j, j < n → Memory.read s.inbuf (base + j) = hex[j]?) (hk : s.HasKey key (n / 2))
    (k : List Chr → Except Stop Result) :
    (do
      keychk s
      pairchk n
      let message ← decPass s (n / 2) base 0
      k message) = (decryptFromHex hex key).mapError .raise >>= k := by
  obtain ⟨hkl, hkm⟩ := hk
  by_cases hz : s.klen = 0
  · rw [keychk_of_eq hz, decryptFromHex_of_eq (hkl.trans hz)]; rfl
  have hne : key.length ≠ 0 := hkl ▸ hz
  rw [keychk_of_ne hz, decryptFromHex_of_ne hne]
  rcases Nat.mod_two_eq_zero_or_one n with heven | hodd
  · have hpairs : 2 * (n / 2) = hex.length := by omega
    have hpass := decPass_of_stored base hne hkl (n / 2) 0 (fun j _ hj => hm j (by omega)) (by omega)
      (fun j hj => hkm j (by omega))
    simp only [Nat.zero_mod, Nat.mul_zero, Nat.add_zero, List.drop_zero, hpairs, List.take_length, xorFrom_zero] at hpass
    rw [pairchk_of_even heven, hpass]
    cases unhexText hex <;> rfl
  · rw [pairchk_of_odd hodd, unhexText_of_odd (hn ▸ hodd)]; rfl

/-! ### The operation runs `parsePacket` -/

/-- The result of a `PARSE` of `packet` for which `parsePacket` has the value `r`. -/
def parsedResult (s : State) (packet : List Chr) (r : ParsedResult) : Result :=
  parseResult s (crc16 (slice packet 0 (packet.length - 4))) r.decryptedMessage (deviceIdVector r.deviceId)

/-- `PARSE`'s operation on a stored string and key is `parsePacket` (42_framer.md R152, 00_scope.md R15). -/
theorem parseOperation_eq {s : State} {packet key : List Chr} (h : s.HasString .inbuf packet)
    (hk : s.HasKey key ((s.ilen - 24) / 2)) :
    parseOperation s = ((parsePacket packet key).mapError .raise).map (parsedResult s packet) := by
  have hl : packet.length = s.ilen := h.1
  by_cases hshort : packet.length < 26
  · rw [parsePacket_of_short key hshort, parseOperation, lenchk_of_short (hl ▸ hshort)]; rfl
  have hlong : 26 ≤ packet.length := Nat.not_lt.1 hshort
  have hhdr := hdrchk_of_stored (s := s) (str := packet) (fun j hj => h.2 j (by omega)) (by omega)
  rw [parseOperation, lenchk_of_long (hl ▸ hlong), hhdr, crcPass_of_hasString h]
  by_cases hh : slice packet 0 3 = hdr
  swap
  · rw [parsePacket_of_header key hlong hh, if_neg hh]; rfl
  rw [if_pos hh]
  simp only [bind, Except.bind]
  rw [cschk_of_hasString h hlong]
  by_cases hc : (slice packet (packet.length - 4) packet.length).map fold =
      toHex4 (crc16 (slice packet 0 (packet.length - 4)))
  swap
  · rw [parsePacket_of_checksum key hlong hh hc, if_neg hc]; rfl
  rw [if_pos hc, parsePacket_of_framed key ⟨hlong, hh, hc⟩]
  have hpayload (j : Nat) (hj : j < s.ilen - framing) :
      Memory.read s.inbuf (payloadOff + j) = (slice packet 20 (packet.length - 4))[j]? := by
    have hj' : 20 + j < packet.length - 4 := by simp only [framing] at hj; omega
    rw [← Nat.add_sub_cancel_left (n := 20) (m := j), getElem?_slice (by omega) hj', Nat.add_sub_cancel_left]
    exact h.2 (20 + j) (by omega)
  have hlen : (slice packet 20 (packet.length - 4)).length = s.ilen - framing := by rw [payload_length, hl]; rfl
  refine (decodeSteps_eq hlen hpayload hk _).trans ?_
  rw [parseDeviceId_of_hasString h hlong]
  cases decryptFromHex (slice packet 20 (packet.length - 4)) key <;> rfl

/-- What a value of `parsePacket` has for lengths (30_encoding.md R82). -/
theorem parsePacket_ok_lengths {packet key : List Chr} {r : ParsedResult} (h : parsePacket packet key = .ok r) :
    r.deviceId.length = 16 ∧ r.decryptedMessage.length = (packet.length - 24) / 2 := by
  obtain ⟨hf, message, hm, rfl⟩ := parsePacket_ok h
  have hl := hf.long
  have hd := length_of_decryptFromHex hm
  rw [payload_length] at hd
  exact ⟨by rw [slice_length]; omega, by dsimp only; omega⟩

/-- Settles O36: the operation is the function on every stored string, its errors included. -/
theorem parseFollowsParsePacket : Obligations.ParseFollowsParsePacket := by
  intro s packet key h hk hi hkm
  have hlen : packet.length = s.ilen := h.1
  have hl : lengthsInRange s .parse = true := by simp [lengthsInRange, hi, hkm]
  have hop := parseOperation_eq h hk
  cases hf : parsePacket packet key with
  | ok r =>
    rw [hf] at hop
    obtain ⟨hdev, hmsg⟩ := parsePacket_ok_lengths hf
    have holen : (parsedResult s packet r).olen = (parsedResult s packet r).out.length := by
      rw [hlen] at hmsg; exact hmsg.symm
    refine ⟨_, exec_of_ok (i := .parse) hl hop, ?_, nofun⟩
    rintro _ ⟨⟩
    exact ⟨complete_endedOk s _, complete_output holen, deviceIdVector_toList hdev, by rw [← hlen]; rfl⟩
  | error k =>
    rw [hf] at hop
    obtain ⟨t, he, hend⟩ := exec_of_raise (i := .parse) hl hop
    exact ⟨t, he, nofun, by rintro _ ⟨⟩; exact hend⟩

/-- Settles O35: `parsePacket` has a value for a packet that passes every check, and `PARSE` follows it. -/
theorem parseCompletesOnAGoodPacket : Obligations.ParseCompletesOnAGoodPacket := by
  intro s packet key h hk hz hi hkm hlong hh hc heven hv
  have hlen : packet.length = s.ilen := h.1
  have hne : key.length ≠ 0 := hk.1 ▸ hz
  obtain ⟨t, he, hends, -⟩ := parseFollowsParsePacket s packet key h hk hi hkm
  rw [← hlen] at hlong hc heven hv hends ⊢
  obtain ⟨message, hm, hr, hml⟩ := parsePacket_of_digits ⟨hlong, hh, hc⟩ hne heven hv
  obtain ⟨hok, hout, hdev, hcrc⟩ := hends _ hr
  exact ⟨t, message, he, hok, hm, hout, hout.olen.trans hml, hdev, hcrc⟩

/-! ### The checks that come first (42_framer.md R141, R143) -/

/-- Settles O43: `HDRCHK` stands behind the length check only, and reads the header only. -/
theorem wrongHeaderIsBadHeader : Obligations.WrongHeaderIsBadHeader := by
  intro s a b c hl hlong ha hb hc hne
  have hstored (j : Nat) (hj : j < 3) : Memory.read s.inbuf j = [a, b, c][j]? := by
    match j, hj with
    | 0, _ => exact ha
    | 1, _ => exact hb
    | 2, _ => exact hc
  have hhdr : slice [a, b, c] 0 3 ≠ hdr := by
    intro h
    obtain ⟨rfl, rfl, rfl⟩ : a = 0x57 ∧ b = 0x49 ∧ c = 0x4D := by simpa [slice, hdr] using h
    simp at hne
  refine exec_of_raise hl ?_
  rw [operation, parseOperation, lenchk_of_long hlong, hdrchk_of_stored hstored (Nat.le_refl 3), if_neg hhdr]
  rfl

/-- An error entry of a computation, if it takes one, is of one of the kinds `ks`. -/
def OnlyRaises {α : Type} (ks : List ErrKind) (x : Except Stop α) : Prop := ∀ k, x = .error (.raise k) → k ∈ ks

theorem OnlyRaises.ok {α : Type} (ks : List ErrKind) (a : α) : OnlyRaises ks (.ok a) := nofun

theorem OnlyRaises.fault {α : Type} (ks : List ErrKind) (f : Fault) :
    OnlyRaises ks (.error (.fault f) : Except Stop α) := nofun

theorem OnlyRaises.raise {α : Type} {ks : List ErrKind} {k : ErrKind} (h : k ∈ ks) :
    OnlyRaises ks (.error (.raise k) : Except Stop α) := by rintro _ ⟨⟩; exact h

/-- Two moves raise what either of them raises. -/
theorem OnlyRaises.bind {α β : Type} {ks : List ErrKind} {x : Except Stop α} {f : α → Except Stop β} (hx : OnlyRaises ks x)
    (hf : ∀ a, x = .ok a → OnlyRaises ks (f a)) : OnlyRaises ks (x >>= f) := by
  cases x with
  | ok a => exact hf a rfl
  | error e =>
    intro k h
    cases h
    exact hx k rfl

section
variable (s : State) (ks : List ErrKind)

theorem readChar_onlyRaises (x : Space) (i : Nat) : OnlyRaises ks (s.readChar x i) := by
  rcases State.readChar_cases s x i with ⟨c, -, h⟩ | ⟨-, h⟩ <;> rw [h]
  · exact .ok ks c
  · exact .fault ks _

theorem crcPass_onlyRaises (n i : Nat) (x : CrcWord) : OnlyRaises ks (crcPass s n i x) := by
  rcases crcPass_cases s n i x with ⟨v, h⟩ | ⟨j, h, -⟩ <;> rw [h]
  · exact .ok ks v
  · exact .fault ks _

theorem parseDeviceId_onlyRaises : OnlyRaises ks (parseDeviceId s) := by
  unfold parseDeviceId
  rcases readSpan_cases s .inbuf devLen devOff with ⟨d, h, -⟩ | ⟨j, h, -⟩ <;> rw [h]
  · exact .ok ks _
  · exact .fault ks _

variable {ks}

theorem compareChars_onlyRaises (f : Chr → Chr) {k : ErrKind} (hk : k ∈ ks) (i : Nat) (es : List Chr) :
    OnlyRaises ks (compareChars s f k i es) := by
  rcases compareChars_cases s f k i es with h | h | ⟨j, h, -⟩ <;> rw [h]
  · exact .ok ks ()
  · exact .raise hk
  · exact .fault ks _

theorem keychk_onlyRaises (hk : .invalidKey ∈ ks) : OnlyRaises ks (keychk s) := by
  rcases keychk_cases s with ⟨-, h⟩ | ⟨-, h⟩ <;> rw [h]
  · exact .ok ks ()
  · exact .raise hk

theorem pairchk_onlyRaises (hk : .malformedInput ∈ ks) (n : Nat) : OnlyRaises ks (pairchk n) := by
  rcases pairchk_cases n with ⟨-, h⟩ | ⟨-, h⟩ <;> rw [h]
  · exact .ok ks ()
  · exact .raise hk

theorem decPass_onlyRaises (hk : .malformedInput ∈ ks) (n p : Nat) {kidx : Nat} (hlt : kidx < s.klen) :
    OnlyRaises ks (decPass s n p kidx) := by
  rcases decPass_cases s n p kidx hlt with ⟨out, h, -⟩ | h | ⟨x, j, h, -⟩ <;> rw [h]
  · exact .ok ks out
  · exact .raise hk
  · exact .fault ks _

theorem hdrchk_onlyRaises (hk : .badHeader ∈ ks) : OnlyRaises ks (hdrchk s) := compareChars_onlyRaises s _ hk _ _

theorem cschk_onlyRaises (hk : .checksumMismatch ∈ ks) (v : CrcWord) : OnlyRaises ks (cschk s v) :=
  compareChars_onlyRaises s _ hk _ _

/-- A `PARSE` that passes `LENCHK` raises what its later checks and its cipher pass raise. -/
theorem parseOperation_onlyRaises (hlong : 26 ≤ s.ilen) :
    OnlyRaises [.badHeader, .checksumMismatch, .invalidKey, .malformedInput] (parseOperation s) := by
  rw [parseOperation, lenchk_of_long hlong]
  refine .bind (.ok _ ()) fun _ _ => ?_
  refine .bind (hdrchk_onlyRaises s (by decide)) fun _ _ => ?_
  refine .bind (crcPass_onlyRaises s _ _ _ _) fun v _ => ?_
  refine .bind (cschk_onlyRaises s (by decide) v) fun _ _ => ?_
  refine .bind (keychk_onlyRaises s (by decide)) fun _ hk => ?_
  refine .bind (pairchk_onlyRaises (by decide) _) fun _ _ => ?_
  refine .bind (decPass_onlyRaises s (by decide) _ _ (Nat.pos_of_ne_zero (klen_ne_zero_of_keychk hk))) fun m _ => ?_
  exact .bind (parseDeviceId_onlyRaises s _) fun d _ => .ok _ _

end

/-- Settles O42: `LENCHK` is the first step of `PARSE`, and no later one raises `TooShort`. -/
theorem shortPacketIsTooShort : Obligations.ShortPacketIsTooShort := by
  refine fun s hl => ⟨fun hshort => exec_of_raise hl ?_, fun hlong t ht hk => ?_⟩
  · rw [operation, parseOperation, lenchk_of_short hshort]; rfl
  · rcases exec_endedErr ht hk with ⟨ho, -⟩ | ⟨-, hbad⟩
    · exact absurd (parseOperation_onlyRaises s hlong _ ho) (by decide)
    · cases hbad

/-! ### The round trip of a packet (42_framer.md R155) -/

/-- `decryptFromHex` undoes `encryptToHex` (40_cipher.md R113). -/
theorem decryptFromHex_of_encryptToHex {text key hex : List Chr} (h : encryptToHex text key = .ok hex) :
    decryptFromHex hex key = .ok text := by
  obtain ⟨hk, rfl⟩ := encryptToHex_ok h
  rw [decryptFromHex_of_ne hk, unhexText_hexText]
  exact congrArg Except.ok (xorWithKey_xorWithKey text key hk)

theorem length_of_encryptToHex {text key hex : List Chr} (h : encryptToHex text key = .ok hex) :
    hex.length = 2 * text.length := length_of_decryptFromHex (decryptFromHex_of_encryptToHex h)

section
variable {version deviceId payload text key : List Chr} (hv : version.length = 1) (hd : deviceId.length = 16)
  (ht : text ≠ []) (hp : encryptToHex text key = .ok payload) {front packet : List Chr}
  (hfront : front = packetFront version deviceId payload) (hpacket : packet = front ++ toHex4 (crc16 front))

include hpacket in
/-- The slice under the checksum of a packet that ends with its checksum, and the checksum field. -/
theorem slice_of_checksummed : slice packet 0 (packet.length - 4) = front ∧
    slice packet (packet.length - 4) packet.length = toHex4 (crc16 front) := by
  have hlen : packet.length = front.length + 4 := by rw [hpacket, List.length_append, toHex4_length]
  exact ⟨slice_of_append (pre := []) hpacket rfl (by omega),
    slice_of_append (post := []) (hpacket.trans (List.append_nil _).symm) (by omega) (by rw [toHex4_length]; omega)⟩

include hv hd ht hp hfront hpacket

/-- The packet `BUILD` makes passes the checks. -/
theorem framed_of_built : Framed packet := by
  obtain ⟨hwhole, hfield⟩ := slice_of_checksummed hpacket
  have hpl := length_of_encryptToHex hp
  have hpos : 0 < text.length := List.length_pos_of_ne_nil ht
  refine ⟨?_, ?_, by rw [hwhole, hfield, map_fold_toHex4]⟩
  · rw [hpacket, hfront]
    simp only [packetFront, hdr, List.length_append, toHex4_length, List.length_cons, List.length_nil, hv, hd, hpl]
    omega
  · exact slice_of_append (pre := []) (post := version ++ deviceId ++ payload ++ toHex4 (crc16 front))
      (by rw [hpacket, hfront, packetFront]; simp only [List.append_assoc, List.nil_append]) rfl rfl

/-- `parsePacket` takes back what `BUILD` makes of a version of one character, a device id of 16 and a non-empty text. -/
theorem parsePacket_of_built : parsePacket packet key = .ok { deviceId := deviceId, decryptedMessage := text } := by
  have hpl := length_of_encryptToHex hp
  have hlen : packet.length - 4 = 20 + payload.length := by
    rw [hpacket, hfront]
    simp only [packetFront, hdr, List.length_append, toHex4_length, List.length_cons, List.length_nil, hv, hd]
    omega
  have hparts : packet = hdr ++ version ++ deviceId ++ payload ++ toHex4 (crc16 front) := by
    rw [hpacket]; exact congrArg (· ++ _) hfront
  have hdev : slice packet 4 20 = deviceId :=
    slice_of_append (post := payload ++ toHex4 (crc16 front)) (by rw [hparts, List.append_assoc])
      (by rw [List.length_append, hv]; rfl) (by rw [hd])
  have hpay : slice packet 20 (packet.length - 4) = payload :=
    slice_of_append hparts (by rw [List.length_append, List.length_append, hv, hd]; rfl) hlen
  rw [parsePacket_of_framed key (framed_of_built hv hd ht hp hfront hpacket), hpay, hdev,
    decryptFromHex_of_encryptToHex hp]
  rfl

end

/-- A state has one result. -/
theorem State.Output.unique {t : State} {a b : List Chr} (ha : t.Output a) (hb : t.Output b) : a = b := by
  have hlen : a.length = b.length := ha.olen.symm.trans hb.olen
  refine List.ext_getElem? fun i => ?_
  rcases Nat.lt_or_ge i a.length with h | h
  · rw [← ha.outbuf i h, hb.outbuf i (hlen ▸ h)]
  · rw [List.getElem?_eq_none h, List.getElem?_eq_none (hlen ▸ h)]

/-- A stored key serves any number of positions. -/
theorem State.HasString.hasKey {s : State} {key : List Chr} (h : s.HasString .keymem key) (n : Nat) : s.HasKey key n :=
  ⟨h.1, fun i _ hi => h.2 i hi⟩

/-- Settles O51: `BUILD` leaves the packet, `parsePacket` takes it back, and `PARSE` follows `parsePacket`. -/
theorem packetRoundTrip : Obligations.PacketRoundTrip := by
  intro s t u text key version deviceId packet htext hkey hver hdev hz hi hv1 hd16 hl he hout hpacket hukey hul
  simp only [lengthsInRange, Bool.and_eq_true, decide_eq_true_eq] at hl hul
  obtain ⟨⟨⟨hil, hkl⟩, hvl⟩, hdl⟩ := hl
  obtain ⟨huil, hukl⟩ := hul
  obtain ⟨t', payload, he', hp, -, hcrc, hout', -⟩ := buildCompletesWithThePacket s text key version deviceId htext
    (hkey.hasKey _) hver hdev hz hil hkl hvl hdl
  obtain rfl : t' = t := by rw [he] at he'; cases he'; rfl
  rw [← packetFront_eq] at hcrc hout'
  have hbuilt := hout.unique hout'
  rw [hcrc] at hbuilt
  have hne : text ≠ [] := fun h => hi (by rw [← State.len_inbuf, ← htext.1, h]; rfl)
  have hparse := parsePacket_of_built (hver.1.trans hv1) (hdev.1.trans hd16) hne hp rfl hbuilt
  obtain ⟨v, hev, hends, -⟩ := parseFollowsParsePacket u packet key hpacket (hukey.hasKey _) huil hukl
  obtain ⟨hok, hvout, hrdev, hvcrc⟩ := hends _ hparse
  have hlen : packet.length = u.ilen := hpacket.1
  rw [← hlen, (slice_of_checksummed hbuilt).1, ← hcrc] at hvcrc
  exact ⟨v, hev, hok, hvout, hrdev, hvcrc⟩

end Sys2Proof.Machine
end

section
/-!
SUPPORT. The transitions of the sequencer (42_framer.md R153): where a tick at each of its steps can leave `SEQ`, its error
entry included.
-/

namespace Sys2Proof.Machine

/-- Where a tick at sequencer step `q` can leave `SEQ`: still at `q` in a loop, at the steps that follow, and at `idle` after
the command's end or, where the step validates, its error entry. -/
def seqTargets : Seq → List Seq
  | .idle => [.idle]
  | .start => [.xenc, .xdec, .crc16, .b0, .b1, .p1, .idle]
  | .xenc => [.xenc, .idle]
  | .xdec => [.xdec, .idle]
  | .crc16 => [.crc16, .idle]
  | .b0 => [.b1, .idle]
  | .b1 => [.b2, .idle]
  | .b2 => [.b2, .b3]
  | .b3 => [.b3, .b4]
  | .b4 => [.idle]
  | .p1 => [.p2, .idle]
  | .p2 => [.p3]
  | .p3 => [.p4, .idle]
  | .p4 => [.p5]
  | .p5 => [.p5, .p6, .idle]
  | .p6 => [.p6, .p7, .idle]
  | .p7 => [.idle]

/-- A tick that answers `x` leaves `SEQ` in one of `qs`; the error entry leaves it `idle` (60_exceptions.md R200). -/
def LeadsTo (qs : List Seq) : Except Stop State → Prop
  | .ok t => t.seq ∈ qs
  | .error (.raise _) => .idle ∈ qs
  | .error (.fault _) => True

theorem LeadsTo.tick {qs : List Seq} {s t : State} (h : LeadsTo qs (tickBody s)) (ht : tick s = .next t) : t.seq ∈ qs := by
  unfold Machine.tick at ht
  split at ht
  · next hb => cases ht; rw [hb] at h; exact h
  · next hb => cases ht; rw [hb] at h; exact h
  · cases ht

theorem LeadsTo.raise {qs : List Seq} (k : ErrKind) (hi : .idle ∈ qs) : LeadsTo qs (.error (.raise k)) := hi

theorem LeadsTo.enter {qs : List Seq} (s : State) {q : Seq} (hq : q ∈ qs) : LeadsTo qs (.ok (enter s q)) := hq

theorem LeadsTo.enterCrc {qs : List Seq} (s : State) {q : Seq} (hq : q ∈ qs) : LeadsTo qs (.ok (enterCrc s q)) := hq

theorem LeadsTo.microDone {qs : List Seq} (s : State) (olen : Nat) (csok : Bool) (hi : .idle ∈ qs) :
    LeadsTo qs (.ok (microDone s olen csok)) := hi

section
variable {α : Type} {qs : List Seq} {x : Except Stop α} {f : α → Except Stop State}

/-- A move that cannot raise, and then the rest. -/
theorem LeadsTo.quiet (hx : OnlyRaises [] x) (hf : ∀ a, x = .ok a → LeadsTo qs (f a)) : LeadsTo qs (x >>= f) := by
  cases x with
  | ok a => exact hf a rfl
  | error e =>
    cases e with
    | raise k => exact absurd (hx k rfl) List.not_mem_nil
    | fault g => trivial

/-- A move that may raise, where the error entry is allowed, and then the rest. -/
theorem LeadsTo.check (hi : .idle ∈ qs) (hf : ∀ a, x = .ok a → LeadsTo qs (f a)) : LeadsTo qs (x >>= f) := by
  cases x with
  | ok a => exact hf a rfl
  | error e =>
    cases e with
    | raise k => exact hi
    | fault g => trivial

end

/-! ### The units' steps leave `SEQ` as it is -/

section
variable {qs : List Seq} {s : State} (h : s.seq ∈ qs)

theorem encStep_onlyRaises (s : State) (i o : Nat) : OnlyRaises [] (encStep s i o) :=
  .bind (readChar_onlyRaises s _ _ _) fun _ _ => .bind (readChar_onlyRaises s _ _ _) fun _ _ => .ok _ _

include h

/-- A tick that makes an encode step and moves on. -/
theorem encStep_leadsTo (i o p : Nat) : LeadsTo qs (do let t ← encStep s i o; return { t with pos := p }) := by
  refine .quiet (encStep_onlyRaises s i o) fun t ht => ?_
  obtain ⟨d, m, rfl⟩ := encStep_ok ht
  exact h

/-- A tick that makes a decode step and moves on; a character that is no digit is an error. -/
theorem decStep_leadsTo (hi : .idle ∈ qs) (i o p : Nat) :
    LeadsTo qs (do let t ← decStep s i o; return { t with pos := p }) := by
  refine .check hi fun t ht => ?_
  obtain ⟨d, m, rfl⟩ := decStep_ok ht
  exact h

theorem crcStep_leadsTo (x : Space) : LeadsTo qs (crcStep s x) := by
  unfold crcStep
  split
  · exact .quiet (readChar_onlyRaises s _ _ _) fun _ _ => h
  · exact h

theorem assembleStep_leadsTo : LeadsTo qs (assembleStep s) := by
  unfold assembleStep
  split_ifs
  · exact h
  · exact .quiet (readChar_onlyRaises s _ _ _) fun _ _ => h
  · exact .quiet (readChar_onlyRaises s _ _ _) fun _ _ => h
  · exact encStep_leadsTo h _ _ _

end

/-- Every command's first step follows `start`. -/
theorem enterCommand_leadsTo (s : State) (i : Instr) : LeadsTo (seqTargets .start) (.ok (enterCommand s i)) := by
  cases i with
  | crc16 => exact .enterCrc s (by decide)
  | xenc | xdec | build | buildS | parse => exact .enter s (by decide)

/-- A tick at each step of the sequencer leaves `SEQ` at one of the step's targets. -/
theorem tickBody_leadsTo (s : State) : LeadsTo (seqTargets s.seq) (tickBody s) := by
  cases hq : s.seq with
  | idle =>
    simp only [tickBody, hq]
    exact List.mem_singleton.2 hq
  | start =>
    simp only [tickBody, hq]
    split
    · exact .raise _ (by decide)
    · split
      · exact enterCommand_leadsTo s _
      · exact .raise _ (by decide)
  | xenc =>
    simp only [tickBody, hq]
    refine .check (by decide) fun _ _ => ?_
    split
    · exact encStep_leadsTo (by rw [hq]; decide) _ _ _
    · exact .microDone _ _ _ (by decide)
  | xdec =>
    simp only [tickBody, hq]
    refine .check (by decide) fun _ _ => .check (by decide) fun _ _ => ?_
    split
    · exact decStep_leadsTo (by rw [hq]; decide) (by decide) _ _ _
    · exact .microDone _ _ _ (by decide)
  | p6 =>
    simp only [tickBody, hq]
    refine .check (by decide) fun _ _ => .check (by decide) fun _ _ => ?_
    split
    · exact decStep_leadsTo (by rw [hq]; decide) (by decide) _ _ _
    · exact .enter _ (by decide)
  | crc16 =>
    simp only [tickBody, hq]
    split
    · exact crcStep_leadsTo (by rw [hq]; decide) _
    · exact .microDone _ _ _ (by decide)
  | b3 =>
    simp only [tickBody, hq]
    split
    · exact crcStep_leadsTo (by rw [hq]; decide) _
    · exact .enter _ (by decide)
  | p5 =>
    simp only [tickBody, hq]
    split
    · exact crcStep_leadsTo (by rw [hq]; decide) _
    · exact .check (by decide) fun _ _ => .enter _ (by decide)
  | b2 =>
    simp only [tickBody, hq]
    split
    · exact assembleStep_leadsTo (by rw [hq]; decide)
    · exact .enterCrc _ (by decide)
  | b0 | b1 | p1 | p3 =>
    simp only [tickBody, hq]
    exact .check (by decide) fun _ _ => .enter _ (by decide)
  | p7 =>
    simp only [tickBody, hq]
    exact .quiet (parseDeviceId_onlyRaises s _) fun _ _ => .microDone _ _ _ (by decide)
  | b4 =>
    simp only [tickBody, hq]
    exact .microDone _ _ _ (by decide)
  | p2 =>
    simp only [tickBody, hq]
    exact .enter _ (by decide)
  | p4 =>
    simp only [tickBody, hq]
    exact .enterCrc _ (by decide)

/-- Settles O57: but for staying in a loop, the targets of each step are the listed transitions. -/
theorem sequencerMovesForwardOnly : Obligations.SequencerMovesForwardOnly := by
  intro s t ht
  have hmem := (tickBody_leadsTo s).tick ht
  revert hmem
  generalize s.seq = q
  generalize t.seq = q'
  revert q'
  cases q <;> decide

end Sys2Proof.Machine
end

section
/-!
SUPPORT. The command interface (43_command_interface.md): the start of a command and the engine's move, host accesses while
`BUSY`, the length-range check, how a command ends, on what its outcome depends, and the reads of results.
-/

namespace Sys2Proof.Machine

/-! ### The engine's move and the start of a command (R171 to R173) -/

theorem engineStep_of_decode {s : State} {i : Instr} (h : decode s.cmd = .ok i) : engineStep s = exec i s := by
  simp only [engineStep, State.commandWord, h]

/-- The engine ends a command whose word is no command's with `BadCommand` (R173). -/
theorem engineStep_of_illegal {s : State} (h : ∀ i, s.cmd ≠ encode i) : engineStep s = .next (s.raiseError .badCommand) := by
  cases hd : decode s.cmd with
  | ok i => exact absurd (encode_of_decode hd).symm (h i)
  | error e => simp only [engineStep, State.commandWord, hd]

/-- Settles O4: at its move the engine decodes `CMD`. -/
theorem stepRunsTheDecodedCommand : Obligations.StepRunsTheDecodedCommand := fun _ _ hb hd hm =>
  (step_engine hb hm).trans (engineStep_of_decode hd)

/-- Settles O5: the engine takes the error entry, which keeps the operands. -/
theorem illegalWordEndsWithBadCommand : Obligations.IllegalWordEndsWithBadCommand := by
  intro s hb hill hm
  obtain ⟨hend, -⟩ := raiseError_endedErr s .badCommand
  exact ⟨_, (step_engine hb hm).trans (engineStep_of_illegal hill), hend, raiseError_sameOperands s .badCommand⟩

/-- A `CMD` write while no command runs starts one (R171). -/
theorem writeRegister_cmd {s : State} (hb : s.busy = false) (v : Nat) :
    s.writeRegister 0 v = s.startCommand (BitVec.ofNat 8 v) := by
  simp [State.writeRegister, hb, regCmd]

/-- The step that serves a `CMD` write. -/
theorem step_starts {s : State} {v : Nat} {rest : List Input} (hb : s.busy = false) (hi : s.inputs = .hwr 0 v :: rest) :
    step s = .next (State.startCommand { s with inputs := rest } (BitVec.ofNat 8 v)) :=
  (step_free hb hi).trans (congrArg _ (writeRegister_cmd (s := { s with inputs := rest }) hb v))

/-- Settles O6: the write is served, and starts a command. -/
theorem commandWriteStartsACommand : Obligations.CommandWriteStartsACommand := by
  intro s v rest hb hi
  exact ⟨_, step_starts hb hi, rfl, rfl, rfl, rfl, rfl, rfl, rfl, rfl, rfl, rfl, rfl, rfl, rfl, rfl, rfl, rfl⟩

/-- Settles O7: the write starts the command, and the pending `WAIT` makes the next move the engine's. -/
theorem startThenWaitRunsTheCommand : Obligations.StartThenWaitRunsTheCommand := by
  intro s i rest hb hi
  have hword : BitVec.ofNat 8 (encode i).toNat = encode i := by simp
  have hstart : step s = .next (State.startCommand { s with inputs := .wait :: rest } (encode i)) :=
    hword ▸ step_starts hb hi
  have hrun := stepRunsTheDecodedCommand _ i (State.startCommand_busy { s with inputs := .wait :: rest } (encode i))
    (decode_encode i) (.inr (.inr rfl))
  exact ⟨_, hstart, rfl, hrun, rfl, rfl, rfl, rfl, rfl, rfl, rfl, rfl⟩

/-! ### Host accesses while `BUSY` (R178) -/

theorem writeRegister_busy {s : State} (hb : s.busy = true) (n v : Nat) : s.writeRegister n v = s := if_pos hb

theorem writeCharacter_busy {s : State} (hb : s.busy = true) (x : Space) (i : Nat) (v : Chr) : s.writeCharacter x i v = s :=
  if_pos hb

/-- `STATUS` is its two fields (10_state.md R29). -/
theorem State.status_eq (s : State) : s.status = statusWord s.csok s.st :=
  (show ∀ w : BitVec 3, w = statusWord (w.getLsbD 2) (w.extractLsb' 0 2) by decide) s.status

/-- While a command runs `CSOK` is 0 (10_state.md R29). -/
theorem State.Inv.status_of_busy {s : State} (h : s.Inv) (hb : s.busy = true) : s.status = statusWord false stBusy := by
  have hst := s.busy_iff.1 hb
  have hcsok : s.csok = false := by
    rw [Bool.eq_false_iff]
    intro hc
    obtain ⟨hok, -⟩ := h.csok.1 hc
    exact absurd (hst.symm.trans hok) (by decide)
  rw [s.status_eq, hcsok, hst]

/-- Settles O8: the access is served, a write leaves the state it meets, and a `STATUS` read returns its two fields. -/
theorem hostAccessesWhileBusy : Obligations.HostAccessesWhileBusy := by
  intro s a rest n hb hn hi
  constructor
  · have hb' : State.busy { s with inputs := rest, busyLeft := n } = true := hb
    rintro (⟨r, v, rfl⟩ | ⟨x, i, v, rfl⟩)
    · exact (step_busy hb hn hi nofun).trans (congrArg _ (writeRegister_busy hb' r v))
    · exact (step_busy hb hn hi nofun).trans (congrArg _ (writeCharacter_busy hb' x i v))
  · rintro hinv rfl
    exact ⟨_, step_busy hb hn hi nofun, congrArg BitVec.toNat (hinv.status_of_busy hb)⟩

/-! ### The length-range check (R174) -/

/-- The check fails exactly where a length the command uses is above its capacity. -/
theorem lengthsInRange_eq_false_iff (s : State) (i : Instr) :
    lengthsInRange s i = false ↔
      s.caps.inMax < s.ilen ∨ (i ≠ .crc16 ∧ s.caps.keyMax < s.klen) ∨
        ((i = .build ∨ i = .buildS) ∧ (s.caps.verMax < s.vlen ∨ s.caps.devMax < s.dlen)) := by
  cases i <;> simp [lengthsInRange] <;> omega

/-- A command whose length check fails ends with `BadCommand` before its operation. -/
theorem exec_of_outOfRange {i : Instr} {s : State} (h : lengthsInRange s i = false) :
    exec i s = .next (s.raiseError .badCommand) := by
  simp [exec_eq, runCommand, h]

theorem ErrKind.code_eq_seven {k : ErrKind} (h : k.code = 7) : k = .badCommand :=
  ErrKind.code_injective (k' := .badCommand) h

/-- No operation raises `BadCommand` itself (60_exceptions.md R198). -/
theorem badCommand_notMem_operationKinds (i : Instr) : .badCommand ∉ operationKinds i := by cases i <;> decide

/-- Settles O38: a length out of range is the one way in which `exec` reports `BadCommand`. -/
theorem lengthRangeCheckComesFirst : Obligations.LengthRangeCheckComesFirst := by
  intro s i
  rw [← lengthsInRange_eq_false_iff]
  constructor
  · intro hl
    obtain ⟨hend, -⟩ := raiseError_endedErr s .badCommand
    exact ⟨_, exec_of_outOfRange hl, hend⟩
  · intro hl t ht herr
    rcases exec_cases i s with ⟨r, -, -, -, he⟩ | ⟨k, -, -, hk, he⟩ | ⟨hf, -⟩ | ⟨x, j, -, he, -⟩
    · cases he.symm.trans ht
      exact absurd herr (by simp)
    · cases he.symm.trans ht
      exact badCommand_notMem_operationKinds i (ErrKind.code_eq_seven herr ▸ hk)
    · exact hl hf
    · cases he.symm.trans ht

/-! ### Completion (R182) -/

/-- Settles O49: of what a command can do only the fault is no end, and it needs an unwritten declared character. -/
theorem writtenOperandsAlwaysComplete : Obligations.WrittenOperandsAlwaysComplete := by
  intro i s hw
  rcases exec_cases i s with ⟨r, -, -, -, he⟩ | ⟨k, -, -, -, he⟩ | ⟨-, he⟩ | ⟨x, j, -, -, hr, hx, hj⟩
  · exact ⟨_, he, .inl (State.complete_st s r)⟩
  · exact ⟨_, he, .inr (State.raiseError_st s k)⟩
  · exact ⟨_, he, .inr (State.raiseError_st s .badCommand)⟩
  · exact absurd (hw x hx j hj) (by simp [hr])

/-! ### On what the outcome of a command depends (R175, 10_state.md R36, 20_memory.md R55) -/

/-- Two states have the same capacities, lengths and declared operand characters. -/
structure State.SameDeclared (s t : State) : Prop where
  caps : s.caps = t.caps
  klen : s.klen = t.klen
  ilen : s.ilen = t.ilen
  vlen : s.vlen = t.vlen
  dlen : s.dlen = t.dlen
  char : ∀ x j, x ≠ .outbuf → j < s.len x → Memory.read (s.buf x) j = Memory.read (t.buf x) j

/-- Two computations that begin alike and go on alike from what the beginning answers are the same. -/
theorem bind_congr_of_ok {α β : Type} {x y : Except Stop α} {f g : α → Except Stop β} (hx : x = y)
    (h : ∀ a, x = .ok a → f a = g a) : x >>= f = y >>= g := by
  subst hx
  cases x with
  | error e => rfl
  | ok a => exact h a rfl

section
variable {s t : State} (h : s.SameDeclared t)
include h

theorem State.SameDeclared.readChar_eq {x : Space} {j : Nat} (hx : x ≠ .outbuf) (hj : j < s.len x) :
    s.readChar x j = t.readChar x j := by
  rw [State.readChar, State.readChar, h.char x j hx hj]

theorem State.SameDeclared.encPass_eq {n i kidx : Nat} (hi : i + n ≤ s.ilen) (hk : kidx < s.klen) :
    encPass s n i kidx = encPass t n i kidx := by
  induction n generalizing i kidx with
  | zero => rfl
  | succ n ih =>
    refine bind_congr_of_ok (h.readChar_eq nofun (show i < s.ilen by omega)) fun c _ =>
      bind_congr_of_ok (h.readChar_eq nofun hk) fun k _ => bind_congr_of_ok ?_ fun _ _ => rfl
    rw [← h.klen]
    exact ih (by omega) (nextKidx_lt hk)

theorem State.SameDeclared.decPass_eq {n p kidx : Nat} (hp : p + 2 * n ≤ s.ilen) (hk : kidx < s.klen) :
    decPass s n p kidx = decPass t n p kidx := by
  induction n generalizing p kidx with
  | zero => rfl
  | succ n ih =>
    refine bind_congr_of_ok (h.readChar_eq nofun (show p < s.ilen by omega)) fun c0 _ =>
      bind_congr_of_ok (h.readChar_eq nofun (show p + 1 < s.ilen by omega)) fun c1 _ => bind_congr_of_ok rfl fun b _ =>
      bind_congr_of_ok (h.readChar_eq nofun hk) fun k _ => bind_congr_of_ok ?_ fun _ _ => rfl
    rw [← h.klen]
    exact ih (by omega) (nextKidx_lt hk)

theorem State.SameDeclared.crcPass_eq {n i : Nat} (x : CrcWord) (hi : i + n ≤ s.ilen) :
    crcPass s n i x = crcPass t n i x := by
  induction n generalizing i x with
  | zero => rfl
  | succ n ih =>
    exact bind_congr_of_ok (h.readChar_eq nofun (show i < s.ilen by omega)) fun c _ => ih _ (by omega)

theorem State.SameDeclared.readSpan_eq {x : Space} {n i : Nat} (hx : x ≠ .outbuf) (hi : i + n ≤ s.len x) :
    readSpan s x n i = readSpan t x n i := by
  induction n generalizing i with
  | zero => rfl
  | succ n ih =>
    exact bind_congr_of_ok (h.readChar_eq hx (by omega)) fun c _ => bind_congr_of_ok (ih (by omega)) fun _ _ => rfl

theorem State.SameDeclared.compareChars_eq (f : Chr → Chr) (k : ErrKind) {i : Nat} {es : List Chr}
    (hi : i + es.length ≤ s.ilen) :
    compareChars s f k i es = compareChars t f k i es := by
  induction es generalizing i with
  | nil => rfl
  | cons e es ih =>
    rw [List.length_cons] at hi
    refine bind_congr_of_ok (h.readChar_eq nofun (show i < s.ilen by omega)) fun c _ => ?_
    rw [ih (by omega)]

theorem State.SameDeclared.keychk_eq : keychk s = keychk t := by rw [keychk, keychk, h.klen]

theorem State.SameDeclared.lengthsInRange_eq (i : Instr) : lengthsInRange s i = lengthsInRange t i := by
  cases i <;> simp only [lengthsInRange, h.caps, h.klen, h.ilen, h.vlen, h.dlen]

theorem State.SameDeclared.xencOperation_eq : xencOperation s = xencOperation t := by
  simp only [xencOperation, ← h.ilen]
  refine bind_congr_of_ok h.keychk_eq fun _ hk => ?_
  have hpos := Nat.pos_of_ne_zero (klen_ne_zero_of_keychk hk)
  exact bind_congr_of_ok (h.encPass_eq (by omega) hpos) fun _ _ => rfl

theorem State.SameDeclared.xdecOperation_eq : xdecOperation s = xdecOperation t := by
  simp only [xdecOperation, ← h.ilen]
  refine bind_congr_of_ok h.keychk_eq fun _ hk => bind_congr_of_ok rfl fun _ _ => ?_
  have hpos := Nat.pos_of_ne_zero (klen_ne_zero_of_keychk hk)
  exact bind_congr_of_ok (h.decPass_eq (by omega) hpos) fun _ _ => rfl

theorem State.SameDeclared.crc16Operation_eq : crc16Operation s = crc16Operation t := by
  simp only [crc16Operation, ← h.ilen]
  exact bind_congr_of_ok (h.crcPass_eq _ (by omega)) fun _ _ => rfl

theorem State.SameDeclared.buildOperation_eq : buildOperation s = buildOperation t := by
  simp only [buildOperation, ← h.ilen, ← h.vlen, ← h.dlen]
  refine bind_congr_of_ok h.keychk_eq fun _ hk => ?_
  have hpos := Nat.pos_of_ne_zero (klen_ne_zero_of_keychk hk)
  exact bind_congr_of_ok (h.readSpan_eq nofun (Nat.zero_add _).le) fun _ _ =>
    bind_congr_of_ok (h.readSpan_eq nofun (Nat.zero_add _).le) fun _ _ =>
    bind_congr_of_ok (h.encPass_eq (by omega) hpos) fun _ _ => rfl

theorem State.SameDeclared.buildSOperation_eq : buildSOperation s = buildSOperation t := by
  simp only [buildSOperation, fldchk, ← h.vlen, ← h.dlen]
  exact bind_congr_of_ok rfl fun _ _ => h.buildOperation_eq

theorem State.SameDeclared.parseOperation_eq : parseOperation s = parseOperation t := by
  have hlen : lenchk s = lenchk t := by rw [lenchk, lenchk, h.ilen]
  simp only [parseOperation, ← h.ilen]
  refine bind_congr_of_ok hlen fun _ hl => ?_
  have hlong : 26 ≤ s.ilen := by
    rcases lenchk_cases s with ⟨hlong, -⟩ | ⟨-, hshort⟩
    · exact hlong
    · cases hl.symm.trans hshort
  have hhdr : hdrchk s = hdrchk t := h.compareChars_eq _ _ (by simp only [hdr, List.length_cons, List.length_nil]; omega)
  have hcs (v : CrcWord) : cschk s v = cschk t v := by
    rw [cschk, cschk, ← h.ilen]
    exact h.compareChars_eq _ _ (by rw [toHex4_length, chkLen]; omega)
  have hdev : parseDeviceId s = parseDeviceId t :=
    bind_congr_of_ok (h.readSpan_eq nofun (by simp only [devOff, devLen, State.len_inbuf]; omega)) fun _ _ => rfl
  refine bind_congr_of_ok hhdr fun _ _ => bind_congr_of_ok (h.crcPass_eq _ (by omega)) fun v _ =>
    bind_congr_of_ok (hcs v) fun _ _ => bind_congr_of_ok h.keychk_eq fun _ hk => bind_congr_of_ok rfl fun _ _ => ?_
  have hpos := Nat.pos_of_ne_zero (klen_ne_zero_of_keychk hk)
  exact bind_congr_of_ok (h.decPass_eq (by simp only [payloadOff, framing]; omega) hpos) fun _ _ =>
    bind_congr_of_ok hdev fun _ _ => rfl

/-- A command's operation reads nothing but the declared operands. -/
theorem State.SameDeclared.operation_eq (i : Instr) : operation i s = operation i t := by
  cases i with
  | xenc => exact h.xencOperation_eq
  | xdec => exact h.xdecOperation_eq
  | crc16 => exact h.crc16Operation_eq
  | build => exact h.buildOperation_eq
  | buildS => exact h.buildSOperation_eq
  | parse => exact h.parseOperation_eq

end

/-- What a command's operation answers is a result of its shape. -/
theorem operation_fits {i : Instr} {s : State} {r : Result} (h : operation i s = .ok r) : r.Fits i s := by
  rcases operation_cases i s with ⟨r', hr, hf⟩ | ⟨k, hk, -⟩ | ⟨e, he, -⟩
  · cases hr.symm.trans h
    exact hf
  · cases hk.symm.trans h
  · cases he.symm.trans h

/-- A component the command produces is the component. -/
theorem eq_some_getD {α : Type} {o : Option α} (h : o.isSome) (a : α) : o = some (o.getD a) := by
  obtain ⟨b, rfl⟩ := Option.isSome_iff_exists.1 h
  rfl

/-- A completion shows its result. -/
theorem complete_shows {i : Instr} {s : State} {r : Result} (hf : r.Fits i s) : (s.complete r).Shows i r where
  ended := complete_endedOk s r
  output := complete_output (hf.olen.trans hf.out.symm)
  olen := rfl
  crc hc := eq_some_getD (hf.crc hc) _
  rdev hp := eq_some_getD (hf.rdev hp) _

theorem raiseError_specifiedAgree (i : Instr) (s t : State) (k : ErrKind) :
    (s.raiseError k).SpecifiedAgree i (t.raiseError k) where
  status := rfl
  err := rfl
  olen := rfl
  seq := rfl
  outbuf _ _ _ := rfl
  crc hs := absurd hs (by rw [State.raiseError_st]; decide)
  rdev hs := absurd hs (by rw [State.raiseError_st]; decide)

/-- The same answer of the operation ends the command alike in two states. -/
theorem conclude_agree {i : Instr} {s t : State} {x : Except Stop Result} (hf : ∀ r, x = .ok r → r.Fits i s) :
    OutcomesAgree i (s.conclude x) (t.conclude x) := by
  rcases x with (k | f) | r
  · exact raiseError_specifiedAgree i s t k
  · exact rfl
  · exact (complete_shows (hf r rfl)).specifiedAgree t

/-- Settles O50: the length check and the operation are the same in both states, and conclude alike. -/
theorem outcomeDependsOnDeclaredOperandsOnly : Obligations.OutcomeDependsOnDeclaredOperandsOnly := by
  intro i s t hc hlen hchar
  have h : s.SameDeclared t :=
    ⟨hc, hlen .keymem nofun, hlen .inbuf nofun, hlen .verbuf nofun, hlen .devbuf nofun, hchar⟩
  rw [exec_eq, exec_eq, runCommand, runCommand, ← h.lengthsInRange_eq, ← h.operation_eq]
  split
  · exact conclude_agree fun _ => operation_fits
  · exact raiseError_specifiedAgree i s t .badCommand

/-! ### Character reads (R170, R177, 20_memory.md R62) -/

/-- A read at or above the capacity is a free value (20_memory.md R50). -/
theorem readCharacter_beyond {s : State} {x : Space} {i : Nat} (d : Nat) (hc : s.caps.capacity x ≤ i) :
    s.readCharacter d x i = Config.freeChar d := if_pos (.inr hc)

/-- A read below the capacity with no command running does not depend on the draw. -/
theorem readCharacter_draw {s : State} {x : Space} {i : Nat} (hb : s.busy = false) (hc : i < s.caps.capacity x) (d d' : Nat) :
    s.readCharacter d x i = s.readCharacter d' x i := by
  have h : ¬ (s.busy = true ∨ s.caps.capacity x ≤ i) := by simp [hb, hc]
  rw [State.readCharacter, State.readCharacter, if_neg h, if_neg h]

/-- A character read leaves what the next one looks at. -/
theorem readCharacter_hostRead (s : State) (v d : Nat) (x : Space) (i : Nat) :
    (s.hostRead v false).readCharacter d x i = s.readCharacter d x i := by
  have ho : (s.hostRead v false).unobserved = s.unobserved := by simp [State.unobserved]
  have hl (y : Space) : (s.hostRead v false).unlistedChar y i = s.unlistedChar y i := rfl
  have hm : (s.hostRead v false).buf x = s.buf x := by cases x <;> rfl
  simp only [State.readCharacter, State.hostRead_busy, State.hostRead_caps, ho, hl, hm]

/-- Settles O13: a read below the capacity returns the stored character, and leaves all that the next read looks at. -/
theorem characterReadsReturnWhatIsStored : Obligations.CharacterReadsReturnWhatIsStored := by
  constructor
  · intro s x i c rest hb hc hr ho hi
    exact ⟨_, step_free hb hi, congrArg BitVec.toNat (readCharacter_stored (s := { s with inputs := rest }) _ hb hc ho hr)⟩
  · intro s x i rest hb hc hi
    refine ⟨_, _, step_free hb hi, step_free hb rfl, ?_⟩
    have hagain (v : Nat) := readCharacter_hostRead { s with inputs := rest } v (s.draws + 1) x i
    exact congrArg BitVec.toNat ((hagain _).trans (readCharacter_draw hb hc _ _))

/-! ### Results before the end of a command was observed (R177, 93_implementation_defined.md U6) -/

/-- Looking at `STATUS` or at `done` observes the end of a command. -/
@[simp] theorem hostRead_unobserved (s : State) (v : Nat) : (s.hostRead v true).unobserved = false := by
  simp only [State.unobserved, State.hostRead_done, State.hostRead_observed]
  cases s.done <;> cases s.observed <;> rfl

/-- What a look at the output `done` returns (R170). -/
theorem done_toNat (s : State) : s.done.toNat = if s.st = stDoneOk ∨ s.st = stDoneErr then 1 else 0 := by
  simp only [← s.done_iff]
  cases s.done <;> rfl

/-- The three ways in which the host observes the end of a command, as one read. -/
theorem serve_observes (s : State) {a : Input} (ha : a = .hrd 1 ∨ a = .wait ∨ a = .watchDone) :
    serve s a = s.hostRead
      (if a = .watchDone then (if s.st = stDoneOk ∨ s.st = stDoneErr then 1 else 0) else s.status.toNat) true := by
  rcases ha with rfl | rfl | rfl
  · rfl
  · rfl
  · exact congrArg (s.hostRead · true) (done_toNat s)

/-- `RDEV[j]` is a result (R176). -/
theorem isResultReg_rdev {j : Nat} (hj : j < 16) : isResultReg (16 + j) = true := by
  have hlt : 16 + j < 32 := Nat.add_lt_add_left hj 16
  simp [isResultReg, regRdev, devLen, hlt]

/-- The state with other results in their place. -/
def State.withResults (s : State) (olen : Nat) (crc : CrcWord) (rdev : Vector Chr 16) (outbuf : Memory) : State :=
  { s with olen := olen, crc := crc, rdev := rdev, outbuf := outbuf }

/-- With an end not yet observed no command runs. -/
theorem State.busy_eq_false_of_unobserved {s : State} (hu : s.unobserved = true) : s.busy = false := by
  obtain ⟨hdone, -⟩ := Bool.and_eq_true_iff.1 hu
  rcases s.done_iff.1 hdone with h | h <;> rw [State.busy, h] <;> rfl

section
variable {s : State} (hu : s.unobserved = true) (olen : Nat) (crc : CrcWord) (rdev : Vector Chr 16) (outbuf : Memory)
include hu

/-- A result register read before the end was observed does not look at what is stored. -/
theorem readRegister_withResults (n : Nat) (hr : isResultReg n = true) :
    (s.withResults olen crc rdev outbuf).readRegister n = s.readRegister n :=
  (readRegister_unobserved (s := s.withResults olen crc rdev outbuf) (State.busy_eq_false_of_unobserved hu) hu hr).trans
    (readRegister_unobserved (State.busy_eq_false_of_unobserved hu) hu hr).symm

/-- A result character read before the end was observed does not look at what is stored. -/
theorem readCharacter_withResults (d i : Nat) :
    (s.withResults olen crc rdev outbuf).readCharacter d .outbuf i = s.readCharacter d .outbuf i := by
  rcases Nat.lt_or_ge i s.caps.outMax with hc | hc
  · have hb := State.busy_eq_false_of_unobserved hu
    exact (readCharacter_unobserved (s := s.withResults olen crc rdev outbuf) d hb hc hu).trans
      (readCharacter_unobserved d hb hc hu).symm
  · exact (readCharacter_beyond (s := s.withResults olen crc rdev outbuf) d hc).trans (readCharacter_beyond d hc).symm

theorem movoiRead_withResults (n i : Nat) : movoiRead (s.withResults olen crc rdev outbuf) n i = movoiRead s n i := by
  induction n generalizing i with
  | zero => rfl
  | succ n ih => exact congrArg₂ List.cons (readCharacter_withResults hu olen crc rdev outbuf _ i) (ih _)

theorem movoiWrites_withResults : movoiWrites (s.withResults olen crc rdev outbuf) = movoiWrites s := by
  rw [movoiWrites, movoiWrites, readRegister_withResults hu olen crc rdev outbuf regOlen rfl, movoiRead_withResults hu]

/-- Every read of a result before the end was observed leaves the host's side alike, whatever is stored. -/
theorem serve_withResults {a : Input}
    (ha : a = .hrd 7 ∨ a = .hrd 8 ∨ (∃ j, j < 16 ∧ a = .hrd (16 + j)) ∨ (∃ i, a = .brd .outbuf i) ∨ a = .movoi) :
    (serve (s.withResults olen crc rdev outbuf) a).rdata = (serve s a).rdata ∧
      (serve (s.withResults olen crc rdev outbuf) a).inputs = (serve s a).inputs := by
  have hreg := readRegister_withResults hu olen crc rdev outbuf
  rcases ha with rfl | rfl | ⟨j, hj, rfl⟩ | ⟨i, rfl⟩ | rfl
  · exact ⟨hreg 7 rfl, rfl⟩
  · exact ⟨hreg 8 rfl, rfl⟩
  · exact ⟨hreg (16 + j) (isResultReg_rdev hj), rfl⟩
  · exact ⟨congrArg BitVec.toNat (readCharacter_withResults hu olen crc rdev outbuf s.draws i), rfl⟩
  · exact ⟨hreg regOlen rfl, congrArg (· ++ s.inputs) (movoiWrites_withResults hu olen crc rdev outbuf)⟩

end

/-- Settles O60: both ends of a command are unobserved, each look at them is one read, and until then a read of a result
does not look at what is stored. -/
theorem resultsNeedDoneObserved : Obligations.ResultsNeedDoneObserved := by
  refine ⟨fun i s t ht => ?_, fun s a rest hb hi ha => ?_, fun s a rest hu hi ha olen crc rdev outbuf => ?_⟩
  · rcases exec_next_cases ht with ⟨r, -, rfl⟩ | ⟨k, rfl⟩
    · exact State.complete_unobserved s r
    · exact State.raiseError_unobserved s k
  · exact ⟨_, (step_free hb hi).trans (congrArg _ (serve_observes _ ha)), hostRead_unobserved _ _, rfl, rfl, rfl, rfl, rfl,
      rfl, rfl⟩
  · have hb := State.busy_eq_false_of_unobserved hu
    exact ⟨_, _, step_free hb hi, step_free hb hi,
      serve_withResults (s := { s with inputs := rest }) hu olen crc rdev outbuf ha⟩

end Sys2Proof.Machine
end

section
/-!
SUPPORT. The table of R198 (60_exceptions.md): which command can end with which error kind.
-/

namespace Sys2Proof.Machine

/-- A command that ends with an error reports a kind of any list that holds `BadCommand` and its operation's kinds. -/
theorem exec_endedErr_mem {i : Instr} {s t : State} {k : ErrKind} {kinds : List ErrKind}
    (hsub : .badCommand :: operationKinds i ⊆ kinds) (ht : exec i s = .next t) (hk : t.EndedErr k) : k ∈ kinds := by
  rcases exec_endedErr ht hk with ⟨-, hm⟩ | ⟨-, rfl⟩
  · exact hsub (List.mem_cons_of_mem _ hm)
  · exact hsub List.mem_cons_self

/-- Settles O44: each column of the table holds `BadCommand`, the length check's kind, and the kinds of its operation. -/
theorem errorKindsOfEachCommand : Obligations.ErrorKindsOfEachCommand := fun _ _ _ =>
  ⟨exec_endedErr_mem (i := .xenc) (by decide), exec_endedErr_mem (i := .xdec) (by decide),
    exec_endedErr_mem (i := .crc16) (by decide), exec_endedErr_mem (i := .build) (by decide),
    exec_endedErr_mem (i := .buildS) (by decide), exec_endedErr_mem (i := .parse) (by decide)⟩

end Sys2Proof.Machine
end

section
/-!
SUPPORT. Reset and hazards (70_reset_and_hazards.md): the reset event, which alone returns `ST` to `IDLE`, and the bounded
progress of a running command.
-/

namespace Sys2Proof.Machine

/-! ### The reset event (R220) -/

/-- After the reset event no buffer character is listed (10_state.md R38). -/
theorem resetEvent_read (s : State) (x : Space) (i : Nat) : Memory.read (s.resetEvent.buf x) i = none := by
  cases x <;> rfl

/-- A register write leaves `ST` or starts a command. -/
theorem writeRegister_st_ne_idle {s : State} (hs : s.st ≠ stIdle) (n v : Nat) : (s.writeRegister n v).st ≠ stIdle := by
  rcases writeRegister_cases s n v with e | e | e | e | e | e <;> rw [e]
  case inr.inl => rw [State.startCommand_st]; decide
  all_goals exact hs

@[simp] theorem writeCharacter_status (s : State) (x : Space) (i : Nat) (v : Chr) :
    (s.writeCharacter x i v).status = s.status := by
  rcases writeCharacter_cases s x i v with e | ⟨-, -, e⟩ <;> simp [e]

/-- No input but the reset event makes `ST` `IDLE`. -/
theorem serve_st_ne_idle {s : State} (hs : s.st ≠ stIdle) {a : Input} (ha : a ≠ .rst) : (serve s a).st ≠ stIdle := by
  cases a with
  | hwr n v => exact writeRegister_st_ne_idle hs n v
  | bwr x i v => exact fun h => hs (by rwa [State.st, ← writeCharacter_status s x i v])
  | rst => exact absurd rfl ha
  | hrd n => exact hs
  | brd x i => exact hs
  | wait => exact hs
  | movoi => exact hs
  | watchDone => exact hs

/-- The engine's move ends the command with `DONE_OK` or `DONE_ERR`. -/
theorem engineStep_st {s t : State} (ht : engineStep s = .next t) : t.st = stDoneOk ∨ t.st = stDoneErr := by
  rcases engineStep_cases s with ⟨i, r, -, -, -, he⟩ | ⟨k, he, -⟩ | ⟨x, j, he⟩ <;> rw [he] at ht <;> cases ht
  · exact .inl (State.complete_st s r)
  · exact .inr (State.raiseError_st s k)

/-- An input whose service returns `ST` to `IDLE` is the reset event. -/
theorem eq_rst_of_serve_idle {s : State} {a : Input} (hs : s.st ≠ stIdle) (ht : (serve s a).st = stIdle) : a = .rst :=
  Classical.byContradiction fun ha => serve_st_ne_idle hs ha ht

/-- Settles O16: the event is served and gives the reset values; of all a step can be, the engine's move ends in `DONE_OK` or
`DONE_ERR`, an idle step leaves `ST`, and a served input that makes it `IDLE` is `rst`. -/
theorem resetEventGivesTheResetValues : Obligations.ResetEventGivesTheResetValues := by
  constructor
  · intro s rest hl hi
    exact ⟨_, step_serves hi nofun hl, rfl, rfl, State.resetEvent_csok _, rfl, rfl, rfl, rfl, rfl, rfl, rfl, rfl, rfl,
      resetEvent_read _⟩
  · intro s t ht hs hidle
    rcases step_cases s with ⟨-, e⟩ | ⟨n, a, rest, -, -, hi, e⟩ | ⟨-, -, e⟩ | ⟨a, rest, -, hi, e⟩ <;> rw [e] at ht
    · rcases engineStep_st ht with h | h <;> rw [h] at hidle <;> exact absurd hidle (by decide)
    · cases ht
      rw [hi, eq_rst_of_serve_idle (s := { s with inputs := rest, busyLeft := n }) hs hidle, List.head?_cons]
    · cases ht
      exact absurd hidle hs
    · cases ht
      rw [hi, eq_rst_of_serve_idle (s := { s with inputs := rest }) hs hidle, List.head?_cons]

/-! ### Bounded progress (R231, 43_command_interface.md R179) -/

/-- Some run of at most `n` steps reaches a state that is not `BUSY`, or the fault on a character the host never wrote. -/
def State.EndsWithin (s : State) (n : Nat) : Prop :=
  ∃ k, k ≤ n ∧
    ((∃ t, core.run k s = .next t ∧ State.busy t = false) ∨ (∃ x i, core.run k s = .fault (.unwrittenChar x i)))

/-- With no command running nothing is left to wait for. -/
theorem State.endsWithin_of_not_busy {s : State} (hb : s.busy = false) (n : Nat) : s.EndsWithin n :=
  ⟨0, Nat.zero_le n, .inl ⟨s, run_zero s, hb⟩⟩

/-- One step more is needed from the state before. -/
theorem State.EndsWithin.of_step {s t : State} {n : Nat} (h : t.EndsWithin n) (hst : step s = .next t) :
    s.EndsWithin (n + 1) := by
  obtain ⟨k, hk, hend⟩ := h
  exact ⟨k + 1, Nat.succ_le_succ hk, by rwa [run_next k hst]⟩

/-- The engine's move ends the command, or faults. -/
theorem State.endsWithin_of_engineStep {s : State} (hst : step s = engineStep s) (n : Nat) : s.EndsWithin (n + 1) := by
  rcases engineStep_cases s with ⟨i, r, -, -, -, he⟩ | ⟨k, he, -⟩ | ⟨x, j, he⟩
  · exact (State.endsWithin_of_not_busy (State.complete_busy s r) n).of_step (hst.trans he)
  · exact (State.endsWithin_of_not_busy (State.raiseError_busy s k) n).of_step (hst.trans he)
  · exact ⟨1, Nat.le_add_left 1 n, .inr ⟨x, j, run_fault 0 (hst.trans he)⟩⟩

/-- No input served while a command runs gives the host more time. -/
theorem serve_busyLeft_le {s : State} (hb : s.busy = true) (a : Input) : (serve s a).busyLeft ≤ s.busyLeft := by
  cases a with
  | hwr n v => exact (congrArg State.busyLeft (writeRegister_busy hb n v)).le
  | bwr x i v => exact (congrArg State.busyLeft (writeCharacter_busy hb x i v)).le
  | rst => exact Nat.zero_le _
  | hrd n => exact Nat.le_refl _
  | brd x i => exact Nat.le_refl _
  | wait => exact Nat.le_refl _
  | movoi => exact Nat.le_refl _
  | watchDone => exact Nat.le_refl _

/-- By induction on the inputs that may still be served: each one served leaves fewer, and with none left the engine moves. -/
theorem State.endsWithin_of_busyLeft_le {s : State} {n : Nat} (hn : s.busyLeft ≤ n) : s.EndsWithin (n + 1) := by
  induction n generalizing s with
  | zero =>
    cases hb : s.busy with
    | false => exact State.endsWithin_of_not_busy hb _
    | true => exact State.endsWithin_of_engineStep (step_engine hb (.inl (Nat.le_zero.1 hn))) 0
  | succ n ih =>
    rcases step_cases s with ⟨-, e⟩ | ⟨m, a, rest, hb, hm, -, e⟩ | ⟨hb, -, -⟩ | ⟨-, -, hb, -, -⟩
    · exact State.endsWithin_of_engineStep e _
    · have hserve := serve_busyLeft_le (s := { s with inputs := rest, busyLeft := m }) hb a
      exact (ih (hserve.trans (Nat.le_of_succ_le_succ (hm.symm.trans_le hn)))).of_step e
    · exact State.endsWithin_of_not_busy hb _
    · exact State.endsWithin_of_not_busy hb _

/-- Settles O18: each input served while `BUSY` uses up one of the model's own `busyLeft` (notes/assumptions/8.md), and then
the engine ends the command. -/
theorem busyAlwaysEnds : Obligations.BusyAlwaysEnds := fun _ _ => State.endsWithin_of_busyLeft_le (Nat.le_refl _)

end Sys2Proof.Machine
end
